-- ==== Sys2Proof/Word.lean ====
section
/-! DEFINITION. The word types of the CFC (00_scope.md R6, R7, R13; 30_encoding.md R70). -/

namespace Sys2Proof

/-- A command or response word, and a Q15.16 gain word: 32 bits (R70, R83, R7). -/
abbrev Word := BitVec 32

/-- A sample, a delay, a count or a half of the gain word: 16 bits (R6, R75). -/
abbrev Half := BitVec 16

/-- A channel index, field CH: 4 bits (R72). -/
abbrev Channel := BitVec 4

/-- One byte lane of a bus bridge (R56). -/
abbrev Byte := BitVec 8

end Sys2Proof
end

