-- ==== Sys2Proof/Syntax.lean ====
section
/-! DEFINITION. The thirteen commands of CFC-1 (30_encoding.md R78), one constructor per row of the opcode table.
Operands stand as R75 and R76 give them: fields as they are encoded, nothing scaled or extended. -/

namespace Sys2Proof

/-- The filter kind, field K and register KIND (30_encoding.md R73, 10_state.md R22). -/
inductive Kind where
  | fir
  | iir
  deriving DecidableEq, Repr

/-- The commands, in the order of R78. -/
inductive Instr where
  /-- NOP (R170). -/
  | nop
  /-- SETGL, D = gain bits 15:0 (R171). -/
  | setgl (d : Half)
  /-- SETGH, D = gain bits 31:16 (R172). -/
  | setgh (d : Half)
  /-- SETDLY, D = delay (R173). -/
  | setdly (d : Half)
  /-- CONS, K = kind, D = channel count (R174). -/
  | cons (k : Kind) (n : Half)
  /-- DSTR (R178). -/
  | dstr
  /-- BLK, A = declared channel count, D = frame count (R151). -/
  | blk (n : BitVec 7) (f : Half)
  /-- SMP, D = input sample (R152). -/
  | smp (x : Half)
  /-- FILT, CH = channel, D = input sample (R128). -/
  | filt (c : Channel) (x : Half)
  /-- DLRD, CH = channel (R102). -/
  | dlrd (c : Channel)
  /-- DLWR, CH = channel, D = sample (R103). -/
  | dlwr (c : Channel) (v : Half)
  /-- RDST, D[3:0] = selector (R180). -/
  | rdst (sel : BitVec 4)
  /-- RDCUR, CH = channel (R104). -/
  | rdcur (c : Channel)
  deriving DecidableEq, Repr

end Sys2Proof
end

