-- ==== Sys2Proof/WellFormed.lean ====
section
/-! DEFINITION. Which terms of `Instr` are commands: the one operand range that is narrower than its field. -/

namespace Sys2Proof

/-- RDST takes the selectors 0 to 13; 14 and 15 are illegal (30_encoding.md R80, 43_config_control.md R180).
Every value of every other field is a legal encoding (R72 says so of CH). -/
def Instr.wf : Instr → Bool
  | .rdst sel => sel.toNat ≤ 13
  | .nop | .setgl _ | .setgh _ | .setdly _ | .cons _ _ | .dstr | .blk _ _ | .smp _ => true
  | .filt _ _ | .dlrd _ | .dlwr _ _ | .rdcur _ => true

end Sys2Proof
end

