-- ==== Sys2Proof/Decode.lean ====
section
/-! DEFINITION. The decoder, total on any bytes and rejecting by name, and the encoder after it
(30_encoding.md R70 to R82). A word decodes to a command exactly when it agrees with the command's
match under its mask (R77). -/

namespace Sys2Proof

/-! ### Fields of format C (R70) -/

/-- Field OP, bits 31:28 (R71). -/
def fieldOP (w : Word) : BitVec 4 := w.extractLsb 31 28

/-- Field CH, bits 27:24 (R72). -/
def fieldCH (w : Word) : Channel := w.extractLsb 27 24

/-- Field K, bit 23 (R73). -/
def fieldK (w : Word) : BitVec 1 := w.extractLsb 23 23

/-- Field A, bits 22:16 (R74). -/
def fieldA (w : Word) : BitVec 7 := w.extractLsb 22 16

/-- Field D, bits 15:0 (R75). -/
def fieldD (w : Word) : Half := w.extractLsb 15 0

/-- The selector, `D[3:0]` (R75 (d)). -/
def fieldSel (w : Word) : BitVec 4 := w.extractLsb 3 0

/-- K = 0 is FIR, K = 1 is IIR (R73). -/
def kindOfBit (b : BitVec 1) : Kind := if b = 1#1 then .iir else .fir

/-- The bit that stands for a kind in field K and in KIND (R73, 10_state.md R22). -/
def kindBit : Kind → BitVec 1
  | .fir => 0#1
  | .iir => 1#1

/-- A word agrees with a row's match under its mask (R77). -/
def agrees (w mask pattern : Word) : Bool := w &&& mask == pattern

/-! ### Decoding -/

/-- Why a transfer is no command. The first three all answer ILLEGAL_COMMAND (R77, R79, R80); the last is a transfer
that is not a whole word (20_memory.md R57). -/
inductive DecodeError where
  /-- OP is 0xD, 0xE or 0xF (R79). -/
  | reservedOpcode
  /-- A bit outside the operand fields is 1 (R80). -/
  | reservedBit
  /-- RDST with selector 14 or 15 (R80). -/
  | reservedSelector
  /-- Not four byte lanes (R57). -/
  | tornWord
  deriving DecidableEq, Repr

/-- Names what is wrong with a word that no row takes (R79, R80). -/
def decodeErrorOf (w : Word) : DecodeError :=
  if 0xD ≤ (fieldOP w).toNat then .reservedOpcode
  else if agrees w 0xFFFFFFF0 0xB0000000 then .reservedSelector
  else .reservedBit

/-- The opcode map of R78, row by row; R77 makes it total. -/
def decode (w : Word) : Except DecodeError Instr :=
  if agrees w 0xFFFFFFFF 0x00000000 then .ok .nop
  else if agrees w 0xFFFF0000 0x10000000 then .ok (.setgl (fieldD w))
  else if agrees w 0xFFFF0000 0x20000000 then .ok (.setgh (fieldD w))
  else if agrees w 0xFFFF0000 0x30000000 then .ok (.setdly (fieldD w))
  else if agrees w 0xFF7F0000 0x40000000 then .ok (.cons (kindOfBit (fieldK w)) (fieldD w))
  else if agrees w 0xFFFFFFFF 0x50000000 then .ok .dstr
  else if agrees w 0xFF800000 0x60000000 then .ok (.blk (fieldA w) (fieldD w))
  else if agrees w 0xFFFF0000 0x70000000 then .ok (.smp (fieldD w))
  else if agrees w 0xF0FF0000 0x80000000 then .ok (.filt (fieldCH w) (fieldD w))
  else if agrees w 0xF0FFFFFF 0x90000000 then .ok (.dlrd (fieldCH w))
  else if agrees w 0xF0FF0000 0xA0000000 then .ok (.dlwr (fieldCH w) (fieldD w))
  else if agrees w 0xFFFFFFF0 0xB0000000 && (fieldSel w).toNat ≤ 13 then .ok (.rdst (fieldSel w))
  else if agrees w 0xF0FFFFFF 0xC0000000 then .ok (.rdcur (fieldCH w))
  else .error (decodeErrorOf w)

/-- A word from the byte lanes of a bridge, byte 0 = bits 7:0 (20_memory.md R56; general knowledge in the spec's own
words: PRESUMED, log entry 18). Anything but four lanes is a torn transfer (R57). -/
def wordOfLanes : List Byte → Option Word
  | [b0, b1, b2, b3] => some (b3 ++ b2 ++ b1 ++ b0)
  | _ => none

/-- The byte lanes of a word, byte 0 first (R56). -/
def lanesOfWord (w : Word) : List Byte :=
  [w.extractLsb 7 0, w.extractLsb 15 8, w.extractLsb 23 16, w.extractLsb 31 24]

/-- The decoder on byte lanes: total on any bytes. -/
def decodeBytes (lanes : List Byte) : Except DecodeError Instr :=
  match wordOfLanes lanes with
  | some w => decode w
  | none => .error .tornWord

/-! ### Encoding -/

/-- The opcode of R78, echoed as ROP in the response (30_encoding.md R83). -/
def Instr.op : Instr → BitVec 4
  | .nop => 0x0
  | .setgl _ => 0x1
  | .setgh _ => 0x2
  | .setdly _ => 0x3
  | .cons _ _ => 0x4
  | .dstr => 0x5
  | .blk _ _ => 0x6
  | .smp _ => 0x7
  | .filt _ _ => 0x8
  | .dlrd _ => 0x9
  | .dlwr _ _ => 0xA
  | .rdst _ => 0xB
  | .rdcur _ => 0xC

/-- A word of format C from its fields, `{OP, CH, K, A, D}` (R70). -/
def formatC (op : BitVec 4) (ch : Channel) (k : BitVec 1) (a : BitVec 7) (d : Half) : Word :=
  op ++ ch ++ k ++ a ++ d

/-- The word of a command: its fields by R78, every other field 0 (R80). -/
def encode : Instr → Word
  | .nop => formatC 0x0 0 0 0 0
  | .setgl d => formatC 0x1 0 0 0 d
  | .setgh d => formatC 0x2 0 0 0 d
  | .setdly d => formatC 0x3 0 0 0 d
  | .cons k n => formatC 0x4 0 (kindBit k) 0 n
  | .dstr => formatC 0x5 0 0 0 0
  | .blk n f => formatC 0x6 0 0 n f
  | .smp x => formatC 0x7 0 0 0 x
  | .filt c x => formatC 0x8 c 0 0 x
  | .dlrd c => formatC 0x9 c 0 0 0
  | .dlwr c v => formatC 0xA c 0 0 v
  | .rdst sel => formatC 0xB 0 0 0 (sel.setWidth 16)
  | .rdcur c => formatC 0xC c 0 0 0

/-! ### The opcode table, and the host's question -/

/-- One row of the opcode map (R78). -/
structure OpcodeRow where
  mnemonic : String
  pattern : Word
  mask : Word
  deriving DecidableEq, Repr

/-- The thirteen rows of R78. -/
def opcodeMap : List OpcodeRow :=
  [ ⟨"NOP", 0x00000000, 0xFFFFFFFF⟩, ⟨"SETGL", 0x10000000, 0xFFFF0000⟩, ⟨"SETGH", 0x20000000, 0xFFFF0000⟩,
    ⟨"SETDLY", 0x30000000, 0xFFFF0000⟩, ⟨"CONS", 0x40000000, 0xFF7F0000⟩, ⟨"DSTR", 0x50000000, 0xFFFFFFFF⟩,
    ⟨"BLK", 0x60000000, 0xFF800000⟩, ⟨"SMP", 0x70000000, 0xFFFF0000⟩, ⟨"FILT", 0x80000000, 0xF0FF0000⟩,
    ⟨"DLRD", 0x90000000, 0xF0FFFFFF⟩, ⟨"DLWR", 0xA0000000, 0xF0FF0000⟩, ⟨"RDST", 0xB0000000, 0xFFFFFFF0⟩,
    ⟨"RDCUR", 0xC0000000, 0xF0FFFFFF⟩ ]

/-- The mnemonic of a command (R78). -/
def mnemonicOf : Instr → String
  | .nop => "NOP"
  | .setgl _ => "SETGL"
  | .setgh _ => "SETGH"
  | .setdly _ => "SETDLY"
  | .cons _ _ => "CONS"
  | .dstr => "DSTR"
  | .blk _ _ => "BLK"
  | .smp _ => "SMP"
  | .filt _ _ => "FILT"
  | .dlrd _ => "DLRD"
  | .dlwr _ _ => "DLWR"
  | .rdst _ => "RDST"
  | .rdcur _ => "RDCUR"

/-- The instruction the decoder reads from the `nbits` low bits of `w`, the bits above being 0. -/
def decodeTableWord (nbits w : Nat) : Option Instr :=
  match decodeBytes (lanesOfWord (BitVec.ofNat 32 (w % 2 ^ nbits))) with
  | .ok i => some i
  | .error _ => none

end Sys2Proof
end

