-- ==== Sys2Proof/Config.lean ====
section
/-! DEFINITION. What an implementation of the CFC fixes (00_scope.md R8, R9, R1; 43_config_control.md R186).
The model has no free value: `DL` and `CUR` after reset, the only unspecified values (R231), come in with the reset input. -/

namespace Sys2Proof

/-- The open parameters of one part (R8, R9): constants that no command and no reset writes (R186). -/
structure Part where
  /-- `P_MAX_CH`, read by RDST 11. -/
  maxCh : BitVec 5
  /-- `P_MAX_DELAY`, read by RDST 12. -/
  maxDelay : Half
  deriving DecidableEq, Repr

/-- The ranges of R8 and R9: `1 <= P_MAX_DELAY <= 65535` (the upper bound is the width) and `1 <= P_MAX_CH <= 16`. -/
def Part.ok (p : Part) : Bool :=
  1 ≤ p.maxDelay.toNat && 1 ≤ p.maxCh.toNat && p.maxCh.toNat ≤ 16

/-- The parameters every test vector of 95_test_vectors.md takes. DESIGN CHOICE (log entry 1), unsafe. -/
def Part.vectors : Part := { maxCh := 8, maxDelay := 4096 }

/-- `IDENT` of command set CFC-1 version 1 (R1, R186). -/
def Config.ident : Half := 0xCF01

end Sys2Proof
end

