-- ==== Sys2Proof/Machine/Memory.lean ====
section
/-! DEFINITION. The store of 16-bit cells that holds the delay-line memory and the cursors (20_memory.md R51 to R53;
10_state.md R28, R29): a list of (address, value) pairs in ONE canonical form, so that equal contents are equal data.
The unit of storage is one whole sample (R51: "there are no bytes inside it that any command can reach"). -/

namespace Sys2Proof.Machine

/-- Cells by rising address. An unlisted address reads as `Memory.absent`. -/
abbrev Memory := List (Nat × Half)

/-- What an unlisted address reads as. The spec gives these cells no value before a CONS writes them (70_reset_and_hazards.md
R231): DESIGN CHOICE (log entry 2), unsafe, and without effect on any response (10_state.md R39). -/
def Memory.absent : Half := 0

/-- The value at an address. -/
def Memory.read : Memory → Nat → Half
  | [], _ => Memory.absent
  | (k, v) :: m, a => if k = a then v else Memory.read m a

/-- Stores a value, keeping the canonical form: storing `absent` takes the entry out. -/
def Memory.write : Memory → Nat → Half → Memory
  | [], a, v => if v = Memory.absent then [] else [(a, v)]
  | (k, w) :: m, a, v =>
    if a < k then (if v = Memory.absent then (k, w) :: m else (a, v) :: (k, w) :: m)
    else if a = k then (if v = Memory.absent then m else (a, v) :: m)
    else (k, w) :: Memory.write m a v

/-- Stores 0 at every address of a region. This is the fast form of the loops of writes of 0 in CONS
(43_config_control.md R174); that both give the same store is the obligation `ConsZeroFillIsTheLoop`. -/
def Memory.clear (region : Nat → Bool) (m : Memory) : Memory :=
  m.filter fun cell => !region cell.1

/-- The contents that a list of cells, in any order, leaves in an empty store that has only the cells of a region. -/
def Memory.ofCells (region : Nat → Bool) (cells : List (Nat × Half)) : Memory :=
  cells.foldl (fun m cell => if region cell.1 then m.write cell.1 cell.2 else m) []

/-- No entry holds `absent`, and every entry of `m` lies above address `lo`, rising. -/
def Memory.wfAbove : Nat → Memory → Bool
  | _, [] => true
  | lo, (k, v) :: m => lo < k && v != Memory.absent && Memory.wfAbove k m

/-- The canonical form: addresses strictly rising and no entry equal to what an unlisted address reads as. -/
def Memory.wf : Memory → Bool
  | [] => true
  | (k, v) :: m => v != Memory.absent && Memory.wfAbove k m

/-- Every listed cell lies in a region. -/
def Memory.within (region : Nat → Bool) (m : Memory) : Bool :=
  m.all fun cell => region cell.1

end Sys2Proof.Machine
end

