-- ==== Sys2Proof/Machine/State.lean ====
section
/-! DEFINITION. The state of the machine as plain data: the architectural state S of 10_state.md R20, the constants of the
part (43_config_control.md R186) and the command/response port (20_memory.md R50), with the reset state S0
(70_reset_and_hazards.md R230). -/

namespace Sys2Proof.Machine

/-- The architectural state S, "exactly the following. Nothing else is state" (10_state.md R20). -/
structure Arch where
  /-- `CONFIGURED` (R21). -/
  configured : Bool
  /-- `KIND` (R22). -/
  kind : Kind
  /-- `NCH` (R23). -/
  nch : BitVec 5
  /-- `DELAY` (R24). -/
  delay : Half
  /-- `GAIN`, Q15.16 (R25). -/
  gain : Word
  /-- `SGAIN` (R26). -/
  sgain : Word
  /-- `SDELAY` (R27). -/
  sdelay : Half
  /-- `DL[c][i]`, kept at address `slotAddr c i` (R28, 20_memory.md R51). -/
  dl : Memory
  /-- `CUR[c]`, kept at address `c` (R29). -/
  cur : Memory
  /-- `BLK_ACTIVE` (R30). -/
  blkActive : Bool
  /-- `BLK_CH` (R31). -/
  blkCh : BitVec 4
  /-- `BLK_FRAME` (R32). -/
  blkFrame : Half
  /-- `BLK_FRAMES` (R33). -/
  blkFrames : Half
  deriving DecidableEq, Repr

/-- The registers of S0, with a delay-line memory and cursors that reset does not fix (70_reset_and_hazards.md R230, R231). -/
def Arch.afterReset (dl cur : Memory) : Arch :=
  { configured := false, kind := .fir, nch := 0, delay := 0, gain := 0, sgain := 0, sdelay := 0, dl := dl, cur := cur,
    blkActive := false, blkCh := 0, blkFrame := 0, blkFrames := 0 }

/-- What arrives at the port from outside the core (00_scope.md R2, R3). -/
inductive HostInput where
  /-- One whole command word, with the host that issued it (20_memory.md R66). -/
  | command (host : Nat) (word : Word)
  /-- A transfer that is not a whole word (20_memory.md R57). -/
  | torn (host : Nat) (lanes : List Byte)
  /-- A reset, with what the delay-line memory and the cursors happen to hold after it (70_reset_and_hazards.md R230, R231):
  any cells at all, which is how "unspecified" is modelled (log entry 3). -/
  | reset (dl cur : List (Nat × Half))
  deriving DecidableEq, Repr

/-- A response word and the host it goes to (20_memory.md R66, 30_encoding.md R83). -/
structure Response where
  host : Nat
  word : Word
  deriving DecidableEq, Repr

/-- The whole machine. -/
structure State where
  /-- The constants of the part: no step changes them (43_config_control.md R186). -/
  part : Part
  /-- The architectural state S. -/
  arch : Arch
  /-- What waits at the port, next first (70_reset_and_hazards.md R235; log entry 4). -/
  inbox : List HostInput
  /-- The host whose command is being executed (20_memory.md R66; log entry 6). -/
  requester : Nat
  /-- The responses returned, oldest first (70_reset_and_hazards.md R241; log entry 4). -/
  outbox : List Response
  deriving DecidableEq, Repr

/-- Why the machine stops. -/
inductive Fault where
  /-- Raised by the port when a torn transfer arrives: "the core defines no behaviour for a torn word" (20_memory.md R57).
  Safe: the model stops where the spec gives no effect (log entry 5). -/
  | tornWord
  deriving DecidableEq, Repr

/-- Why an instruction has no meaning. -/
inductive Refusal where
  /-- Raised by an arm of `exec` for an instruction that has no meaning yet; no arm does. Safe: nothing is claimed of it. -/
  | notModelled (mnemonic : String)
  deriving DecidableEq, Repr

/-- The machine right after reset: S0 (70_reset_and_hazards.md R230) on the part of the test vectors (log entry 1), with
`DL` and `CUR`, which the spec leaves unspecified, at 0 (log entry 2), and nothing at the port. -/
def State.reset : State :=
  { part := Part.vectors, arch := Arch.afterReset [] [], inbox := [], requester := 0, outbox := [] }

end Sys2Proof.Machine
end

