-- ==== Sys2Proof/Machine/Flags.lean ====
section
/-! DEFINITION. The core has no condition codes (10_state.md R37): the outcome of a command is its response code, and the two
status bits CONFIGURED and BLK_ACTIVE are echoed in every response. This file holds the codes (60_exceptions.md R200), the
response word (30_encoding.md R83, R84) and the status word (43_config_control.md R181). -/

namespace Sys2Proof.Machine

/-- The response codes 0 to 8; 9 to 15 are never produced (R200, I16). -/
inductive Code where
  | ok
  | invalidDelay
  | channelCountMismatch
  | invalidChannelCount
  | notConfigured
  | channelIndexRange
  | blockActive
  | noBlock
  | illegalCommand
  deriving DecidableEq, Repr

/-- The number of a code in field CODE (R200). -/
def codeBits : Code → BitVec 4
  | .ok => 0
  | .invalidDelay => 1
  | .channelCountMismatch => 2
  | .invalidChannelCount => 3
  | .notConfigured => 4
  | .channelIndexRange => 5
  | .blockActive => 6
  | .noBlock => 7
  | .illegalCommand => 8

/-- `{cmd[31:28], CODE, BLK_ACTIVE, CONFIGURED, 0b000000, DATA}` (R84). -/
def responseWord (rop : BitVec 4) (code : Code) (rblk rcfg : Bool) (data : Half) : Word :=
  rop ++ codeBits code ++ BitVec.ofBool rblk ++ BitVec.ofBool rcfg ++ 0#6 ++ data

/-- Field ROP of a response, bits 31:28 (R83). -/
def responseROP (r : Word) : BitVec 4 := r.extractLsb 31 28

/-- Field CODE of a response, bits 27:24 (R83). -/
def responseCODE (r : Word) : BitVec 4 := r.extractLsb 27 24

/-- Field RBLK of a response, bit 23 (R83). -/
def responseRBLK (r : Word) : BitVec 1 := r.extractLsb 23 23

/-- Field RCFG of a response, bit 22 (R83). -/
def responseRCFG (r : Word) : BitVec 1 := r.extractLsb 22 22

/-- Bits 21:16 of a response (R83). -/
def responseZeros (r : Word) : BitVec 6 := r.extractLsb 21 16

/-- Field DATA of a response, bits 15:0 (R83). -/
def responseDATA (r : Word) : Half := r.extractLsb 15 0

/-- View 0: bit 0 CONFIGURED, bit 1 BLK_ACTIVE, bit 2 KIND, bits 15:3 zero (43_config_control.md R181). -/
def statusWord (a : Arch) : Half :=
  0#13 ++ kindBit a.kind ++ BitVec.ofBool a.blkActive ++ BitVec.ofBool a.configured

end Sys2Proof.Machine
end

