-- ==== Sys2Proof/Machine/Operands.lean ====
section
/-! DEFINITION. How operands are read as integers and results narrowed (00_scope.md R10, R14, R15). All arithmetic on these
values is exact integer arithmetic (R14). -/

namespace Sys2Proof.Machine

/-- `sval16`: a 16-bit vector read as two's complement (R14). -/
def sval16 (v : Half) : Int := v.toInt

/-- `sval32`: a 32-bit vector read as two's complement (R14). -/
def sval32 (v : Word) : Int := v.toInt

/-- `bits16`: the low 16 bits of the two's-complement form (R14). The rules use it only on `-32768 <= i <= 65535`. -/
def bits16 (i : Int) : Half := BitVec.ofInt 16 i

/-- `clamp(i, lo, hi)` (R15). -/
def clamp (i lo hi : Int) : Int := if i < lo then lo else if hi < i then hi else i

/-- `RoundShift`, with `P_ROUND = TRUNC`: toward zero, of the whole sum (R10; log entry 7). `/` is the floor of the quotient
here, since the divisor is positive. -/
def roundShift (a : Int) : Int := if 0 ≤ a then a / 65536 else -(-a / 65536)

/-- The exact sum of R11 and R121: the input aligned to the 16 fraction bits of the gain, plus the gain times the tap. -/
def combAcc (gain : Word) (tap x : Half) : Int := sval16 x * 65536 + sval32 gain * sval16 tap

/-- The narrowed, saturated output as an integer (R121, R124, R125). -/
def combValue (gain : Word) (tap x : Half) : Int := clamp (roundShift (combAcc gain tap x)) (-32768) 32767

end Sys2Proof.Machine
end

