-- ==== Sys2Proof/Machine/Ops.lean ====
section
/-! DEFINITION. The named operations over the delay lines and the registers, and the two ways a command ends
(00_scope.md R16): `State.fail` is what this core has in the place of taking an exception (60_exceptions.md R201, R205), and
`State.done` is a successful end. A command that fails leaves the architectural state alone, so there is no return from an
exception (R206). -/

namespace Sys2Proof.Machine

/-! ### The delay-line memory and the cursors -/

/-- The address of `DL[c][i]` in the model's memory, for `i < 65536`; the physical layout is not architectural
(20_memory.md R51; log entry 9). -/
def slotAddr (c i : Nat) : Nat := 65536 * c + i

/-- The addresses of `DL[c][i]` with `c < n` and `i < d`. -/
def lineRegion (n d addr : Nat) : Bool := addr / 65536 < n && addr % 65536 < d

/-- The addresses of `CUR[c]` with `c < n`. -/
def cursorRegion (n addr : Nat) : Bool := addr < n

/-- `DLRead(c, i)` (20_memory.md R52). -/
def Arch.dlRead (c : Channel) (i : Half) (a : Arch) : Half := a.dl.read (slotAddr c.toNat i.toNat)

/-- `DLWrite(c, i, v)` (20_memory.md R53). -/
def Arch.dlWrite (c : Channel) (i v : Half) (a : Arch) : Arch :=
  { a with dl := a.dl.write (slotAddr c.toNat i.toNat) v }

/-- `CUR[c]` (10_state.md R29). -/
def Arch.cursor (c : Channel) (a : Arch) : Half := a.cur.read c.toNat

/-- `CUR[c] <- v`. -/
def Arch.setCursor (c : Channel) (v : Half) (a : Arch) : Arch := { a with cur := a.cur.write c.toNat v }

/-- `Adv(c)` (40_delay_line.md R101). The sum `CUR[c] + 1` is exact (00_scope.md R14). -/
def Arch.adv (c : Channel) (a : Arch) : Arch :=
  if (a.cursor c).toNat + 1 = a.delay.toNat then a.setCursor c 0 else a.setCursor c (a.cursor c + 1)

/-- The source's `read()`: the sample at the cursor (40_delay_line.md R100). -/
def Arch.tap (c : Channel) (a : Arch) : Half := a.dlRead c (a.cursor c)

/-- The source's `write(v)`: the slot at the cursor, then the advance (40_delay_line.md R100). -/
def Arch.lineWrite (c : Channel) (v : Half) (a : Arch) : Arch := (a.dlWrite c (a.cursor c) v).adv c

/-! ### The sample operation -/

/-- `SampleOp(c, x16)` (41_comb_filter.md R121): the state after it and the output. FIR writes the input back (R126), IIR the
narrowed output (R127); the tap is read before the write (R122). -/
def Arch.sampleOp (c : Channel) (x : Half) (a : Arch) : Arch × Half :=
  let y := combValue a.gain (a.tap c) x
  let w := match a.kind with
    | .fir => sval16 x
    | .iir => y
  (a.lineWrite c (bits16 w), bits16 y)

/-! ### The block sequencer -/

/-- The register writes of a BLK that opens a block of `f` frames (42_block_driver.md R151). -/
def Arch.openBlock (f : Half) (a : Arch) : Arch :=
  { a with blkActive := true, blkCh := 0, blkFrame := 0, blkFrames := f }

/-- The register writes of an SMP after its sample operation (42_block_driver.md R152). The sums are exact (00_scope.md R14),
so a part with 16 channels closes its block although BLK_CH has 4 bits (log entry 8). -/
def Arch.nextInBlock (a : Arch) : Arch :=
  if a.blkFrame.toNat + 1 = a.blkFrames.toNat then
    if a.blkCh.toNat + 1 = a.nch.toNat then
      { a with blkActive := false, blkCh := 0, blkFrame := 0, blkFrames := 0 }
    else { a with blkCh := a.blkCh + 1, blkFrame := 0 }
  else { a with blkFrame := a.blkFrame + 1 }

/-! ### Construction and destruction -/

/-- The register writes and the zero-fill of a successful CONS (43_config_control.md R174, R177). -/
def Arch.construct (k : Kind) (n : Half) (a : Arch) : Arch :=
  { a with
    kind := k, nch := n.setWidth 5, delay := a.sdelay, gain := a.sgain,
    dl := a.dl.clear (lineRegion n.toNat a.sdelay.toNat), cur := a.cur.clear (cursorRegion n.toNat),
    configured := true }

/-- The register writes of DSTR (43_config_control.md R178); `DL` and `CUR` stay as they are (log entry 10). -/
def Arch.destroy (a : Arch) : Arch :=
  { a with
    configured := false, kind := .fir, nch := 0, delay := 0, gain := 0,
    blkActive := false, blkCh := 0, blkFrame := 0, blkFrames := 0 }

/-! ### The views of RDST -/

/-- `View(s)` (43_config_control.md R180 to R186); none for the selectors 14 and 15. -/
def Arch.view (p : Part) (sel : BitVec 4) (a : Arch) : Option Half :=
  match sel.toNat with
  | 0 => some (statusWord a)
  | 1 => some (a.nch.setWidth 16)
  | 2 => some a.delay
  | 3 => some (a.gain.extractLsb 15 0)
  | 4 => some (a.gain.extractLsb 31 16)
  | 5 => some a.sdelay
  | 6 => some (a.sgain.extractLsb 15 0)
  | 7 => some (a.sgain.extractLsb 31 16)
  | 8 => some (a.blkCh.setWidth 16)
  | 9 => some a.blkFrame
  | 10 => some a.blkFrames
  | 11 => some (p.maxCh.setWidth 16)
  | 12 => some p.maxDelay
  | 13 => some Config.ident
  | _ => none

/-! ### How a command ends -/

/-- The state after a command: the architectural state it leaves, and its response on the way to the host that asked
(30_encoding.md R83, R84; 20_memory.md R66). -/
def State.respond (rop : BitVec 4) (code : Code) (data : Half) (a : Arch) (s : State) : State :=
  { s with
    arch := a,
    outbox := s.outbox ++ [{ host := s.requester, word := responseWord rop code a.blkActive a.configured data }] }

/-- `return v` (00_scope.md R16): code OK, DATA `v`. -/
def State.done (rop : BitVec 4) (data : Half) (a : Arch) (s : State) : Host.Outcome State Fault Refusal :=
  .next (s.respond rop .ok data a)

/-- `fail CODE` (00_scope.md R16, 60_exceptions.md R201): the state is left unchanged, DATA is 0. -/
def State.fail (rop : BitVec 4) (code : Code) (s : State) : Host.Outcome State Fault Refusal :=
  .next (s.respond rop code 0 s.arch)

/-! ### Reset -/

/-- The reset transition (70_reset_and_hazards.md R230): S0, with the delay-line memory and the cursors holding what the reset
input says (R231), of which only the cells that the part has count (20_memory.md R51). The constants of the part and the
responses already returned stay. -/
def State.resetTo (dl cur : List (Nat × Half)) (s : State) : State :=
  { s with
    arch := Arch.afterReset
      (Memory.ofCells (lineRegion s.part.maxCh.toNat s.part.maxDelay.toNat) dl)
      (Memory.ofCells (cursorRegion s.part.maxCh.toNat) cur) }

end Sys2Proof.Machine
end

