-- ==== Sys2Proof/Machine/BlockDriver.lean ====
section
/-! DEFINITION. BLK and SMP (42_block_driver.md). -/

namespace Sys2Proof.Machine

/-- BLK (R151): opens a block; a block of no frames is a no-op (R155), after the channel-count check. -/
def execBlk (n : BitVec 7) (f : Half) (s : State) : Host.Outcome State Fault Refusal :=
  if s.arch.blkActive then s.fail 0x6 .blockActive
  else if !s.arch.configured then s.fail 0x6 .notConfigured
  else if n.toNat ≠ s.arch.nch.toNat then s.fail 0x6 .channelCountMismatch
  else if f.toNat = 0 then s.done 0x6 0 s.arch
  else s.done 0x6 0 (s.arch.openBlock f)

/-- SMP (R152): the next sample of the open block. -/
def execSmp (x : Half) (s : State) : Host.Outcome State Fault Refusal :=
  if !s.arch.blkActive then s.fail 0x7 .noBlock
  else s.done 0x7 (s.arch.sampleOp s.arch.blkCh x).2 (s.arch.sampleOp s.arch.blkCh x).1.nextInBlock

end Sys2Proof.Machine
end

