-- ==== Sys2Proof/Machine/CombFilter.lean ====
section
/-! DEFINITION. FILT (41_comb_filter.md R128). The sample operation itself is `Arch.sampleOp` of Machine/Ops.lean. -/

namespace Sys2Proof.Machine

/-- FILT (R128): one sample operation on a named channel. -/
def execFilt (c : Channel) (x : Half) (s : State) : Host.Outcome State Fault Refusal :=
  if s.arch.blkActive then s.fail 0x8 .blockActive
  else if !s.arch.configured then s.fail 0x8 .notConfigured
  else if s.arch.nch.toNat ≤ c.toNat then s.fail 0x8 .channelIndexRange
  else s.done 0x8 (s.arch.sampleOp c x).2 (s.arch.sampleOp c x).1

end Sys2Proof.Machine
end

