-- ==== Sys2Proof/Machine/ConfigControl.lean ====
section
/-! DEFINITION. NOP, SETGL, SETGH, SETDLY, CONS, DSTR, RDST (43_config_control.md). -/

namespace Sys2Proof.Machine

/-- NOP (R170): DATA 0, nothing else. -/
def execNop (s : State) : Host.Outcome State Fault Refusal :=
  s.done 0x0 0 s.arch

/-- SETGL (R171): `SGAIN[15:0] <- D`. -/
def execSetgl (d : Half) (s : State) : Host.Outcome State Fault Refusal :=
  s.done 0x1 0 { s.arch with sgain := s.arch.sgain.extractLsb 31 16 ++ d }

/-- SETGH (R172): `SGAIN[31:16] <- D`. -/
def execSetgh (d : Half) (s : State) : Host.Outcome State Fault Refusal :=
  s.done 0x2 0 { s.arch with sgain := d ++ s.arch.sgain.extractLsb 15 0 }

/-- SETDLY (R173): `SDELAY <- D`. -/
def execSetdly (d : Half) (s : State) : Host.Outcome State Fault Refusal :=
  s.done 0x3 0 { s.arch with sdelay := d }

/-- CONS (R174, R175). -/
def execCons (k : Kind) (n : Half) (s : State) : Host.Outcome State Fault Refusal :=
  if s.arch.blkActive then s.fail 0x4 .blockActive
  else if s.arch.sdelay.toNat < 1 ∨ s.part.maxDelay.toNat < s.arch.sdelay.toNat then s.fail 0x4 .invalidDelay
  else if n.toNat < 1 ∨ s.part.maxCh.toNat < n.toNat then s.fail 0x4 .invalidChannelCount
  else s.done 0x4 0 (s.arch.construct k n)

/-- DSTR (R178, R179). -/
def execDstr (s : State) : Host.Outcome State Fault Refusal :=
  s.done 0x5 0 s.arch.destroy

/-- RDST (R180). The decoder passes no selector above 13; a term with one answers what its word answers (log entry 12). -/
def execRdst (sel : BitVec 4) (s : State) : Host.Outcome State Fault Refusal :=
  match s.arch.view s.part sel with
  | some v => s.done 0xB v s.arch
  | none => s.fail 0xB .illegalCommand

end Sys2Proof.Machine
end

