-- ==== Sys2Proof/Machine/DelayLine.lean ====
section
/-! DEFINITION. DLRD, DLWR, RDCUR (40_delay_line.md). -/

namespace Sys2Proof.Machine

/-- DLRD (R102): the tap of a channel. -/
def execDlrd (c : Channel) (s : State) : Host.Outcome State Fault Refusal :=
  if !s.arch.configured then s.fail 0x9 .notConfigured
  else if s.arch.nch.toNat ≤ c.toNat then s.fail 0x9 .channelIndexRange
  else s.done 0x9 (s.arch.tap c) s.arch

/-- DLWR (R103): writes a sample at the cursor of a channel and advances it. -/
def execDlwr (c : Channel) (v : Half) (s : State) : Host.Outcome State Fault Refusal :=
  if s.arch.blkActive then s.fail 0xA .blockActive
  else if !s.arch.configured then s.fail 0xA .notConfigured
  else if s.arch.nch.toNat ≤ c.toNat then s.fail 0xA .channelIndexRange
  else s.done 0xA 0 (s.arch.lineWrite c v)

/-- RDCUR (R104): the cursor of a channel. -/
def execRdcur (c : Channel) (s : State) : Host.Outcome State Fault Refusal :=
  if !s.arch.configured then s.fail 0xC .notConfigured
  else if s.arch.nch.toNat ≤ c.toNat then s.fail 0xC .channelIndexRange
  else s.done 0xC (s.arch.cursor c) s.arch

end Sys2Proof.Machine
end

