-- ==== Sys2Proof/Machine/Dispatch.lean ====
section
/-! DEFINITION. One command's execution: one arm per constructor of Instr, each a direct call of its meaning. -/

namespace Sys2Proof.Machine

/-- The effect of a command on the machine, with its response (60_exceptions.md R202). -/
def exec (i : Instr) (s : State) : Host.Outcome State Fault Refusal :=
  match i with
  | .nop => Sys2Proof.Machine.execNop s
  | .setgl d => Sys2Proof.Machine.execSetgl d s
  | .setgh d => Sys2Proof.Machine.execSetgh d s
  | .setdly d => Sys2Proof.Machine.execSetdly d s
  | .cons k n => Sys2Proof.Machine.execCons k n s
  | .dstr => Sys2Proof.Machine.execDstr s
  | .blk n f => Sys2Proof.Machine.execBlk n f s
  | .smp x => Sys2Proof.Machine.execSmp x s
  | .filt c x => Sys2Proof.Machine.execFilt c x s
  | .dlrd c => Sys2Proof.Machine.execDlrd c s
  | .dlwr c v => Sys2Proof.Machine.execDlwr c v s
  | .rdst sel => Sys2Proof.Machine.execRdst sel s
  | .rdcur c => Sys2Proof.Machine.execRdcur c s

end Sys2Proof.Machine
end

