-- ==== Sys2Proof/Machine/Port.lean ====
section
/-! DEFINITION. What the core does with the next thing at its port (00_scope.md R2, R3; 20_memory.md R50, R61).
The core has no program counter and fetches nothing (10_state.md R35): every command is pushed by a host. -/

namespace Sys2Proof.Machine

/-- Executes one command word: the decoded command, or `fail ILLEGAL_COMMAND` with the word's OP echoed
(30_encoding.md R77, R83; 60_exceptions.md R202). -/
def State.runWord (w : Word) (s : State) : Host.Outcome State Fault Refusal :=
  match decode w with
  | .ok i => exec i s
  | .error _ => s.fail (fieldOP w) .illegalCommand

/-- Takes the next thing at the port. With nothing there the core waits and holds its state (70_reset_and_hazards.md R232, R238;
60_exceptions.md R216). -/
def State.serve (s : State) : Host.Outcome State Fault Refusal :=
  match s.inbox with
  | [] => .next s
  | .command host w :: rest => State.runWord w { s with inbox := rest, requester := host }
  | .torn _ _ :: _ => .fault .tornWord
  | .reset dl cur :: rest => .next (State.resetTo dl cur { s with inbox := rest })

/-- A transfer over byte lanes: a command word if it is whole, else a torn transfer (20_memory.md R56, R57). -/
def inputOfLanes (host : Nat) (lanes : List Byte) : HostInput :=
  match wordOfLanes lanes with
  | some w => .command host w
  | none => .torn host lanes

/-- Puts a command word of host 0 at the head of the port, where the next step takes it (log entry 11). -/
def State.pushWord (w : Word) (s : State) : State := { s with inbox := .command 0 w :: s.inbox }

end Sys2Proof.Machine
end

