-- ==== Sys2Proof/Machine/Step.lean ====
section
/-! DEFINITION. One step of the machine, and how a command word comes to be its next instruction. -/

namespace Sys2Proof.Machine

/-- One step: the core takes the next thing at its port (00_scope.md R2, R3). -/
def step (s : State) : Host.Outcome State Fault Refusal := s.serve

/-- `s` with the instruction whose `nbits` low bits are `w` next at the port, so that the next step runs it (log entry 11). -/
def State.withFetchWord (s : State) (nbits w : Nat) : State := s.pushWord (BitVec.ofNat 32 (w % 2 ^ nbits))

end Sys2Proof.Machine
end

