-- ==== Sys2Proof/Machine/Transaction.lean ====
section
/-! DEFINITION. The machine seen at transaction level (00_scope.md R2): the function `step(S, cmd) -> (S', resp)` that `step`
computes, runs of it (70_reset_and_hazards.md R241), and the operations that a run applies to one delay line
(40_delay_line.md R105, 41_comb_filter.md R129). -/

namespace Sys2Proof.Machine

/-- A machine whose port holds one command word and nothing else. -/
def oneCommand (p : Part) (a : Arch) (w : Word) : State :=
  { part := p, arch := a, inbox := [.command 0 w], requester := 0, outbox := [] }

/-- The state and the response that `step` gives for one command word. `step` answers a next state with one response for every
word, so the other cases never arise. -/
def cfcStep (p : Part) (a : Arch) (w : Word) : Arch × Word :=
  match step (oneCommand p a w) with
  | .next t => (t.arch, (t.outbox.map Response.word).headD 0)
  | .fault _ => (a, 0)
  | .refused _ => (a, 0)

/-- A run: the words in order, with the final state and the responses, oldest first (R241). -/
def cfcRun (p : Part) : Arch → List Word → Arch × List Word
  | a, [] => (a, [])
  | a, w :: ws =>
    let r := cfcStep p a w
    let q := cfcRun p r.1 ws
    (q.1, r.2 :: q.2)

/-- One operation on a delay line. -/
inductive LineOp where
  /-- DLWR of a sample (40_delay_line.md R103). -/
  | poke (v : Half)
  /-- A sample operation, by FILT or SMP: its input and its output (41_comb_filter.md R121). -/
  | sample (x y : Half)
  deriving DecidableEq, Repr

/-- The value an operation writes into the delay line of a filter of kind `k` (40_delay_line.md R103, 41_comb_filter.md R126,
R127). -/
def LineOp.written (k : Kind) : LineOp → Half
  | .poke v => v
  | .sample x y => match k with
    | .fir => x
    | .iir => y

/-- The operation that one command word applies to channel `c`, read off the word, its response and the sequencer: a command that
fails applies none (60_exceptions.md R201), and only DLWR, FILT and SMP apply one (40_delay_line.md R105). -/
def lineOp (p : Part) (c : Channel) (a : Arch) (w : Word) : Option LineOp :=
  let r := (cfcStep p a w).2
  if responseCODE r ≠ 0 then none
  else match decode w with
    | .ok (.dlwr c' v) => if c' = c then some (.poke v) else none
    | .ok (.filt c' x) => if c' = c then some (.sample x (responseDATA r)) else none
    | .ok (.smp x) => if a.blkCh = c then some (.sample x (responseDATA r)) else none
    | .ok .nop | .ok (.setgl _) | .ok (.setgh _) | .ok (.setdly _) | .ok (.cons _ _) | .ok .dstr | .ok (.blk _ _) => none
    | .ok (.dlrd _) | .ok (.rdst _) | .ok (.rdcur _) => none
    | .error _ => none

/-- The operations that a run applies to channel `c`, in order. -/
def lineOps (p : Part) (c : Channel) : Arch → List Word → List LineOp
  | _, [] => []
  | a, w :: ws => (lineOp p c a w).toList ++ lineOps p c (cfcStep p a w).1 ws

/-- The word ends the filter that exists: a successful CONS or a DSTR (43_config_control.md R176, R178). -/
def endsFilter (p : Part) (a : Arch) (w : Word) : Bool :=
  responseCODE (cfcStep p a w).2 == 0 &&
    match decode w with
    | .ok (.cons _ _) => true
    | .ok .dstr => true
    | .ok .nop | .ok (.setgl _) | .ok (.setgh _) | .ok (.setdly _) | .ok (.blk _ _) | .ok (.smp _) | .ok (.filt _ _) => false
    | .ok (.dlrd _) | .ok (.dlwr _ _) | .ok (.rdst _) | .ok (.rdcur _) => false
    | .error _ => false

/-- No word of the run ends the filter. -/
def keepsFilter (p : Part) : Arch → List Word → Bool
  | _, [] => true
  | a, w :: ws => !endsFilter p a w && keepsFilter p (cfcStep p a w).1 ws

/-- The inputs of a list of operations that are all sample operations; none when one of them is a DLWR. -/
def sampleInputs : List LineOp → Option (List Half)
  | [] => some []
  | .poke _ :: _ => none
  | .sample x _ :: ops => (sampleInputs ops).map (x :: ·)

/-- The outputs of the sample operations in a list of operations. -/
def sampleOutputs : List LineOp → List Half
  | [] => []
  | .poke _ :: ops => sampleOutputs ops
  | .sample _ y :: ops => y :: sampleOutputs ops

end Sys2Proof.Machine
end

