-- ==== Sys2Proof/Machine/HostSide.lean ====
section
/-! DEFINITION. The host contracts (43_config_control.md R190 to R193; 00_scope.md R5 (d), R12): what the host computes before
and around the commands. The core executes none of it. A frequency and a gain are exact rationals here (log entry 14). -/

namespace Sys2Proof.Machine

/-- Why the host does not get what it asked for. -/
inductive HostError where
  /-- The source's `InvalidDelay`, reported by the host (R190) or by CONS (R192). -/
  | invalidDelay
  /-- A gain that has no encoding (R191). -/
  | gainRange
  /-- `INVALID_CHANNEL_COUNT`, reported by CONS (R192), or by the host where CONS has no word (log entry 24). -/
  | invalidChannelCount
  /-- The source's `ChannelCountMismatch`, reported by BLK (R193), or by the host where BLK has no word (log entry 26). -/
  | channelCountMismatch
  /-- Any other response code. -/
  | rejected (code : BitVec 4)
  deriving DecidableEq, Repr

/-- The error that a response code stands for (R192; 60_exceptions.md R200). -/
def hostErrorOf (code : BitVec 4) : HostError :=
  if code = codeBits .invalidDelay then .invalidDelay
  else if code = codeBits .channelCountMismatch then .channelCountMismatch
  else if code = codeBits .invalidChannelCount then .invalidChannelCount
  else .rejected code

/-- `floor(v + 1/2)`, `P_DELAY_ROUND = HALF_UP` (00_scope.md R12). -/
def roundHalfUp (v : Rat) : Int := (v + 1 / 2).floor

/-- To nearest, halves away from zero (R191). -/
def roundHalfAway (v : Rat) : Int := if 0 ≤ v then (v + 1 / 2).floor else -(-v + 1 / 2).floor

/-- The delay for SETDLY (R190). -/
def deriveDelay (sampleRate : Int) (targetFrequency : Rat) : Except HostError Half :=
  if sampleRate ≤ 0 ∨ targetFrequency ≤ 0 then .error .invalidDelay
  else if roundHalfUp (sampleRate / targetFrequency) ≤ 0 then .error .invalidDelay
  else if 65535 < roundHalfUp (sampleRate / targetFrequency) then .error .invalidDelay
  else .ok (BitVec.ofInt 16 (roundHalfUp (sampleRate / targetFrequency)))

/-- The gain word of a real gain (R191). The host refuses a gain whose `G` lies outside 32 bits, and one with `|g| >= 32768`
(92_eei_decisions.md D30); where the two tests differ, either refuses (log entry 15). -/
def gainWordOf (g : Rat) : Except HostError Word :=
  if g ≤ -32768 ∨ 32768 ≤ g then .error .gainRange
  else if roundHalfAway (g * 65536) < -2147483648 ∨ 2147483647 < roundHalfAway (g * 65536) then .error .gainRange
  else .ok (BitVec.ofInt 32 (roundHalfAway (g * 65536)))

/-- The commands of pseudo-command SETGAIN (30_encoding.md R86 (a)). -/
def setGainCommands (g : Word) : List Instr := [.setgl (g.extractLsb 15 0), .setgh (g.extractLsb 31 16)]

/-- The commands of pseudo-command CONFIG (30_encoding.md R86 (b)). -/
def configCommands (k : Kind) (n delay : Half) (g : Word) : List Instr :=
  .setdly delay :: setGainCommands g ++ [.cons k n]

/-- The commands of the source's Construction (R192), in one of the orders it allows, or why nothing is sent. A channel count above
65535, for which CONS has no word, is refused with `INVALID_CHANNEL_COUNT` and nothing is sent: DESIGN CHOICE (log entry 24). -/
def constructionCommands (sampleRate : Int) (targetFrequency gain : Rat) (n : Nat) (k : Kind) :
    Except HostError (List Instr) :=
  match deriveDelay sampleRate targetFrequency with
  | .error e => .error e
  | .ok delay =>
    match gainWordOf gain with
    | .error e => .error e
    | .ok g => if 65535 < n then .error .invalidChannelCount else .ok (configCommands k (BitVec.ofNat 16 n) delay g)

/-- The source's Construction on a core (R192): the commands are sent, and the response to CONS, the last of them, is the
outcome. -/
def hostConstruct (p : Part) (a : Arch) (sampleRate : Int) (targetFrequency gain : Rat) (n : Nat) (k : Kind) :
    Arch × Except HostError Unit :=
  match constructionCommands sampleRate targetFrequency gain n k with
  | .error e => (a, .error e)
  | .ok commands =>
    let q := cfcRun p a (commands.map encode)
    let code := responseCODE (q.2.getLastD 0)
    (q.1, if code = 0 then .ok () else .error (hostErrorOf code))

/-- The commands of one block, pseudo-command PROCESS (30_encoding.md R86 (c)): BLK and one SMP for each sample, which stand in
channel-major order; with no frames BLK alone. -/
def blockCommands (n : BitVec 7) (f : Half) (samples : List Half) : List Instr :=
  .blk n f :: if f.toNat = 0 then [] else samples.map .smp

/-- The samples of `len` frames from frame `start` on, channel-major (42_block_driver.md R153). -/
def channelMajor (streams : List (List Half)) (start len : Nat) : List Half :=
  (streams.map fun x => (x.drop start).take len).flatten

/-- The commands that send the streams from frame `start` on in blocks of the given frame counts (42_block_driver.md R157). -/
def splitCommands (n : BitVec 7) (streams : List (List Half)) : Nat → List Nat → List Instr
  | _, [] => []
  | start, f :: fs =>
    blockCommands n (BitVec.ofNat 16 f) (channelMajor streams start f) ++ splitCommands n streams (start + f) fs

/-- The streams of the channels of a channel-major buffer of `frames` frames (42_block_driver.md R153). -/
def streamsOf (n frames : Nat) (buffer : List Half) : List (List Half) :=
  (List.range n).map fun c => (buffer.drop (c * frames)).take frames

/-- The frame counts that a Process of `t` frames is sent in: one block, or several when `t > 65535` (R193). R193 does not say which
several: blocks of 65535 frames and then the rest, DESIGN CHOICE (log entry 25). -/
def blockSizes (t : Nat) : List Nat :=
  if t ≤ 65535 then [t]
  else List.replicate (t / 65535) 65535 ++ if t % 65535 = 0 then [] else [t % 65535]

/-- One block of the source's Process (R193): BLK, and if it answers OK the samples; the outputs are the DATA of the SMP
responses in the same order. -/
def processBlock (p : Part) (a : Arch) (n : BitVec 7) (f : Half) (samples : List Half) :
    Arch × Except HostError (List Half) :=
  let r := cfcStep p a (encode (.blk n f))
  if responseCODE r.2 ≠ 0 then (r.1, .error (hostErrorOf (responseCODE r.2)))
  else
    let q := cfcRun p r.1 (if f.toNat = 0 then [] else samples.map fun x => encode (.smp x))
    (q.1, .ok (q.2.map responseDATA))

/-- The blocks of a Process one after another, from frame `start` of the streams on; each is sent only if the one before it was
accepted. The result is the output stream of each channel. -/
def processBlocks (p : Part) (n : BitVec 7) (streams : List (List Half)) :
    Arch → Nat → List Nat → Arch × Except HostError (List (List Half))
  | a, _, [] => (a, .ok (List.replicate n.toNat []))
  | a, start, f :: fs =>
    let r := processBlock p a n (BitVec.ofNat 16 f) (channelMajor streams start f)
    match r.2 with
    | .error e => (r.1, .error e)
    | .ok ys =>
      let q := processBlocks p n streams r.1 (start + f) fs
      (q.1, q.2.map fun rest => List.zipWith (· ++ ·) (streamsOf n.toNat f ys) rest)

/-- The source's Process (R193) on a channel-major buffer of `n * frames` samples: the output block, also channel-major, or the error
of the BLK that failed. A channel count above 127, for which BLK has no word and which no filter has, is refused with
`ChannelCountMismatch` and nothing is sent: DESIGN CHOICE (log entry 26). -/
def hostProcess (p : Part) (a : Arch) (n frames : Nat) (buffer : List Half) : Arch × Except HostError (List Half) :=
  if 127 < n then (a, .error .channelCountMismatch)
  else
    let q := processBlocks p (BitVec.ofNat 7 n) (streamsOf n frames buffer) a 0 (blockSizes frames)
    (q.1, q.2.map List.flatten)

end Sys2Proof.Machine
end

