-- ==== Sys2Proof/Machine/Assembler.lean ====
section
/-! DEFINITION. The assembler syntax and the pseudo-commands (30_encoding.md R85, R86), from the characters of a line to the
commands it stands for; `encode` gives their words. An operand that does not fit its field is an error, never a truncation.
Lexical details that R85 leaves open are in log entries 16 and 17. -/

namespace Sys2Proof.Machine

/-! ### Characters -/

/-- White space inside a line. -/
def isBlank (c : Char) : Bool := c = ' ' || c = '\t' || c = '\r'

/-- A text without the blanks at its ends. -/
def trimBlanks (l : List Char) : List Char := ((l.dropWhile isBlank).reverse.dropWhile isBlank).reverse

/-- The pieces of a text between its commas. -/
def splitCommas : List Char → List (List Char)
  | [] => [[]]
  | c :: cs =>
    if c = ',' then [] :: splitCommas cs
    else match splitCommas cs with
      | [] => [[c]]
      | piece :: pieces => (c :: piece) :: pieces

/-- The value of a decimal digit. -/
def decDigit (c : Char) : Option Nat :=
  if 48 ≤ c.toNat ∧ c.toNat ≤ 57 then some (c.toNat - 48) else none

/-- The value of a hexadecimal digit, in either case. -/
def hexDigit (c : Char) : Option Nat :=
  if 48 ≤ c.toNat ∧ c.toNat ≤ 57 then some (c.toNat - 48)
  else if 97 ≤ c.toNat ∧ c.toNat ≤ 102 then some (c.toNat - 87)
  else if 65 ≤ c.toNat ∧ c.toNat ≤ 70 then some (c.toNat - 55)
  else none

/-- Reads digits onto an accumulator. -/
def readDigits (base : Nat) (digit : Char → Option Nat) : Nat → List Char → Option Nat
  | acc, [] => some acc
  | acc, c :: cs =>
    match digit c with
    | some d => readDigits base digit (acc * base + d) cs
    | none => none

/-- A decimal number without a sign; leading zeros are taken (log entry 16). -/
def readDec (l : List Char) : Option Nat := if l = [] then none else readDigits 10 decDigit 0 l

/-- `0x` and hexadecimal digits. R85 writes the form as `0x....` and does not say whether exactly four digits are required: any
positive number of them is taken here, as long as the value fits its field. DESIGN CHOICE (log entry 16). -/
def readHex : List Char → Option Nat
  | '0' :: 'x' :: ds => if ds = [] then none else readDigits 16 hexDigit 0 ds
  | _ => none

/-- A decimal number without a sign, or a hexadecimal one. -/
def readUnsigned (l : List Char) : Option Nat :=
  match readHex l with
  | some v => some v
  | none => readDec l

/-! ### Operands (R85) -/

/-- A number that fits a field of `bits` bits. -/
def countOperand (bits : Nat) (l : List Char) : Option (BitVec bits) :=
  match readUnsigned l with
  | some v => if v < 2 ^ bits then some (BitVec.ofNat bits v) else none
  | none => none

/-- A sample: decimal `-32768 .. 32767`, or a hexadecimal number that is the field itself. -/
def sampleOperand (l : List Char) : Option Half :=
  match readHex l with
  | some v => if v < 65536 then some (BitVec.ofNat 16 v) else none
  | none =>
    match l with
    | '-' :: ds =>
      match readDec ds with
      | some v => if v ≤ 32768 then some (bits16 (-(v : Int))) else none
      | none => none
    | _ =>
      match readDec l with
      | some v => if v ≤ 32767 then some (bits16 v) else none
      | none => none

/-- A channel, `ch<n>` with `n` decimal `0 .. 15`. -/
def channelOperand : List Char → Option Channel
  | 'c' :: 'h' :: ds =>
    match readDec ds with
    | some v => if v < 16 then some (BitVec.ofNat 4 v) else none
    | none => none
  | _ => none

/-- A kind, `fir` or `iir`. -/
def kindOperand (l : List Char) : Option Kind :=
  if l = "fir".toList then some .fir else if l = "iir".toList then some .iir else none

/-- A selector of RDST: 0 to 13, so that no line assembles to an illegal word (log entry 17). -/
def selectorOperand (l : List Char) : Option (BitVec 4) :=
  match readUnsigned l with
  | some v => if v ≤ 13 then some (BitVec.ofNat 4 v) else none
  | none => none

/-- A number with a decimal point, without a sign. -/
def readReal (l : List Char) : Option Rat :=
  let fraction := (l.dropWhile (· ≠ '.')).drop 1
  match readDec (l.takeWhile (· ≠ '.')), readDec fraction with
  | some whole, some f => some (whole + f / 10 ^ fraction.length)
  | _, _ => none

/-- A gain: a 32-bit word, or a real written with a decimal point, which is converted by 43_config_control.md R191
(R86 (a)). -/
def gainOperand (l : List Char) : Option Word :=
  if '.' ∈ l then
    let value := match l with
      | '-' :: ds => (readReal ds).map fun v => -v
      | _ => readReal l
    match value with
    | some v => (gainWordOf v).toOption
    | none => none
  else countOperand 32 l

/-! ### Lines -/

/-- All the operands of a list read, or none. -/
def allOperands {α : Type} (read : List Char → Option α) : List (List Char) → Option (List α)
  | [] => some []
  | l :: ls =>
    match read l, allOperands read ls with
    | some v, some vs => some (v :: vs)
    | _, _ => none

/-- A command or pseudo-command with its operands: the commands it stands for (R85, R86). -/
def assembleCommand (mnemonic : List Char) (operands : List (List Char)) : Option (List Instr) :=
  if mnemonic = "NOP".toList then
    match operands with
    | [] => some [.nop]
    | _ => none
  else if mnemonic = "SETGL".toList then
    match operands with
    | [d] => (countOperand 16 d).map fun d => [.setgl d]
    | _ => none
  else if mnemonic = "SETGH".toList then
    match operands with
    | [d] => (countOperand 16 d).map fun d => [.setgh d]
    | _ => none
  else if mnemonic = "SETDLY".toList then
    match operands with
    | [n] => (countOperand 16 n).map fun n => [.setdly n]
    | _ => none
  else if mnemonic = "CONS".toList then
    match operands with
    | [k, n] => (kindOperand k).bind fun k => (countOperand 16 n).map fun n => [.cons k n]
    | _ => none
  else if mnemonic = "DSTR".toList then
    match operands with
    | [] => some [.dstr]
    | _ => none
  else if mnemonic = "BLK".toList then
    match operands with
    | [n, f] => (countOperand 7 n).bind fun n => (countOperand 16 f).map fun f => [.blk n f]
    | _ => none
  else if mnemonic = "SMP".toList then
    match operands with
    | [x] => (sampleOperand x).map fun x => [.smp x]
    | _ => none
  else if mnemonic = "FILT".toList then
    match operands with
    | [c, x] => (channelOperand c).bind fun c => (sampleOperand x).map fun x => [.filt c x]
    | _ => none
  else if mnemonic = "DLRD".toList then
    match operands with
    | [c] => (channelOperand c).map fun c => [.dlrd c]
    | _ => none
  else if mnemonic = "DLWR".toList then
    match operands with
    | [c, v] => (channelOperand c).bind fun c => (sampleOperand v).map fun v => [.dlwr c v]
    | _ => none
  else if mnemonic = "RDST".toList then
    match operands with
    | [sel] => (selectorOperand sel).map fun sel => [.rdst sel]
    | _ => none
  else if mnemonic = "RDCUR".toList then
    match operands with
    | [c] => (channelOperand c).map fun c => [.rdcur c]
    | _ => none
  else if mnemonic = "SETGAIN".toList then
    match operands with
    | [g] => (gainOperand g).map setGainCommands
    | _ => none
  else if mnemonic = "CONFIG".toList then
    match operands with
    | [k, n, delay, g] =>
      (kindOperand k).bind fun k => (countOperand 16 n).bind fun n => (countOperand 16 delay).bind fun delay =>
        (gainOperand g).map fun g => configCommands k n delay g
    | _ => none
  else if mnemonic = "PROCESS".toList then
    match operands with
    | n :: f :: samples =>
      (countOperand 7 n).bind fun n => (countOperand 16 f).bind fun f => (allOperands sampleOperand samples).bind fun xs =>
        if xs.length = n.toNat * f.toNat then some (blockCommands n f xs) else none
    | _ => none
  else none

/-- One line: a mnemonic, operands separated by commas, and an optional comment after `;` (R85). A line with nothing before
its comment stands for no command. -/
def assembleLine (line : List Char) : Option (List Instr) :=
  let text := trimBlanks (line.takeWhile (· ≠ ';'))
  if text = [] then some []
  else
    let rest := trimBlanks (text.dropWhile fun c => !isBlank c)
    assembleCommand (text.takeWhile fun c => !isBlank c)
      (if rest = [] then [] else (splitCommas rest).map trimBlanks)

/-- A program, line by line. -/
def assemble : List (List Char) → Option (List Instr)
  | [] => some []
  | line :: lines =>
    match assembleLine line, assemble lines with
    | some is, some rest => some (is ++ rest)
    | _, _ => none

/-! ### A line for each command -/

/-- A hexadecimal digit. -/
def hexChar (v : Nat) : Char := if v < 10 then Char.ofNat (48 + v) else Char.ofNat (87 + v)

/-- A 16-bit field in hexadecimal, as R85 writes one. -/
def hexField (v : Half) : List Char :=
  ['0', 'x', hexChar (v.toNat / 4096), hexChar (v.toNat / 256 % 16), hexChar (v.toNat / 16 % 16), hexChar (v.toNat % 16)]

/-- A 32-bit gain word in hexadecimal (R86 (a)). -/
def hexWord (g : Word) : List Char :=
  ['0', 'x'] ++ (hexField (g.extractLsb 31 16)).drop 2 ++ (hexField (g.extractLsb 15 0)).drop 2

/-- The characters of a list of decimal digits. -/
def digitsText (ds : List (Fin 10)) : List Char := ds.map fun d => hexChar d.val

/-- The number that decimal digits stand for. -/
def digitsValue (ds : List (Fin 10)) : Nat := ds.foldl (fun v d => v * 10 + d.val) 0

/-- A real written with a decimal point (R86 (a)). -/
def realText (negative : Bool) (whole fraction : List (Fin 10)) : List Char :=
  (if negative then ['-'] else []) ++ digitsText whole ++ '.' :: digitsText fraction

/-- The real that it stands for. -/
def realValue (negative : Bool) (whole fraction : List (Fin 10)) : Rat :=
  let v : Rat := digitsValue whole + digitsValue fraction / 10 ^ fraction.length
  if negative then -v else v

/-- `ch<n>`. -/
def channelText (c : Channel) : List Char :=
  if c.toNat < 10 then ['c', 'h', hexChar c.toNat] else ['c', 'h', '1', hexChar (c.toNat - 10)]

/-- `fir` or `iir`. -/
def kindText : Kind → List Char
  | .fir => "fir".toList
  | .iir => "iir".toList

/-- A line assembles to one command if its operand fits its field, and is an error otherwise (R85). -/
def assemblesIf (fits : Bool) (line : List Char) (i : Instr) : Prop :=
  assembleLine line = if fits then some [i] else none

/-- A line that R85 gives for a command, its numbers in hexadecimal. -/
def lineOf : Instr → List Char
  | .nop => "NOP".toList
  | .setgl d => "SETGL ".toList ++ hexField d
  | .setgh d => "SETGH ".toList ++ hexField d
  | .setdly d => "SETDLY ".toList ++ hexField d
  | .cons k n => "CONS ".toList ++ kindText k ++ ", ".toList ++ hexField n
  | .dstr => "DSTR".toList
  | .blk n f => "BLK ".toList ++ hexField (n.setWidth 16) ++ ", ".toList ++ hexField f
  | .smp x => "SMP ".toList ++ hexField x
  | .filt c x => "FILT ".toList ++ channelText c ++ ", ".toList ++ hexField x
  | .dlrd c => "DLRD ".toList ++ channelText c
  | .dlwr c v => "DLWR ".toList ++ channelText c ++ ", ".toList ++ hexField v
  | .rdst sel => "RDST ".toList ++ hexField (sel.setWidth 16)
  | .rdcur c => "RDCUR ".toList ++ channelText c

end Sys2Proof.Machine
end

