-- ==== Sys2Proof/Machine/Instances.lean ====
section
/-! DEFINITION. Several instances of the core (60_exceptions.md R213): each has a state of its own, and a step is a step of one
of them. -/

namespace Sys2Proof.Machine

/-- One step of instance `k` of a list of instances. They share nothing, so the others stay as they are (R213). -/
def stepInstance (k : Nat) (cores : List State) : Host.Outcome (List State) Fault Refusal :=
  match cores[k]? with
  | none => .next cores
  | some s =>
    match step s with
    | .next t => .next (cores.set k t)
    | .fault r => .fault r
    | .refused r => .refused r

end Sys2Proof.Machine
end

