-- ==== Sys2Proof/Machine/Priority.lean ====
section
/-! DEFINITION. The step function as 60_exceptions.md R202 writes it: one list of checks for the whole command set, in the order
of their priority, and then the body of the command. The meanings that `exec` calls make their own checks, as their own rules
give them; R202 says that both agree. `step` does not use this file. -/

namespace Sys2Proof.Machine

/-- Field CH of the commands that have one (30_encoding.md R72). -/
def channelOf : Instr → Option Channel
  | .filt c _ => some c
  | .dlrd c => some c
  | .dlwr c _ => some c
  | .rdcur c => some c
  | .nop | .setgl _ | .setgh _ | .setdly _ | .cons _ _ | .dstr | .blk _ _ | .smp _ | .rdst _ => none

/-- Field D of CONS (30_encoding.md R75 (b)). -/
def channelCountOf : Instr → Option Half
  | .cons _ n => some n
  | .nop | .setgl _ | .setgh _ | .setdly _ | .dstr | .blk _ _ | .smp _ | .filt _ _ | .dlrd _ | .dlwr _ _ => none
  | .rdst _ | .rdcur _ => none

/-- Field A of BLK (30_encoding.md R74). -/
def declaredCountOf : Instr → Option (BitVec 7)
  | .blk n _ => some n
  | .nop | .setgl _ | .setgh _ | .setdly _ | .cons _ _ | .dstr | .smp _ | .filt _ _ | .dlrd _ | .dlwr _ _ => none
  | .rdst _ | .rdcur _ => none

/-- The first check that fails, in the order 2 to 8 of R202 (check 1 is the decoder's, for which a term that is no command
stands here). -/
def firstFailure (p : Part) (a : Arch) (i : Instr) : Option Code :=
  if !i.wf then some .illegalCommand
  else if a.blkActive ∧ mnemonicOf i ∈ ["CONS", "BLK", "FILT", "DLWR"] then some .blockActive
  else if mnemonicOf i = "SMP" ∧ !a.blkActive then some .noBlock
  else if mnemonicOf i ∈ ["BLK", "FILT", "DLRD", "DLWR", "RDCUR"] ∧ !a.configured then some .notConfigured
  else if mnemonicOf i = "CONS" ∧ ¬(1 ≤ a.sdelay.toNat ∧ a.sdelay.toNat ≤ p.maxDelay.toNat) then some .invalidDelay
  else if (channelCountOf i).any (fun d => !(1 ≤ d.toNat && d.toNat ≤ p.maxCh.toNat)) then some .invalidChannelCount
  else if (declaredCountOf i).any (fun n => n.toNat != a.nch.toNat) then some .channelCountMismatch
  else if (channelOf i).any (fun c => a.nch.toNat ≤ c.toNat) then some .channelIndexRange
  else none

/-- The body of a command after its checks: the state it leaves and its DATA. -/
def perform (p : Part) (a : Arch) (i : Instr) : Arch × Half :=
  match i with
  | .nop => (a, 0)
  | .setgl d => ({ a with sgain := a.sgain.extractLsb 31 16 ++ d }, 0)
  | .setgh d => ({ a with sgain := d ++ a.sgain.extractLsb 15 0 }, 0)
  | .setdly d => ({ a with sdelay := d }, 0)
  | .cons k n => (a.construct k n, 0)
  | .dstr => (a.destroy, 0)
  | .blk _ f => (if f.toNat = 0 then a else a.openBlock f, 0)
  | .smp x => ((a.sampleOp a.blkCh x).1.nextInBlock, (a.sampleOp a.blkCh x).2)
  | .filt c x => a.sampleOp c x
  | .dlrd c => (a, a.tap c)
  | .dlwr c v => (a.lineWrite c v, 0)
  | .rdst sel => (a, (a.view p sel).getD 0)
  | .rdcur c => (a, a.cursor c)

/-- `step(S, cmd) -> (S', resp)` as R202 writes it, with the response of 30_encoding.md R84. -/
def transact (p : Part) (a : Arch) (w : Word) : Arch × Word :=
  match decode w with
  | .error _ => (a, responseWord (fieldOP w) .illegalCommand a.blkActive a.configured 0)
  | .ok i =>
    match firstFailure p a i with
    | some code => (a, responseWord (fieldOP w) code a.blkActive a.configured 0)
    | none =>
      let r := perform p a i
      (r.1, responseWord (fieldOP w) .ok r.1.blkActive r.1.configured r.2)

end Sys2Proof.Machine
end

