-- ==== Sys2Proof/Safety.lean ====
section
/-! DEFINITION. What holds of every state that a run reaches (10_state.md R34), which parts of a state a host can see
(10_state.md R39), and the terms that claims use for them. -/

namespace Sys2Proof.Machine

/-- R34 (a): the shape of a filter that exists. -/
abbrev Arch.shapeOk (p : Part) (a : Arch) : Prop :=
  a.configured = true →
    1 ≤ a.delay.toNat ∧ a.delay.toNat ≤ p.maxDelay.toNat ∧ 1 ≤ a.nch.toNat ∧ a.nch.toNat ≤ p.maxCh.toNat ∧
      ∀ c, c < a.nch.toNat → (a.cur.read c).toNat < a.delay.toNat

/-- R34 (b): the registers while no filter exists. -/
abbrev Arch.unconfiguredOk (a : Arch) : Prop :=
  a.configured = false → a.blkActive = false ∧ a.kind = .fir ∧ a.nch = 0 ∧ a.delay = 0 ∧ a.gain = 0

/-- R34 (c): the sequencer while a block is open. -/
abbrev Arch.openBlockOk (a : Arch) : Prop :=
  a.blkActive = true →
    a.configured = true ∧ a.blkCh.toNat < a.nch.toNat ∧ 1 ≤ a.blkFrames.toNat ∧ a.blkFrame.toNat < a.blkFrames.toNat

/-- R34 (d): the sequencer while no block is open. -/
abbrev Arch.closedBlockOk (a : Arch) : Prop :=
  a.blkActive = false → a.blkCh = 0 ∧ a.blkFrame = 0 ∧ a.blkFrames = 0

/-- R34, clauses (a) to (d). -/
abbrev Arch.regsOk (p : Part) (a : Arch) : Prop :=
  a.shapeOk p ∧ a.unconfiguredOk ∧ a.openBlockOk ∧ a.closedBlockOk

/-- The delay-line memory and the cursors are in canonical form and hold only cells that the part has (20_memory.md R51). -/
abbrev Arch.memoryOk (p : Part) (a : Arch) : Prop :=
  a.dl.wf = true ∧ a.cur.wf = true ∧ a.dl.within (lineRegion p.maxCh.toNat p.maxDelay.toNat) = true ∧
    a.cur.within (cursorRegion p.maxCh.toNat) = true

/-- What every step keeps of the architectural state. -/
abbrev Arch.inv (p : Part) (a : Arch) : Prop := a.regsOk p ∧ a.memoryOk p

/-- What every step keeps: a part within the ranges of 00_scope.md R8 and R9, and the invariant of its architectural state. -/
abbrev State.inv (s : State) : Prop := s.part.ok = true ∧ s.arch.inv s.part

/-- Two states that agree on everything except slots and cursors that R39 makes unobservable: all registers are equal, and while
a filter exists so are the cursors and the slots of its delay lines. -/
def Arch.sameVisible (a b : Arch) : Prop :=
  { a with dl := b.dl, cur := b.cur } = b ∧
    (a.configured = true → ∀ c : Channel, c.toNat < a.nch.toNat →
      a.cursor c = b.cursor c ∧ ∀ i : Half, i.toNat < a.delay.toNat → a.dlRead c i = b.dlRead c i)

/-- The slots of one channel's delay line and its cursor are the same in two states. -/
def Arch.sameLine (c : Channel) (a b : Arch) : Prop :=
  a.cursor c = b.cursor c ∧ ∀ i : Half, a.dlRead c i = b.dlRead c i

/-! ### Terms of the claims -/

/-- A successful or failed command, as the claims write its next state out: the architectural state `a`, and one response more,
to the host that asked; nothing else changes. -/
def State.answered (s : State) (i : Instr) (code : Code) (data : Half) (a : Arch) : State :=
  { s with
    arch := a,
    outbox := s.outbox ++ [{ host := s.requester, word := responseWord i.op code a.blkActive a.configured data }] }

/-- The command fails with a code: the response carries it with DATA 0, and nothing else changes (60_exceptions.md R201). -/
def failsWith (i : Instr) (s : State) (code : Code) : Prop := exec i s = .next (s.answered i code 0 s.arch)

/-- Wherever the word is next at the port, the step answers ILLEGAL_COMMAND with the word's OP echoed, and changes nothing else
but the port (60_exceptions.md R200, R201). -/
def answersIllegal (w : Word) : Prop :=
  ∀ (s : State) (host : Nat) (rest : List HostInput), s.inbox = .command host w :: rest →
    step s = .next { s with
      inbox := rest, requester := host,
      outbox := s.outbox ++
        [{ host := host, word := responseWord (fieldOP w) .illegalCommand s.arch.blkActive s.arch.configured 0 }] }

/-- The words of one command: those that agree with the row decode to it, the others with its OP are illegal
(30_encoding.md R77, R78, R80). -/
def rowDecodes (op : BitVec 4) (pattern mask : Word) (command : Word → Instr) : Prop :=
  ∀ w : Word, (w &&& mask = pattern → decode w = .ok (command w)) ∧
    (fieldOP w = op → w &&& mask ≠ pattern → answersIllegal w)

/-- The output of the sample operation as an exact integer (41_comb_filter.md R121): the sum, divided by 2^16 toward zero,
clamped to the range of a sample. -/
def outputOf (gain : Word) (tap x : Half) : Int :=
  max (-32768) (min 32767 (Int.tdiv (x.toInt * 65536 + gain.toInt * tap.toInt) 65536))

/-- What one sample operation on channel `c` with input `x` and output `y` does to the architectural state
(41_comb_filter.md R121): the output, the slot at the cursor, the cursor; every other slot, every other cursor and every register
outside the block sequencer are as before. -/
def sampleEffect (c : Channel) (x y : Half) (a b : Arch) : Prop :=
  y.toInt = outputOf a.gain (a.tap c) x ∧
    b.dl.read (slotAddr c.toNat (a.cursor c).toNat) = (if a.kind = .fir then x else y) ∧
    (∀ addr, addr ≠ slotAddr c.toNat (a.cursor c).toNat → b.dl.read addr = a.dl.read addr) ∧
    (b.cursor c).toNat = ((a.cursor c).toNat + 1) % a.delay.toNat ∧
    (∀ k, k ≠ c.toNat → b.cur.read k = a.cur.read k) ∧
    { b with
      dl := a.dl, cur := a.cur, blkActive := a.blkActive, blkCh := a.blkCh, blkFrame := a.blkFrame,
      blkFrames := a.blkFrames } = a

/-- The loop of CONS over the slots of `n` channels (43_config_control.md R174): a write of 0 at every slot below `d`. -/
def zeroSlots (n d : Nat) (m : Memory) : Memory :=
  (List.range n).foldl (fun m c => (List.range d).foldl (fun m i => m.write (slotAddr c i) 0) m) m

/-- The loop of CONS over the cursors of `n` channels (43_config_control.md R174). -/
def zeroCursors (n : Nat) (m : Memory) : Memory := (List.range n).foldl (fun m c => m.write c 0) m

end Sys2Proof.Machine
end

