-- ==== Sys2Proof/Certificates/Slice0/Obligations.lean ====
section
/-! DEFINITION. The statements about the machine, for the provers. Each docstring names the rule of spec/ it formalises. A statement
about every state assumes `inv` (10_state.md R34) only where states that no run reaches would break it. -/

open Sys2Proof Sys2Proof.Machine

/-! ### Encoding -/

/-- Every command, with every value of every operand, decodes from its own word (30_encoding.md section 2, R77 and R78). -/
def Obligations.DecodeOfEncodeIsTheCommand : Prop :=
  ∀ i : Instr, i.wf = true → decode (encode i) = .ok i ∧ decodeBytes (lanesOfWord (encode i)) = .ok i

/-- A word that decodes is the word of the command it decodes to, so no two words are one command, and the decoder gives only
well-formed commands (30_encoding.md section 2). -/
def Obligations.DecodedWordIsTheEncoding : Prop :=
  ∀ (w : Word) (i : Instr), decode w = .ok i → i.wf = true ∧ encode i = w

/-- R77, clause by clause: the match and mask of the row, the selector of RDST, at most one row because every row fixes OP, and
a word that matches no row fails with ILLEGAL_COMMAND. -/
def Obligations.DecodingFollowsMatchAndMask : Prop :=
  ∀ w : Word,
    (∀ r ∈ opcodeMap,
      (w &&& r.mask = r.pattern ∧ (r.mnemonic = "RDST" → (w.extractLsb 3 0).toNat ≤ 13)) ↔
        ∃ i, decode w = .ok i ∧ mnemonicOf i = r.mnemonic) ∧
    (∀ r ∈ opcodeMap, ∀ r' ∈ opcodeMap, w &&& r.mask = r.pattern → w &&& r'.mask = r'.pattern → r = r') ∧
    (∀ r ∈ opcodeMap, fieldOP r.mask = 0xF) ∧
    ((∃ i, decode w = .ok i) ∨ answersIllegal w)

/-- R79. -/
def Obligations.ReservedOpcodesAreIllegal : Prop :=
  ∀ w : Word, fieldOP w = 0xD ∨ fieldOP w = 0xE ∨ fieldOP w = 0xF → answersIllegal w

/-- R80: a 1 in a bit that the row of the word's OP covers and has as 0, and the selectors 14 and 15 of RDST. -/
def Obligations.ReservedBitsAreIllegal : Prop :=
  (∀ (w : Word) (r : OpcodeRow) (j : Nat), r ∈ opcodeMap → fieldOP w = fieldOP r.pattern →
      r.mask.getLsbD j = true → r.pattern.getLsbD j = false → w.getLsbD j = true → answersIllegal w) ∧
    answersIllegal 0xB000000E ∧ answersIllegal 0xB000000F

/-- Words written out from 30_encoding.md R70 and R78 decode to the commands they stand for (also 95_test_vectors.md V1.2). -/
def Obligations.WordsOfTheSpecDecode : Prop :=
  decode 0x00000000 = .ok .nop ∧ decode 0x2000FFFF = .ok (.setgh 0xFFFF) ∧ decode 0x40800005 = .ok (.cons .iir 5) ∧
    decode 0x6005FFFF = .ok (.blk 5 65535) ∧ decode 0x8300FFFB = .ok (.filt 3 0xFFFB) ∧
    decode 0xA1001234 = .ok (.dlwr 1 0x1234) ∧ decode 0xB000000D = .ok (.rdst 13) ∧ decode 0xCF000000 = .ok (.rdcur 15) ∧
    decode 0xB000000E = .error .reservedSelector ∧ decode 0xD0000000 = .error .reservedOpcode ∧
    decode 0x60810001 = .error .reservedBit

/-! ### The port, the step and reset -/

/-- When the word at the head of the port decodes to a command, the step is `exec` of that command, with the word taken from the
port and its host noted (00_scope.md R2, R3). A word that a bridge carries over four byte lanes, byte 0 being bits 7:0, is that
word at the port (20_memory.md R56; the order of the lanes is PRESUMED, log entry 18). -/
def Obligations.StepRunsTheDecodedCommand : Prop :=
  (∀ (s : State) (host : Nat) (w : Word) (rest : List HostInput) (i : Instr),
    s.inbox = .command host w :: rest → decode w = .ok i → step s = exec i { s with inbox := rest, requester := host }) ∧
    ∀ (host : Nat) (w : Word),
      inputOfLanes host [w.extractLsb 7 0, w.extractLsb 15 8, w.extractLsb 23 16, w.extractLsb 31 24] = .command host w

/-- With nothing at the port the core waits (70_reset_and_hazards.md R232, R238; log entry 4); a transfer over byte lanes that is not
four of them is torn, and a torn transfer stops the model, for which "the core defines no behaviour" (20_memory.md R57; log
entry 5). -/
def Obligations.PortWithoutACommand : Prop :=
  (∀ s : State, s.inbox = [] → step s = .next s) ∧
    (∀ (s : State) (host : Nat) (lanes : List Byte) (rest : List HostInput),
      s.inbox = .torn host lanes :: rest → step s = .fault .tornWord) ∧
    ∀ (host : Nat) (lanes : List Byte), lanes.length ≠ 4 → inputOfLanes host lanes = .torn host lanes

/-- R230: a reset may be next at the port whatever the state is, and gives S0, with the constants unaffected. -/
def Obligations.ResetGivesTheResetState : Prop :=
  ∀ (s : State) (dl cur : List (Nat × Half)) (rest : List HostInput), s.inbox = .reset dl cur :: rest →
    ∃ t, step s = .next t ∧ t.inbox = rest ∧ t.outbox = s.outbox ∧
      t.arch.configured = false ∧ t.arch.kind = .fir ∧ t.arch.nch = 0 ∧ t.arch.delay = 0 ∧ t.arch.gain = 0 ∧
      t.arch.sgain = 0 ∧ t.arch.sdelay = 0 ∧ t.arch.blkActive = false ∧ t.arch.blkCh = 0 ∧ t.arch.blkFrame = 0 ∧
      t.arch.blkFrames = 0 ∧ t.part = s.part ∧
      (∀ sel : BitVec 4, 11 ≤ sel.toNat → t.arch.view t.part sel = s.arch.view s.part sel) ∧ t.arch.regsOk t.part

/-- Every content of the delay-line memory and of the cursors can follow a reset, so that nothing is assumed of what R231 leaves
unspecified (70_reset_and_hazards.md section 1; log entry 3). -/
def Obligations.AnyMemoryCanFollowReset : Prop :=
  ∀ (s : State) (dl cur : Memory) (rest : List HostInput), s.inbox = .reset dl cur :: rest →
    dl.wf = true → cur.wf = true → dl.within (lineRegion s.part.maxCh.toNat s.part.maxDelay.toNat) = true →
    cur.within (cursorRegion s.part.maxCh.toNat) = true →
    ∃ t, step s = .next t ∧ t.arch.dl = dl ∧ t.arch.cur = cur

/-- R83: every command word, legal or not, produces exactly one response, laid out in format R. -/
def Obligations.EveryCommandGetsOneResponse : Prop :=
  ∀ (s : State) (host : Nat) (w : Word) (rest : List HostInput), s.inbox = .command host w :: rest →
    ∃ (t : State) (r : Word), step s = .next t ∧ t.outbox = s.outbox ++ [{ host := host, word := r }] ∧ t.inbox = rest ∧
      r.extractLsb 31 28 = w.extractLsb 31 28 ∧ (r.extractLsb 27 24).toNat ≤ 8 ∧
      r.extractLsb 23 23 = BitVec.ofBool t.arch.blkActive ∧ r.extractLsb 22 22 = BitVec.ofBool t.arch.configured ∧
      r.extractLsb 21 16 = 0#6 ∧ (r.extractLsb 27 24 ≠ 0#4 → r.extractLsb 15 0 = 0#16) ∧
      ∀ i, decode w = .ok i → mnemonicOf i ∉ ["SMP", "FILT", "DLRD", "RDST", "RDCUR"] → r.extractLsb 15 0 = 0#16

/-! ### Errors -/

/-- R201: a response with a code other than OK comes with no change of state at all. -/
def Obligations.FailedCommandChangesNothing : Prop :=
  ∀ (s t : State) (host : Nat) (w r : Word) (rest : List HostInput), s.inbox = .command host w :: rest → step s = .next t →
    t.outbox = s.outbox ++ [{ host := host, word := r }] → responseCODE r ≠ 0 →
    t.arch = s.arch ∧ t.part = s.part ∧ responseDATA r = 0 ∧ responseRBLK r = BitVec.ofBool s.arch.blkActive ∧
      responseRCFG r = BitVec.ofBool s.arch.configured

/-- R202: one step on a command word is `transact`, the one list of checks in the order of their priority and then the body;
the checks inside the meanings, which `exec` runs, agree with it. -/
def Obligations.StepIsTheListOfChecks : Prop :=
  ∀ (s : State) (host : Nat) (w : Word) (rest : List HostInput), s.inbox = .command host w :: rest →
    step s = .next { s with
      arch := (transact s.part s.arch w).1, inbox := rest, requester := host,
      outbox := s.outbox ++ [{ host := host, word := (transact s.part s.arch w).2 }] }

/-- The codes each command can return (60_exceptions.md section 1, the table that R203 derives). -/
def Obligations.CodesOfEachCommand : Prop :=
  ∀ (p : Part) (a : Arch) (w : Word) (i : Instr), decode w = .ok i →
    ∃ code : Code, responseCODE (cfcStep p a w).2 = codeBits code ∧
      code ∈ (match i with
        | .nop | .setgl _ | .setgh _ | .setdly _ | .dstr | .rdst _ => [Code.ok]
        | .cons _ _ => [.ok, .blockActive, .invalidDelay, .invalidChannelCount]
        | .blk _ _ => [.ok, .blockActive, .notConfigured, .channelCountMismatch]
        | .smp _ => [.ok, .noBlock]
        | .filt _ _ | .dlwr _ _ => [.ok, .blockActive, .notConfigured, .channelIndexRange]
        | .dlrd _ | .rdcur _ => [.ok, .notConfigured, .channelIndexRange])

/-! ### Construction, configuration and status -/

/-- R170: NOP completes in every state and changes nothing; its response tells CONFIGURED and BLK_ACTIVE. -/
def Obligations.NopChangesNothing : Prop :=
  rowDecodes 0x0 0x00000000 0xFFFFFFFF (fun _ => .nop) ∧
    (∀ s : State, exec .nop s = .next (s.answered .nop .ok 0 s.arch)) ∧
    responseWord 0x0 .ok false false 0 = 0x00000000 ∧ responseWord 0x0 .ok false true 0 = 0x00400000 ∧
    responseWord 0x0 .ok true true 0 = 0x00C00000

/-- R171, R172 and R173: SETGL, SETGH and SETDLY complete in every state and write their staging register, or the half of it,
and nothing else. -/
def Obligations.StagingWritesComplete : Prop :=
  rowDecodes 0x1 0x10000000 0xFFFF0000 (fun w => .setgl (w.extractLsb 15 0)) ∧
    rowDecodes 0x2 0x20000000 0xFFFF0000 (fun w => .setgh (w.extractLsb 15 0)) ∧
    rowDecodes 0x3 0x30000000 0xFFFF0000 (fun w => .setdly (w.extractLsb 15 0)) ∧
    ∀ (s : State) (d : Half),
      (∃ g : Word, exec (.setgl d) s = .next (s.answered (.setgl d) .ok 0 { s.arch with sgain := g }) ∧
        g.extractLsb 15 0 = d ∧ g.extractLsb 31 16 = s.arch.sgain.extractLsb 31 16) ∧
      (∃ g : Word, exec (.setgh d) s = .next (s.answered (.setgh d) .ok 0 { s.arch with sgain := g }) ∧
        g.extractLsb 31 16 = d ∧ g.extractLsb 15 0 = s.arch.sgain.extractLsb 15 0) ∧
      exec (.setdly d) s = .next (s.answered (.setdly d) .ok 0 { s.arch with sdelay := d })

/-- CONS completes when no block is open and the staged delay and the channel count are in range, and builds the filter: the
active configuration, zeros in every slot of every delay line, cursors 0 (43_config_control.md section 2, R174 and R177). The
staging registers and the sequencer are as before. -/
def Obligations.ConsBuildsTheFilter : Prop :=
  ∀ (s : State) (k : Kind) (n : Half), s.part.ok = true → s.arch.blkActive = false →
    1 ≤ s.arch.sdelay.toNat → s.arch.sdelay.toNat ≤ s.part.maxDelay.toNat → 1 ≤ n.toNat → n.toNat ≤ s.part.maxCh.toNat →
    ∃ a : Arch, exec (.cons k n) s = .next (s.answered (.cons k n) .ok 0 a) ∧
      a.configured = true ∧ a.kind = k ∧ a.nch.toNat = n.toNat ∧ a.delay = s.arch.sdelay ∧ a.gain = s.arch.sgain ∧
      (∀ c i, c < n.toNat → i < s.arch.sdelay.toNat → a.dl.read (slotAddr c i) = 0) ∧
      (∀ c, c < n.toNat → a.cur.read c = 0) ∧
      a.sgain = s.arch.sgain ∧ a.sdelay = s.arch.sdelay ∧ a.blkActive = false ∧ a.blkCh = s.arch.blkCh ∧
      a.blkFrame = s.arch.blkFrame ∧ a.blkFrames = s.arch.blkFrames

/-- CONS leaves the slots and cursors outside the lines that it fills as they were, and DSTR leaves all of them. The spec lets a
model give them any value (10_state.md R39, 43_config_control.md R177 and R178); leaving them is the model's choice (log entry 10). -/
def Obligations.CellsOutsideTheFilterAreLeft : Prop :=
  (∀ (s t : State) (k : Kind) (n : Half), exec (.cons k n) s = .next t →
    (∀ c i, i < 65536 → n.toNat ≤ c ∨ s.arch.sdelay.toNat ≤ i →
      t.arch.dl.read (slotAddr c i) = s.arch.dl.read (slotAddr c i)) ∧
    ∀ c, n.toNat ≤ c → t.arch.cur.read c = s.arch.cur.read c) ∧
  ∀ s t : State, exec .dstr s = .next t → t.arch.dl = s.arch.dl ∧ t.arch.cur = s.arch.cur

/-- R175: the checks of CONS, in their order, each with the code it reports. -/
def Obligations.ConsChecksInOrder : Prop :=
  ∀ (s : State) (k : Kind) (n : Half),
    (s.arch.blkActive = true → failsWith (.cons k n) s .blockActive) ∧
    (s.arch.blkActive = false → s.arch.sdelay.toNat = 0 ∨ s.part.maxDelay.toNat < s.arch.sdelay.toNat →
      failsWith (.cons k n) s .invalidDelay) ∧
    (s.arch.blkActive = false → 1 ≤ s.arch.sdelay.toNat → s.arch.sdelay.toNat ≤ s.part.maxDelay.toNat →
      n.toNat = 0 ∨ s.part.maxCh.toNat < n.toNat → failsWith (.cons k n) s .invalidChannelCount)

/-- R176: a successful CONS replaces the whole filter, whether or not one existed, so that two cores which agree on the part, the
staged values and the sequencer are the same filter after it, whatever they held; a failed CONS leaves the old filter in place. -/
def Obligations.ConsForgetsTheOldFilter : Prop :=
  ∀ (p : Part) (a b : Arch) (k : Kind) (n : Half),
    (responseCODE (cfcStep p a (encode (.cons k n))).2 ≠ 0 → (cfcStep p a (encode (.cons k n))).1 = a) ∧
    (p.ok = true → a.sgain = b.sgain → a.sdelay = b.sdelay → a.blkActive = b.blkActive → a.blkCh = b.blkCh →
      a.blkFrame = b.blkFrame → a.blkFrames = b.blkFrames → responseCODE (cfcStep p a (encode (.cons k n))).2 = 0 →
      (cfcStep p b (encode (.cons k n))).2 = (cfcStep p a (encode (.cons k n))).2 ∧
        (cfcStep p a (encode (.cons k n))).1.sameVisible (cfcStep p b (encode (.cons k n))).1 ∧
        (cfcStep p a (encode (.cons k n))).1.configured = true ∧ (cfcStep p a (encode (.cons k n))).1.kind = k ∧
        (cfcStep p a (encode (.cons k n))).1.nch.toNat = n.toNat ∧
        (cfcStep p a (encode (.cons k n))).1.delay = a.sdelay ∧ (cfcStep p a (encode (.cons k n))).1.gain = a.sgain ∧
        ∀ c i, c < n.toNat → i < a.sdelay.toNat →
          (cfcStep p a (encode (.cons k n))).1.dl.read (slotAddr c i) = 0 ∧
            (cfcStep p a (encode (.cons k n))).1.cur.read c = 0)

/-- What CONS does to the delay-line memory and the cursors at once is what the two loops of its pseudocode do write by write
(43_config_control.md section 2, the pseudocode of R174). -/
def Obligations.ConsZeroFillIsTheLoop : Prop :=
  ∀ (a : Arch) (k : Kind) (n : Half), a.dl.wf = true → a.cur.wf = true →
    (a.construct k n).dl = zeroSlots n.toNat a.sdelay.toNat a.dl ∧ (a.construct k n).cur = zeroCursors n.toNat a.cur

/-- R178: DSTR completes in every state, also with a block open; it clears the configuration and the sequencer and keeps the
staging registers. -/
def Obligations.DstrDestroysTheFilter : Prop :=
  rowDecodes 0x5 0x50000000 0xFFFFFFFF (fun _ => .dstr) ∧
    ∀ s : State, ∃ a : Arch, exec .dstr s = .next (s.answered .dstr .ok 0 a) ∧
      a.configured = false ∧ a.kind = .fir ∧ a.nch = 0 ∧ a.delay = 0 ∧ a.gain = 0 ∧
      a.blkActive = false ∧ a.blkCh = 0 ∧ a.blkFrame = 0 ∧ a.blkFrames = 0 ∧
      a.sgain = s.arch.sgain ∧ a.sdelay = s.arch.sdelay ∧
      responseWord Instr.dstr.op .ok a.blkActive a.configured 0 = 0x50000000

/-- DSTR with no filter leaves the state as it was (43_config_control.md section 2, which R179 derives). -/
def Obligations.DstrWithoutAFilterChangesNothing : Prop :=
  ∀ s : State, s.inv → s.arch.configured = false → exec .dstr s = .next (s.answered .dstr .ok 0 s.arch)

/-- R180, R181 and R183: RDST completes in every state, changes nothing and returns the view its selector names; after reset
every view but 11, 12 and 13 is 0. -/
def Obligations.RdstReturnsTheView : Prop :=
  (∀ w : Word, (w &&& 0xFFFFFFF0 = 0xB0000000 → (w.extractLsb 3 0).toNat ≤ 13 → decode w = .ok (.rdst (w.extractLsb 3 0))) ∧
      (fieldOP w = 0xB → w &&& 0xFFFFFFF0 ≠ 0xB0000000 ∨ 14 ≤ (w.extractLsb 3 0).toNat → answersIllegal w)) ∧
    (∀ (s : State) (sel : BitVec 4), sel.toNat ≤ 13 →
      ∃ v : Half, exec (.rdst sel) s = .next (s.answered (.rdst sel) .ok v s.arch) ∧
        [ 0#13 ++ kindBit s.arch.kind ++ BitVec.ofBool s.arch.blkActive ++ BitVec.ofBool s.arch.configured,
          s.arch.nch.setWidth 16, s.arch.delay, s.arch.gain.extractLsb 15 0, s.arch.gain.extractLsb 31 16, s.arch.sdelay,
          s.arch.sgain.extractLsb 15 0, s.arch.sgain.extractLsb 31 16, s.arch.blkCh.setWidth 16, s.arch.blkFrame,
          s.arch.blkFrames, s.part.maxCh.setWidth 16, s.part.maxDelay, 0xCF01#16 ][sel.toNat]? = some v) ∧
    (∀ a : Arch, (a.gain.extractLsb 31 16 ++ a.gain.extractLsb 15 0 : BitVec (16 + 16)) = a.gain) ∧
    ∀ (p : Part) (dl cur : Memory) (sel : BitVec 4), sel.toNat ≤ 10 → (Arch.afterReset dl cur).view p sel = some 0

/-! ### Delay lines -/

/-- R101: the cursor advance of a channel is one step modulo DELAY, and touches nothing else. -/
def Obligations.AdvanceIsOneStepModuloDelay : Prop :=
  ∀ (a : Arch) (c : Channel), a.cur.wf = true →
    (a.adv c).cursor c = (if (a.cursor c).toNat + 1 = a.delay.toNat then 0 else a.cursor c + 1) ∧
    (∀ k, k ≠ c.toNat → (a.adv c).cur.read k = a.cur.read k) ∧ { a.adv c with cur := a.cur } = a ∧
    ((a.cursor c).toNat < a.delay.toNat →
      ((a.adv c).cursor c).toNat = ((a.cursor c).toNat + 1) % a.delay.toNat ∧
        ((a.adv c).cursor c).toNat < a.delay.toNat) ∧
    (a.delay.toNat = 1 → (a.cursor c).toNat < a.delay.toNat → (a.adv c).cursor c = 0)

/-- R102 and R104: DLRD and RDCUR complete on a channel of the filter, also while a block is open, return its tap and its cursor,
and change nothing; their failures change nothing either. -/
def Obligations.LineReadsComplete : Prop :=
  rowDecodes 0x9 0x90000000 0xF0FFFFFF (fun w => .dlrd (w.extractLsb 27 24)) ∧
    rowDecodes 0xC 0xC0000000 0xF0FFFFFF (fun w => .rdcur (w.extractLsb 27 24)) ∧
    ∀ (s : State) (c : Channel),
      (s.arch.configured = false → failsWith (.dlrd c) s .notConfigured ∧ failsWith (.rdcur c) s .notConfigured) ∧
      (s.arch.configured = true → s.arch.nch.toNat ≤ c.toNat →
        failsWith (.dlrd c) s .channelIndexRange ∧ failsWith (.rdcur c) s .channelIndexRange) ∧
      (s.arch.configured = true → c.toNat < s.arch.nch.toNat →
        exec (.dlrd c) s = .next (s.answered (.dlrd c) .ok
          (s.arch.dl.read (slotAddr c.toNat (s.arch.cur.read c.toNat).toNat)) s.arch) ∧
        exec (.rdcur c) s = .next (s.answered (.rdcur c) .ok (s.arch.cur.read c.toNat) s.arch) ∧
        (s.inv → (s.arch.cur.read c.toNat).toNat < s.arch.delay.toNat))

/-- R103: DLWR completes on a channel of the filter while no block is open: the slot at the cursor, then the cursor, and
nothing else; its failures change nothing. -/
def Obligations.DlwrWritesAndAdvances : Prop :=
  rowDecodes 0xA 0xA0000000 0xF0FF0000 (fun w => .dlwr (w.extractLsb 27 24) (w.extractLsb 15 0)) ∧
    ∀ (s : State) (c : Channel) (v : Half), s.inv →
      (s.arch.blkActive = true → failsWith (.dlwr c v) s .blockActive) ∧
      (s.arch.blkActive = false → s.arch.configured = false → failsWith (.dlwr c v) s .notConfigured) ∧
      (s.arch.blkActive = false → s.arch.configured = true → s.arch.nch.toNat ≤ c.toNat →
        failsWith (.dlwr c v) s .channelIndexRange) ∧
      (s.arch.blkActive = false → s.arch.configured = true → c.toNat < s.arch.nch.toNat →
        ∃ a : Arch, exec (.dlwr c v) s = .next (s.answered (.dlwr c v) .ok 0 a) ∧
          a.dl.read (slotAddr c.toNat (s.arch.cursor c).toNat) = v ∧
          (∀ addr, addr ≠ slotAddr c.toNat (s.arch.cursor c).toNat → a.dl.read addr = s.arch.dl.read addr) ∧
          (a.cursor c).toNat = ((s.arch.cursor c).toNat + 1) % s.arch.delay.toNat ∧
          (∀ k, k ≠ c.toNat → a.cur.read k = s.arch.cur.read k) ∧
          { a with dl := s.arch.dl, cur := s.arch.cur } = s.arch)

/-- NOP, DLRD, RDST and RDCUR change no state, whatever they answer, and repeating one gives the same response (20_memory.md
section 2, which R59 derives). -/
def Obligations.ReadsAreIdempotent : Prop :=
  ∀ (p : Part) (a : Arch) (w : Word) (i : Instr), decode w = .ok i → mnemonicOf i ∈ ["NOP", "DLRD", "RDST", "RDCUR"] →
    (cfcStep p a w).1 = a ∧ (cfcRun p a [w, w]).2 = [(cfcStep p a w).2, (cfcStep p a w).2]

/-- What a delay line reads just before the next write is the write DELAY writes earlier, or 0, in any run after a successful CONS
that keeps the filter: R105 and R107, the spec's own inferences (40_delay_line.md section 3). -/
def Obligations.TapIsTheWriteDelayWritesEarlier : Prop :=
  ∀ (p : Part) (a b : Arch) (k : Kind) (n : Half) (ws : List Word) (c : Channel), p.ok = true → a.inv p →
    responseCODE (cfcStep p a (encode (.cons k n))).2 = 0 → b = (cfcStep p a (encode (.cons k n))).1 →
    keepsFilter p b ws = true → c.toNat < n.toNat →
    let writes := (lineOps p c b ws).map (LineOp.written k)
    let d := (cfcRun p b ws).1
    d.tap c = (if b.delay.toNat ≤ writes.length then writes.getD (writes.length - b.delay.toNat) 0 else 0) ∧
      responseCODE (cfcStep p d (encode (.dlrd c))).2 = 0 ∧ responseDATA (cfcStep p d (encode (.dlrd c))).2 = d.tap c

/-- After k writes a delay line holds the last DELAY of them, zeros in the slots not yet written, and its cursor is k mod DELAY: R106,
the spec's own inference (40_delay_line.md section 3; the cursor from R104's corner case). -/
def Obligations.DelayLineHoldsTheLatestWrites : Prop :=
  ∀ (p : Part) (a b : Arch) (k : Kind) (n : Half) (ws : List Word) (c : Channel), p.ok = true → a.inv p →
    responseCODE (cfcStep p a (encode (.cons k n))).2 = 0 → b = (cfcStep p a (encode (.cons k n))).1 →
    keepsFilter p b ws = true → c.toNat < n.toNat →
    let writes := (lineOps p c b ws).map (LineOp.written k)
    let d := (cfcRun p b ws).1
    (∀ j, j < writes.length → writes.length ≤ j + b.delay.toNat →
        d.dl.read (slotAddr c.toNat (j % b.delay.toNat)) = writes.getD j 0) ∧
      (∀ i, i < b.delay.toNat → writes.length ≤ i → d.dl.read (slotAddr c.toNat i) = 0) ∧
      (d.cursor c).toNat = writes.length % b.delay.toNat

/-! ### The comb filter -/

/-- R121: FILT completes on a channel of the filter while no block is open, applies the sample operation to that channel and returns
its output; the sequencer is not touched. -/
def Obligations.FiltAppliesTheSampleOperation : Prop :=
  ∀ (s : State) (c : Channel) (x : Half), s.inv → s.arch.blkActive = false → s.arch.configured = true →
    c.toNat < s.arch.nch.toNat →
    ∃ (a : Arch) (y : Half), exec (.filt c x) s = .next (s.answered (.filt c x) .ok y a) ∧
      sampleEffect c x y s.arch a ∧ { a with dl := s.arch.dl, cur := s.arch.cur } = s.arch

/-- The words of FILT and its failures, in the order of its checks (41_comb_filter.md section 2, R128). -/
def Obligations.FiltChecksInOrder : Prop :=
  rowDecodes 0x8 0x80000000 0xF0FF0000 (fun w => .filt (w.extractLsb 27 24) (w.extractLsb 15 0)) ∧
    ∀ (s : State) (c : Channel) (x : Half),
      (s.arch.blkActive = true → failsWith (.filt c x) s .blockActive) ∧
      (s.arch.blkActive = false → s.arch.configured = false → failsWith (.filt c x) s .notConfigured) ∧
      (s.arch.blkActive = false → s.arch.configured = true → s.arch.nch.toNat ≤ c.toNat →
        failsWith (.filt c x) s .channelIndexRange)

/-- The exact sum fits a 48-bit accumulator (00_scope.md section 3, which R11 derives). -/
def Obligations.AccumulatorFitsIn48Bits : Prop :=
  ∀ (gain : Word) (tap x : Half), -(2 ^ 47) < combAcc gain tap x ∧ combAcc gain tap x < 2 ^ 47

/-- Rounding toward zero is the arithmetic right shift by 16 of the sum, or of the sum plus 0xFFFF when it is negative (00_scope.md
section 3, R10). -/
def Obligations.RoundShiftIsTheHardwareShift : Prop :=
  ∀ a : Int, roundShift a = Int.tdiv a 65536 ∧ roundShift a = (if 0 ≤ a then a >>> 16 else (a + 0xFFFF) >>> 16)

/-- R125: in a sample operation, by FILT or by SMP, a rounded value beyond the range of a sample becomes the nearest bound, never
a wrapped value, and nothing records it. -/
def Obligations.OutputSaturatesSilently : Prop :=
  ∀ (s t : State) (i : Instr) (c : Channel) (x : Half), s.inv →
    (i = .filt c x ∧ s.arch.blkActive = false ∧ s.arch.configured = true ∧ c.toNat < s.arch.nch.toNat) ∨
      (i = .smp x ∧ s.arch.blkActive = true ∧ c = s.arch.blkCh) →
    exec i s = .next t →
    let q := roundShift (combAcc s.arch.gain (s.arch.tap c) x)
    ∃ y : Half, t = s.answered i .ok y t.arch ∧
      (32767 ≤ q → y = 0x7FFF) ∧ (q ≤ -32768 → y = 0x8000) ∧ (-32768 ≤ q → q ≤ 32767 → y.toInt = q) ∧
      { t.arch with
        dl := s.arch.dl, cur := s.arch.cur, blkActive := s.arch.blkActive, blkCh := s.arch.blkCh,
        blkFrame := s.arch.blkFrame, blkFrames := s.arch.blkFrames } = s.arch

/-- The outputs on a channel, in any run after a successful CONS that keeps the filter and sends no DLWR to the channel, are the
filter's recurrence on its inputs, over past inputs for FIR and past outputs for IIR: R129 and R130, the spec's own inferences
(41_comb_filter.md section 3). -/
def Obligations.OutputsFollowTheRecurrence : Prop :=
  ∀ (p : Part) (a b : Arch) (k : Kind) (n : Half) (ws : List Word) (c : Channel) (xs : List Half), p.ok = true → a.inv p →
    responseCODE (cfcStep p a (encode (.cons k n))).2 = 0 → b = (cfcStep p a (encode (.cons k n))).1 →
    keepsFilter p b ws = true → c.toNat < n.toNat → sampleInputs (lineOps p c b ws) = some xs →
    let ys := sampleOutputs (lineOps p c b ws)
    let past := if k = .fir then xs else ys
    ys.length = xs.length ∧
      ∀ m, m < xs.length →
        (ys.getD m 0).toInt =
          outputOf b.gain (if b.delay.toNat ≤ m then past.getD (m - b.delay.toNat) 0 else 0) (xs.getD m 0)

/-- An FIR filter of gain exactly -1 cancels inputs that are periodic with period DELAY, after the first DELAY outputs: R131, the
spec's own inference (41_comb_filter.md section 3). -/
def Obligations.FirCancelsPeriodicInput : Prop :=
  ∀ (p : Part) (a b : Arch) (n : Half) (ws : List Word) (c : Channel) (xs : List Half), p.ok = true → a.inv p →
    a.sgain = 0xFFFF0000 → responseCODE (cfcStep p a (encode (.cons .fir n))).2 = 0 →
    b = (cfcStep p a (encode (.cons .fir n))).1 → keepsFilter p b ws = true → c.toNat < n.toNat →
    sampleInputs (lineOps p c b ws) = some xs →
    (∀ m, b.delay.toNat ≤ m → m < xs.length → xs.getD m 0 = xs.getD (m - b.delay.toNat) 0) →
    ∀ m, m < xs.length →
      (sampleOutputs (lineOps p c b ws)).getD m 0 = (if m < b.delay.toNat then xs.getD m 0 else 0)

/-- Silence stays silence for both kinds and every gain: R134 and R158, the spec's own inferences (41_comb_filter.md section 3,
42_block_driver.md section 2). -/
def Obligations.ZeroInputGivesZeroOutput : Prop :=
  ∀ (p : Part) (a b : Arch) (k : Kind) (n : Half) (ws : List Word) (c : Channel), p.ok = true → a.inv p →
    responseCODE (cfcStep p a (encode (.cons k n))).2 = 0 → b = (cfcStep p a (encode (.cons k n))).1 →
    keepsFilter p b ws = true → c.toNat < n.toNat →
    (∀ op ∈ lineOps p c b ws, op = .poke 0 ∨ ∃ y, op = .sample 0 y) →
    (∀ y ∈ sampleOutputs (lineOps p c b ws), y = 0) ∧
      ∀ i, i < b.delay.toNat → (cfcRun p b ws).1.dl.read (slotAddr c.toNat i) = 0

/-- With gain zero both kinds return the input and write it back, and two cores that differ only in their kind give the same responses
to every run of words other than RDST 0, which reads the kind itself: R136, the spec's own inference (41_comb_filter.md
section 3). -/
def Obligations.GainZeroPassesTheInput : Prop :=
  ∀ (p : Part) (a b : Arch) (ws : List Word), a.gain = 0 → { a with kind := b.kind } = b →
    (∀ (c : Channel) (x : Half), (a.sampleOp c x).2 = x ∧ (a.sampleOp c x).1 = a.lineWrite c x) ∧
      ((∀ w ∈ ws, w ≠ 0xB0000000) → (cfcRun p a ws).2 = (cfcRun p b ws).2)

/-- One period of the IIR free response (input zero): below gain 1 in magnitude a stored value shrinks strictly; above it a value
never shrinks, and grows while it has room: R132, the spec's own inference (41_comb_filter.md section 3). The exception, which
R132 passes over, is the value -32768 with a gain below -1: it gives 32767. -/
def Obligations.FreeResponseShrinksOrGrows : Prop :=
  ∀ (gain : Word) (v : Half),
    (|gain.toInt| < 65536 → v ≠ 0 → |combValue gain v 0| < |v.toInt|) ∧
    (65536 < |gain.toInt| → |v.toInt| ≤ 32767 → |v.toInt| ≤ |combValue gain v 0|) ∧
    (65536 < gain.toInt → |v.toInt| ≤ |combValue gain v 0|) ∧
    (gain.toInt < -65536 → v = 0x8000 → combValue gain v 0 = 32767) ∧
    (65536 < |gain.toInt| → |v.toInt| < 32767 ∨ |v.toInt| = 32767 ∧ gain.toInt * v.toInt < 0 →
      (|v.toInt| + 1) * 65536 ≤ |gain.toInt| * |v.toInt| → |v.toInt| < |combValue gain v 0|)

/-- The IIR free response with a gain below 1 in magnitude reaches exactly zero, within as many periods as the stored value is large:
R132, the spec's own inference, with 90_conflicts.md C5 and C9. -/
def Obligations.FreeResponseDiesOut : Prop :=
  ∀ (gain : Word) (v : Half), |gain.toInt| < 65536 →
    (fun u : Half => bits16 (combValue gain u 0))^[v.toInt.natAbs] v = 0

/-! ### The block driver -/

/-- R151 and R155: BLK completes on a filter of the declared channel count while no block is open, and opens a block, or does
nothing when it has no frames; its failures, in the order of its checks, change nothing. -/
def Obligations.BlkOpensABlock : Prop :=
  rowDecodes 0x6 0x60000000 0xFF800000 (fun w => .blk (w.extractLsb 22 16) (w.extractLsb 15 0)) ∧
    ∀ (s : State) (n : BitVec 7) (f : Half),
      (s.arch.blkActive = true → failsWith (.blk n f) s .blockActive) ∧
      (s.arch.blkActive = false → s.arch.configured = false → failsWith (.blk n f) s .notConfigured) ∧
      (s.arch.blkActive = false → s.arch.configured = true → n.toNat ≠ s.arch.nch.toNat →
        failsWith (.blk n f) s .channelCountMismatch) ∧
      (s.inv → s.arch.blkActive = false → s.arch.configured = true → failsWith (.blk 0 f) s .channelCountMismatch) ∧
      (s.arch.blkActive = false → s.arch.configured = true → n.toNat = s.arch.nch.toNat → f.toNat = 0 →
        exec (.blk n f) s = .next (s.answered (.blk n f) .ok 0 s.arch)) ∧
      (s.arch.blkActive = false → s.arch.configured = true → n.toNat = s.arch.nch.toNat → 1 ≤ f.toNat →
        exec (.blk n f) s = .next (s.answered (.blk n f) .ok 0
          { s.arch with blkActive := true, blkCh := 0, blkFrame := 0, blkFrames := f }))

/-- SMP completes while a block is open: the sample operation on channel BLK_CH, then the sequencer, which goes to the next frame, to
the next channel, or closes the block; without a block it fails and changes nothing (42_block_driver.md section 1, R152). That
the block also closes at BLK_CH = 15 with NCH = 16, where BLK_CH + 1 has no 4-bit value, is the model's reading of R152 (log
entry 8). -/
def Obligations.SmpTakesTheNextSample : Prop :=
  rowDecodes 0x7 0x70000000 0xFFFF0000 (fun w => .smp (w.extractLsb 15 0)) ∧
    ∀ (s : State) (x : Half), s.inv →
      (s.arch.blkActive = false → failsWith (.smp x) s .noBlock) ∧
      (s.arch.blkActive = true →
        ∃ (a : Arch) (y : Half), exec (.smp x) s = .next (s.answered (.smp x) .ok y a) ∧
          sampleEffect s.arch.blkCh x y s.arch a ∧
          (s.arch.blkFrame.toNat + 1 < s.arch.blkFrames.toNat →
            a.blkActive = true ∧ a.blkCh = s.arch.blkCh ∧ a.blkFrame.toNat = s.arch.blkFrame.toNat + 1 ∧
              a.blkFrames = s.arch.blkFrames) ∧
          (s.arch.blkFrame.toNat + 1 = s.arch.blkFrames.toNat → s.arch.blkCh.toNat + 1 < s.arch.nch.toNat →
            a.blkActive = true ∧ a.blkCh.toNat = s.arch.blkCh.toNat + 1 ∧ a.blkFrame = 0 ∧
              a.blkFrames = s.arch.blkFrames) ∧
          (s.arch.blkFrame.toNat + 1 = s.arch.blkFrames.toNat → s.arch.blkCh.toNat + 1 = s.arch.nch.toNat →
            a.blkActive = false ∧ a.blkCh = 0 ∧ a.blkFrame = 0 ∧ a.blkFrames = 0))

/-- The j-th SMP of a block belongs to channel j div F, frame j mod F, whatever reads and staging writes stand between; the samples
still owed are (NCH - BLK_CH) * BLK_FRAMES - BLK_FRAME, and the block closes with the last of them: R150 with R153, R154 and R185,
the spec's own inferences (42_block_driver.md section 2, 43_config_control.md section 3). -/
def Obligations.BlocksAreChannelMajor : Prop :=
  ∀ (p : Part) (a : Arch) (n : BitVec 7) (f : Half) (ws : List Word), p.ok = true → a.inv p → a.blkActive = false →
    a.configured = true → n.toNat = a.nch.toNat → 1 ≤ f.toNat →
    (∀ w ∈ ws, ∃ i, decode w = .ok i ∧
      mnemonicOf i ∈ ["SMP", "NOP", "RDST", "RDCUR", "DLRD", "SETGL", "SETGH", "SETDLY"]) →
    let j := ws.countP (fun w => fieldOP w == 0x7)
    let b := (cfcRun p (cfcStep p a (encode (.blk n f))).1 ws).1
    j ≤ n.toNat * f.toNat →
    (j < n.toNat * f.toNat →
      b.blkActive = true ∧ b.blkCh.toNat = j / f.toNat ∧ b.blkFrame.toNat = j % f.toNat ∧ b.blkFrames = f) ∧
    (j = n.toNat * f.toNat → b.blkActive = false) ∧
    (b.nch.toNat - b.blkCh.toNat) * b.blkFrames.toNat - b.blkFrame.toNat = n.toNat * f.toNat - j

/-- The outputs and the final state do not depend on how the frames of the streams are split into blocks, nor on which of the samples
come by FILT between blocks, as long as each channel gets the same sequence: R157, the spec's own inference (42_block_driver.md
section 2). -/
def Obligations.OutputsDoNotDependOnBlockSizes : Prop :=
  ∀ (p : Part) (a : Arch), p.ok = true → a.inv p → a.configured = true → a.blkActive = false →
    (∀ (n : BitVec 7) (streams : List (List Half)) (total : Nat) (fs gs : List Nat), n.toNat = a.nch.toNat →
      streams.length = n.toNat → (∀ x ∈ streams, x.length = total) →
      (∀ f ∈ fs, f ≤ 65535) → fs.sum = total → (∀ g ∈ gs, g ≤ 65535) → gs.sum = total →
      let us := (splitCommands n streams 0 fs).map encode
      let vs := (splitCommands n streams 0 gs).map encode
      (cfcRun p a us).1 = (cfcRun p a vs).1 ∧
        (∀ r ∈ (cfcRun p a us).2, responseCODE r = 0) ∧
        ∀ c : Channel, c.toNat < n.toNat →
          sampleInputs (lineOps p c a us) = some (streams.getD c.toNat []) ∧
            sampleOutputs (lineOps p c a us) = sampleOutputs (lineOps p c a vs)) ∧
    ∀ us vs : List Word,
      (∀ w ∈ us ++ vs, ∃ i, decode w = .ok i ∧ mnemonicOf i ∈ ["BLK", "SMP", "FILT"]) →
      (∀ c : Channel, c.toNat < a.nch.toNat → sampleInputs (lineOps p c a us) = sampleInputs (lineOps p c a vs)) →
      (∀ c : Channel, c.toNat < a.nch.toNat → sampleOutputs (lineOps p c a us) = sampleOutputs (lineOps p c a vs)) ∧
        ((cfcRun p a us).1.blkActive = false → (cfcRun p a vs).1.blkActive = false → (cfcRun p a us).1 = (cfcRun p a vs).1)

/-- Process, of any number of frames, sends every sample of each channel's stream in order, in one block or in several, and returns
the outputs in channel-major order, all of channel 0 first; a Process whose BLK fails returns that error and changes nothing
(43_config_control.md section 4, which R193 derives; R154). The sizes of several blocks are the model's choice (log entry 25), as
is the refusal of a count above 127 (log entry 26). -/
def Obligations.ProcessReturnsTheOutputsInOrder : Prop :=
  (∀ t : Nat, (blockSizes t).sum = t ∧ (∀ f ∈ blockSizes t, f ≤ 65535) ∧ (t ≤ 65535 → blockSizes t = [t])) ∧
    ∀ (p : Part) (a : Arch) (n frames : Nat) (xs : List Half), p.ok = true → a.inv p →
      let ws := (splitCommands (BitVec.ofNat 7 n) (streamsOf n frames xs) 0 (blockSizes frames)).map encode
      (a.configured = true → a.blkActive = false → n = a.nch.toNat → xs.length = n * frames →
        (frames ≤ 65535 → ws = encode (.blk (BitVec.ofNat 7 n) (BitVec.ofNat 16 frames)) :: xs.map (fun x => encode (.smp x))) ∧
          (∀ c : Channel, c.toNat < n →
            sampleInputs (lineOps p c a ws) = some ((xs.drop (c.toNat * frames)).take frames)) ∧
          (hostProcess p a n frames xs).1 = (cfcRun p a ws).1 ∧
          (hostProcess p a n frames xs).2 =
            .ok ((List.range n).map fun c => sampleOutputs (lineOps p (BitVec.ofNat 4 c) a ws)).flatten) ∧
      (n ≤ 127 →
        responseCODE (cfcStep p a (encode (.blk (BitVec.ofNat 7 n) (BitVec.ofNat 16 (min frames 65535))))).2 ≠ 0 →
        hostProcess p a n frames xs = (a, .error (hostErrorOf
          (responseCODE (cfcStep p a (encode (.blk (BitVec.ofNat 7 n) (BitVec.ofNat 16 (min frames 65535))))).2)))) ∧
      (127 < n → hostProcess p a n frames xs = (a, .error .channelCountMismatch))

/-! ### The whole machine -/

/-- The reset state meets the invariant (10_state.md section 5, R34; its memory is the model's choice, log entry 2). -/
def Obligations.ResetMeetsTheInvariant : Prop := State.reset.inv

/-- Every step keeps R34 (a) to (d), the canonical form of the two stores and the bounds of the part: R34, the spec's own inference
(10_state.md section 5), with 20_memory.md R51. -/
def Obligations.EveryStepKeepsTheInvariant : Prop :=
  ∀ s t : State, s.inv → step s = .next t → t.inv

/-- R39: whatever the slots and cursors that no command observes hold, every run gives the same responses, and what can be observed
stays the same. -/
def Obligations.UnobservableCellsNeverShow : Prop :=
  ∀ (p : Part) (a b : Arch) (ws : List Word), p.ok = true → a.inv p → b.inv p → a.sameVisible b →
    (cfcRun p a ws).2 = (cfcRun p b ws).2 ∧ (cfcRun p a ws).1.sameVisible (cfcRun p b ws).1

/-- R231: what the delay-line memory and the cursors hold after reset changes no response of any run. -/
def Obligations.MemoryAfterResetNeverShows : Prop :=
  ∀ (p : Part) (dl cur dl' cur' : Memory) (ws : List Word), p.ok = true →
    (Arch.afterReset dl cur).memoryOk p → (Arch.afterReset dl' cur').memoryOk p →
    (cfcRun p (Arch.afterReset dl cur) ws).2 = (cfcRun p (Arch.afterReset dl' cur') ws).2

/-- R40: a command on channel `c` leaves every other channel's line alone, and neither its response nor what it leaves in `c`
depends on them. -/
def Obligations.ChannelsDoNotInteract : Prop :=
  ∀ (p : Part) (a b : Arch) (w : Word) (i : Instr) (c : Channel), p.ok = true → a.inv p → b.inv p → decode w = .ok i →
    channelOf i = some c ∨ (∃ x, i = .smp x) ∧ a.blkCh = c →
    (∀ c' : Channel, c' ≠ c → a.sameLine c' (cfcStep p a w).1) ∧
      ({ a with dl := b.dl, cur := b.cur } = b → a.sameLine c b →
        (cfcStep p a w).2 = (cfcStep p b w).2 ∧ (cfcStep p a w).1.sameLine c (cfcStep p b w).1 ∧
          { (cfcStep p a w).1 with dl := (cfcStep p b w).1.dl, cur := (cfcStep p b w).1.cur } = (cfcStep p b w).1)

/-- Each register is written only by the commands that the access table names, whatever the state (10_state.md section 5, which
R38 derives). -/
def Obligations.RegistersAreWrittenOnlyByTheirCommands : Prop :=
  ∀ (p : Part) (a b : Arch) (w : Word) (i : Instr), decode w = .ok i → b = (cfcStep p a w).1 →
    (mnemonicOf i ∉ ["CONS", "DSTR"] →
      b.configured = a.configured ∧ b.kind = a.kind ∧ b.nch = a.nch ∧ b.delay = a.delay ∧ b.gain = a.gain) ∧
    (mnemonicOf i ∉ ["SETGL", "SETGH"] → b.sgain = a.sgain) ∧
    (mnemonicOf i ≠ "SETGH" → b.sgain.extractLsb 31 16 = a.sgain.extractLsb 31 16) ∧
    (mnemonicOf i ≠ "SETGL" → b.sgain.extractLsb 15 0 = a.sgain.extractLsb 15 0) ∧
    (mnemonicOf i ≠ "SETDLY" → b.sdelay = a.sdelay) ∧
    (mnemonicOf i ∉ ["CONS", "SMP", "FILT", "DLWR"] → b.dl = a.dl ∧ b.cur = a.cur) ∧
    (mnemonicOf i ∉ ["BLK", "SMP", "DSTR"] →
      b.blkActive = a.blkActive ∧ b.blkCh = a.blkCh ∧ b.blkFrame = a.blkFrame ∧ b.blkFrames = a.blkFrames)

/-- R186: no command and no reset changes what the views 11, 12 and 13 return, and view 13 is 0xCF01. -/
def Obligations.PartConstantsNeverChange : Prop :=
  ∀ s t : State, step s = .next t → t.part = s.part ∧
    (∀ sel : BitVec 4, 11 ≤ sel.toNat → t.arch.view t.part sel = s.arch.view s.part sel) ∧
    t.arch.view t.part 11 = some (t.part.maxCh.setWidth 16) ∧ t.arch.view t.part 12 = some t.part.maxDelay ∧
    t.arch.view t.part 13 = some 0xCF01

/-- Two cores that differ only in their staging registers answer every word alike, save CONS and the views 5, 6 and 7, and go on
differing only there: R237, the spec's own inference (70_reset_and_hazards.md section 3). -/
def Obligations.StagedValuesWaitForCons : Prop :=
  ∀ (p : Part) (a b : Arch) (w : Word), { a with sgain := b.sgain, sdelay := b.sdelay } = b → fieldOP w ≠ 0x4 →
    w ≠ 0xB0000005 → w ≠ 0xB0000006 → w ≠ 0xB0000007 →
    (cfcStep p a w).2 = (cfcStep p b w).2 ∧
      { (cfcStep p a w).1 with sgain := (cfcStep p b w).1.sgain, sdelay := (cfcStep p b w).1.sdelay } = (cfcStep p b w).1

/-- Commands take effect one at a time in the order they were accepted, from any mix of hosts, and each response goes to the host that
issued the command (20_memory.md section 3, R61 and R66): a run of the whole machine over the commands at its port. -/
def Obligations.CommandsRunInOrderForTheirHosts : Prop :=
  ∀ (s : State) (cmds : List (Nat × Word)) (rest : List HostInput),
    s.inbox = cmds.map (fun q => .command q.1 q.2) ++ rest →
    Host.Core.run Sys2Proof.core cmds.length s = .next { s with
      arch := (cfcRun s.part s.arch (cmds.map Prod.snd)).1, inbox := rest,
      requester := (cmds.getLast?.map Prod.fst).getD s.requester,
      outbox := s.outbox ++ List.zipWith Response.mk (cmds.map Prod.fst) (cfcRun s.part s.arch (cmds.map Prod.snd)).2 }

/-- A step of one instance leaves every other as it was (60_exceptions.md section 3, R213). -/
def Obligations.InstancesShareNothing : Prop :=
  ∀ (k : Nat) (cores next : List State), stepInstance k cores = .next next →
    next.length = cores.length ∧ (∀ j, j ≠ k → next[j]? = cores[j]?) ∧
      ∀ s, cores[k]? = some s → ∃ t, step s = .next t ∧ next[k]? = some t

/-- Boot: after reset or DSTR, SETDLY, SETGL and SETGH in any order and then CONS build the filter; at every point before CONS the
filtering commands fail with NOT_CONFIGURED or NO_BLOCK, and with the reset values alone CONS fails: R234, the spec's own
inference (70_reset_and_hazards.md section 2). The source's Construction is this sequence with the delay and the gain that the
host derives, and the response to CONS is its outcome (43_config_control.md section 4, which R192 derives); a count above 65535 is
refused by the model's choice (log entry 24). -/
def Obligations.BootSequenceBuildsTheFilter : Prop :=
  (∀ (p : Part) (a : Arch) (delay lo hi n : Half) (k : Kind) (ws : List Word), p.ok = true →
    (∃ dl cur, a = Arch.afterReset dl cur) ∨ (∃ b, a = (cfcStep p b (encode .dstr)).1) →
    1 ≤ delay.toNat → delay.toNat ≤ p.maxDelay.toNat → 1 ≤ n.toNat → n.toNat ≤ p.maxCh.toNat →
    ws.Perm [encode (.setdly delay), encode (.setgl lo), encode (.setgh hi)] →
    (∀ pre, pre <+: ws →
      let b := (cfcRun p a pre).1
      ∀ (c : Channel) (x : Half) (m : BitVec 7),
        responseCODE (cfcStep p b (encode (.filt c x))).2 = 4 ∧ responseCODE (cfcStep p b (encode (.dlrd c))).2 = 4 ∧
        responseCODE (cfcStep p b (encode (.dlwr c x))).2 = 4 ∧ responseCODE (cfcStep p b (encode (.rdcur c))).2 = 4 ∧
        responseCODE (cfcStep p b (encode (.blk m x))).2 = 4 ∧ responseCODE (cfcStep p b (encode (.smp x))).2 = 7) ∧
      let r := cfcStep p (cfcRun p a ws).1 (encode (.cons k n))
      r.2 = 0x40400000 ∧ r.1.configured = true ∧ r.1.kind = k ∧ r.1.nch.toNat = n.toNat ∧ r.1.delay = delay ∧
        r.1.gain = (hi ++ lo : BitVec (16 + 16))) ∧
  (∀ (p : Part) (dl cur : Memory) (k : Kind) (n : Half),
    responseCODE (cfcStep p (Arch.afterReset dl cur) (encode (.cons k n))).2 = 1) ∧
  ∀ (p : Part) (a : Arch) (rate : Int) (frequency gain : Rat) (n : Nat) (k : Kind), p.ok = true →
    let r := hostConstruct p a rate frequency gain n k
    (∀ e, deriveDelay rate frequency = .error e → r = (a, .error e)) ∧
    ∀ d, deriveDelay rate frequency = .ok d →
      (∀ e, gainWordOf gain = .error e → r = (a, .error e)) ∧
      ∀ g, gainWordOf gain = .ok g →
        let staged := { a with sdelay := d, sgain := g }
        (65535 < n → r = (a, .error .invalidChannelCount)) ∧
        (n ≤ 65535 → a.blkActive = true → r = (staged, .error (.rejected 6))) ∧
        (n ≤ 65535 → a.blkActive = false → p.maxDelay.toNat < d.toNat → r = (staged, .error .invalidDelay)) ∧
        (n ≤ 65535 → a.blkActive = false → d.toNat ≤ p.maxDelay.toNat → n = 0 ∨ p.maxCh.toNat < n →
          r = (staged, .error .invalidChannelCount)) ∧
        (a.blkActive = false → d.toNat ≤ p.maxDelay.toNat → 1 ≤ n → n ≤ p.maxCh.toNat →
          r.2 = .ok () ∧ r.1.configured = true ∧ r.1.kind = k ∧ r.1.nch.toNat = n ∧ r.1.delay = d ∧ r.1.gain = g ∧
            r.1.sdelay = d ∧ r.1.sgain = g ∧
            ∀ ws : List Word,
              ws.Perm [encode (.setdly d), encode (.setgl (g.extractLsb 15 0)), encode (.setgh (g.extractLsb 31 16))] →
              (cfcRun p a (ws ++ [encode (.cons k (BitVec.ofNat 16 n))])).1 = r.1)

/-! ### The host side -/

/-- The delay a host derives, and when it sends nothing (43_config_control.md section 4, R190; frequencies are rational here, log
entry 14). -/
def Obligations.DelayDerivationRoundsHalfUp : Prop :=
  ∀ (rate : Int) (frequency : Rat),
    (∀ d : Half, deriveDelay rate frequency = .ok d ↔
      0 < rate ∧ 0 < frequency ∧ 1 ≤ d.toNat ∧ (d.toNat : Int) = ⌊(rate : Rat) / frequency + 1 / 2⌋) ∧
    (0 < rate → 2 * (rate : Rat) < frequency → deriveDelay rate frequency = .error .invalidDelay)

/-- The gain word a host computes is the nearest one, halves away from zero, and is refused exactly for `|g| >= 32768` or when it would
not fit 32 bits (43_config_control.md section 4, R191; 92_eei_decisions.md D30). Gains are rational here (log entry 14); that
either test refuses is the model's reading where the two differ (log entry 15). -/
def Obligations.GainConversionIsNearest : Prop :=
  ∀ g : Rat,
    (∀ G : Word, gainWordOf g = .ok G →
      |(G.toInt : Rat) - g * 65536| ≤ 1 / 2 ∧
        (|(G.toInt : Rat) - g * 65536| = 1 / 2 → |g * 65536| < |(G.toInt : Rat)|)) ∧
    (gainWordOf g = .error .gainRange ↔ g ≤ -32768 ∨ 4294967295 / 2 ≤ g * 65536) ∧
    (32768 ≤ |g| → gainWordOf g = .error .gainRange)

/-- Every command has an assembler line that assembles to it, with or without a comment; an operand that does not fit its field is an
error; the pseudo-commands stand for the commands they are defined by (30_encoding.md section 4, R85 and R86). Lexical details
are the model's choice (log entries 16 and 17). -/
def Obligations.AssemblerReadsALineOfEachCommand : Prop :=
  (∀ i : Instr, i.wf = true → assembleLine (lineOf i) = some [i]) ∧
  (∀ line comment : List Char, assembleLine (line ++ ';' :: comment) = assembleLine line) ∧
  (∀ ds : List (Fin 10), ds ≠ [] →
    let v := digitsValue ds
    let text := digitsText ds
    assemblesIf (v < 65536) ("SETGL ".toList ++ text) (.setgl (BitVec.ofNat 16 v)) ∧
    assemblesIf (v < 65536) ("SETGH ".toList ++ text) (.setgh (BitVec.ofNat 16 v)) ∧
    assemblesIf (v < 65536) ("SETDLY ".toList ++ text) (.setdly (BitVec.ofNat 16 v)) ∧
    (∀ k, assemblesIf (v < 65536) ("CONS ".toList ++ kindText k ++ ", ".toList ++ text) (.cons k (BitVec.ofNat 16 v))) ∧
    (∀ f, assemblesIf (v < 128) ("BLK ".toList ++ text ++ ", ".toList ++ hexField f) (.blk (BitVec.ofNat 7 v) f)) ∧
    (∀ n : BitVec 7, assemblesIf (v < 65536) ("BLK ".toList ++ hexField (n.setWidth 16) ++ ", ".toList ++ text)
      (.blk n (BitVec.ofNat 16 v))) ∧
    assemblesIf (v ≤ 32767) ("SMP ".toList ++ text) (.smp (BitVec.ofNat 16 v)) ∧
    assemblesIf (v ≤ 32768) ("SMP -".toList ++ text) (.smp (BitVec.ofInt 16 (-v))) ∧
    (∀ x, assemblesIf (v < 16) ("FILT ch".toList ++ text ++ ", ".toList ++ hexField x) (.filt (BitVec.ofNat 4 v) x)) ∧
    (∀ c, assemblesIf (v ≤ 32767) ("FILT ".toList ++ channelText c ++ ", ".toList ++ text) (.filt c (BitVec.ofNat 16 v))) ∧
    (∀ c, assemblesIf (v ≤ 32768) ("FILT ".toList ++ channelText c ++ ", -".toList ++ text) (.filt c (BitVec.ofInt 16 (-v)))) ∧
    assemblesIf (v < 16) ("DLRD ch".toList ++ text) (.dlrd (BitVec.ofNat 4 v)) ∧
    (∀ x, assemblesIf (v < 16) ("DLWR ch".toList ++ text ++ ", ".toList ++ hexField x) (.dlwr (BitVec.ofNat 4 v) x)) ∧
    (∀ c, assemblesIf (v ≤ 32767) ("DLWR ".toList ++ channelText c ++ ", ".toList ++ text) (.dlwr c (BitVec.ofNat 16 v))) ∧
    (∀ c, assemblesIf (v ≤ 32768) ("DLWR ".toList ++ channelText c ++ ", -".toList ++ text) (.dlwr c (BitVec.ofInt 16 (-v)))) ∧
    assemblesIf (v ≤ 13) ("RDST ".toList ++ text) (.rdst (BitVec.ofNat 4 v)) ∧
    assemblesIf (v < 16) ("RDCUR ch".toList ++ text) (.rdcur (BitVec.ofNat 4 v))) ∧
  (∀ g : Word, assembleLine ("SETGAIN ".toList ++ hexWord g) =
    some [.setgl (g.extractLsb 15 0), .setgh (g.extractLsb 31 16)]) ∧
  (∀ (negative : Bool) (whole fraction : List (Fin 10)), whole ≠ [] → fraction ≠ [] →
    assembleLine ("SETGAIN ".toList ++ realText negative whole fraction) =
      (gainWordOf (realValue negative whole fraction)).toOption.map fun g =>
        [.setgl (g.extractLsb 15 0), .setgh (g.extractLsb 31 16)]) ∧
  (∀ (k : Kind) (n delay : Half) (g : Word),
    assembleLine ("CONFIG ".toList ++ kindText k ++ ", ".toList ++ hexField n ++ ", ".toList ++ hexField delay ++ ", ".toList ++
        hexWord g) =
      some [.setdly delay, .setgl (g.extractLsb 15 0), .setgh (g.extractLsb 31 16), .cons k n]) ∧
  ∀ (n : BitVec 7) (f : Half) (xs : List Half),
    assembleLine ("PROCESS ".toList ++ hexField (n.setWidth 16) ++ ", ".toList ++ hexField f ++
        (xs.map fun x => ", ".toList ++ hexField x).flatten) =
      if xs.length = n.toNat * f.toNat then some (.blk n f :: xs.map .smp) else none
end

