-- ==== Sys2Proof/Laws/Arithmetic.lean ====
section
/-! SUPPORT. The arithmetic of the sample operation (00_scope.md R10, R14, R15): ranges of the readings, and what narrowing
loses. -/

namespace Sys2Proof.Machine

theorem sval16_range (v : Half) : -32768 ≤ sval16 v ∧ sval16 v ≤ 32767 := by
  have h1 := BitVec.le_toInt v
  have h2 := BitVec.toInt_lt (x := v)
  unfold sval16
  norm_num at h1 h2
  omega

theorem sval32_range (v : Word) : -2147483648 ≤ sval32 v ∧ sval32 v ≤ 2147483647 := by
  have h1 := BitVec.le_toInt v
  have h2 := BitVec.toInt_lt (x := v)
  unfold sval32
  norm_num at h1 h2
  omega

/-- Narrowing what a 16-bit vector reads as gives the vector back. -/
@[simp] theorem bits16_sval16 (v : Half) : bits16 (sval16 v) = v := by
  simp [bits16, sval16]

/-- Narrowing loses nothing in the range of a sample. -/
theorem sval16_bits16 {i : Int} (h1 : -32768 ≤ i) (h2 : i ≤ 32767) : sval16 (bits16 i) = i := by
  rw [sval16, bits16, BitVec.toInt_ofInt]
  exact Int.bmod_eq_of_le (by norm_num; omega) (by norm_num; omega)

theorem clamp_range {i lo hi : Int} (h : lo ≤ hi) : lo ≤ clamp i lo hi ∧ clamp i lo hi ≤ hi := by
  unfold clamp
  split_ifs <;> omega

theorem clamp_of_mem {i lo hi : Int} (h1 : lo ≤ i) (h2 : i ≤ hi) : clamp i lo hi = i := by
  unfold clamp
  split_ifs <;> omega

/-- The output reads as the saturated value: narrowing it loses nothing (41_comb_filter.md R125). -/
@[simp] theorem sval16_bits16_combValue (gain : Word) (tap x : Half) :
    sval16 (bits16 (combValue gain tap x)) = combValue gain tap x :=
  sval16_bits16 (clamp_range (by norm_num)).1 (clamp_range (by norm_num)).2

/-- Whole numbers are not rounded. -/
theorem roundShift_whole (n : Int) : roundShift (n * 65536) = n := by
  unfold roundShift
  split_ifs <;> omega

end Sys2Proof.Machine
end

