-- ==== Sys2Proof/Laws/Decode.lean ====
section
/-! SUPPORT. The fields of a word of format C (30_encoding.md R70), and what it means for a word to agree with a row of the
opcode map (R77): the lemmas by which every claim about the decoder becomes one about five fields. -/

namespace Sys2Proof

theorem formatC_toNat (op : BitVec 4) (ch : Channel) (k : BitVec 1) (a : BitVec 7) (d : Half) :
    (formatC op ch k a d).toNat =
      op.toNat * 268435456 + ch.toNat * 16777216 + k.toNat * 8388608 + a.toNat * 65536 + d.toNat := by
  show (op ++ ch ++ k ++ a ++ d : BitVec (4 + 4 + 1 + 7 + 16)).toNat = _
  simp only [BitVec.toNat_append]
  rw [← Nat.shiftLeft_add_eq_or_of_lt ch.isLt, ← Nat.shiftLeft_add_eq_or_of_lt k.isLt, ← Nat.shiftLeft_add_eq_or_of_lt a.isLt,
    ← Nat.shiftLeft_add_eq_or_of_lt d.isLt]
  simp only [Nat.shiftLeft_eq]
  omega

@[simp] theorem fieldOP_formatC (op : BitVec 4) (ch : Channel) (k : BitVec 1) (a : BitVec 7) (d : Half) :
    fieldOP (formatC op ch k a d) = op := by
  apply BitVec.eq_of_toNat_eq
  simp only [fieldOP, BitVec.extractLsb_toNat, formatC_toNat, Nat.shiftRight_eq_div_pow]
  omega

@[simp] theorem fieldCH_formatC (op : BitVec 4) (ch : Channel) (k : BitVec 1) (a : BitVec 7) (d : Half) :
    fieldCH (formatC op ch k a d) = ch := by
  apply BitVec.eq_of_toNat_eq
  simp only [fieldCH, BitVec.extractLsb_toNat, formatC_toNat, Nat.shiftRight_eq_div_pow]
  omega

@[simp] theorem fieldK_formatC (op : BitVec 4) (ch : Channel) (k : BitVec 1) (a : BitVec 7) (d : Half) :
    fieldK (formatC op ch k a d) = k := by
  apply BitVec.eq_of_toNat_eq
  simp only [fieldK, BitVec.extractLsb_toNat, formatC_toNat, Nat.shiftRight_eq_div_pow]
  omega

@[simp] theorem fieldA_formatC (op : BitVec 4) (ch : Channel) (k : BitVec 1) (a : BitVec 7) (d : Half) :
    fieldA (formatC op ch k a d) = a := by
  apply BitVec.eq_of_toNat_eq
  simp only [fieldA, BitVec.extractLsb_toNat, formatC_toNat, Nat.shiftRight_eq_div_pow]
  omega

@[simp] theorem fieldD_formatC (op : BitVec 4) (ch : Channel) (k : BitVec 1) (a : BitVec 7) (d : Half) :
    fieldD (formatC op ch k a d) = d := by
  apply BitVec.eq_of_toNat_eq
  simp only [fieldD, BitVec.extractLsb_toNat, formatC_toNat, Nat.shiftRight_eq_div_pow]
  omega

/-- A word is its five fields. -/
theorem formatC_fields (w : Word) : formatC (fieldOP w) (fieldCH w) (fieldK w) (fieldA w) (fieldD w) = w := by
  apply BitVec.eq_of_toNat_eq
  rw [formatC_toNat]
  simp only [fieldOP, fieldCH, fieldK, fieldA, fieldD, BitVec.extractLsb_toNat, Nat.shiftRight_eq_div_pow]
  omega

/-- Words with the same five fields are the same word. -/
theorem word_ext {v w : Word} (hop : fieldOP v = fieldOP w) (hch : fieldCH v = fieldCH w) (hk : fieldK v = fieldK w)
    (ha : fieldA v = fieldA w) (hd : fieldD v = fieldD w) : v = w := by
  rw [← formatC_fields v, ← formatC_fields w, hop, hch, hk, ha, hd]

@[simp] theorem fieldOP_and (v w : Word) : fieldOP (v &&& w) = fieldOP v &&& fieldOP w := by
  simp [fieldOP, BitVec.extractLsb, BitVec.extractLsb'_and]

@[simp] theorem fieldCH_and (v w : Word) : fieldCH (v &&& w) = fieldCH v &&& fieldCH w := by
  simp [fieldCH, BitVec.extractLsb, BitVec.extractLsb'_and]

@[simp] theorem fieldK_and (v w : Word) : fieldK (v &&& w) = fieldK v &&& fieldK w := by
  simp [fieldK, BitVec.extractLsb, BitVec.extractLsb'_and]

@[simp] theorem fieldA_and (v w : Word) : fieldA (v &&& w) = fieldA v &&& fieldA w := by
  simp [fieldA, BitVec.extractLsb, BitVec.extractLsb'_and]

@[simp] theorem fieldD_and (v w : Word) : fieldD (v &&& w) = fieldD v &&& fieldD w := by
  simp [fieldD, BitVec.extractLsb, BitVec.extractLsb'_and]

/-- Agreement with a row is agreement in each field. -/
theorem agrees_iff (w mask pattern : Word) :
    agrees w mask pattern = true ↔
      fieldOP w &&& fieldOP mask = fieldOP pattern ∧ fieldCH w &&& fieldCH mask = fieldCH pattern ∧
      fieldK w &&& fieldK mask = fieldK pattern ∧ fieldA w &&& fieldA mask = fieldA pattern ∧
      fieldD w &&& fieldD mask = fieldD pattern := by
  rw [agrees, beq_iff_eq]
  constructor
  · intro h
    simp [← h]
  · rintro ⟨hop, hch, hk, ha, hd⟩
    exact word_ext (by simpa using hop) (by simpa using hch) (by simpa using hk) (by simpa using ha) (by simpa using hd)

/-- Agreement of a word of format C with a row, field by field. -/
theorem agrees_formatC (op : BitVec 4) (ch : Channel) (k : BitVec 1) (a : BitVec 7) (d : Half) (mask pattern : Word) :
    agrees (formatC op ch k a d) mask pattern =
      (op &&& fieldOP mask == fieldOP pattern && (ch &&& fieldCH mask == fieldCH pattern &&
        (k &&& fieldK mask == fieldK pattern && (a &&& fieldA mask == fieldA pattern &&
          d &&& fieldD mask == fieldD pattern)))) := by
  rw [Bool.eq_iff_iff, agrees_iff]
  simp

/-- The selector of a word of format C is the low four bits of field D. -/
theorem fieldSel_formatC (op : BitVec 4) (ch : Channel) (k : BitVec 1) (a : BitVec 7) (d : Half) :
    fieldSel (formatC op ch k a d) = d.setWidth 4 := by
  apply BitVec.eq_of_toNat_eq
  simp only [fieldSel, BitVec.extractLsb_toNat, formatC_toNat, Nat.shiftRight_eq_div_pow, BitVec.toNat_setWidth]
  omega

@[simp] theorem kindOfBit_kindBit (k : Kind) : kindOfBit (kindBit k) = k := by cases k <;> rfl

@[simp] theorem kindBit_kindOfBit (b : BitVec 1) : kindBit (kindOfBit b) = b := by
  revert b
  decide

/-- The lanes of a word assemble to it. -/
@[simp] theorem wordOfLanes_lanesOfWord (w : Word) : wordOfLanes (lanesOfWord w) = some w := by
  have h : (w.extractLsb 31 24 ++ w.extractLsb 23 16 ++ w.extractLsb 15 8 ++ w.extractLsb 7 0 : BitVec (8 + 8 + 8 + 8)) = w := by
    apply BitVec.eq_of_toNat_eq
    simp only [BitVec.toNat_append, BitVec.extractLsb_toNat]
    rw [← Nat.shiftLeft_add_eq_or_of_lt (Nat.mod_lt _ (by norm_num)), ← Nat.shiftLeft_add_eq_or_of_lt (Nat.mod_lt _ (by norm_num)),
      ← Nat.shiftLeft_add_eq_or_of_lt (Nat.mod_lt _ (by norm_num))]
    simp only [Nat.shiftLeft_eq, Nat.shiftRight_eq_div_pow]
    omega
  exact congrArg some h

end Sys2Proof
end

