-- ==== Sys2Proof/Laws/State.lean ====
section
/-! SUPPORT. One lemma per field per update of the architectural state and of the machine, so that no proof unfolds an update. -/

namespace Sys2Proof.Machine

/-! ### dlWrite -/

@[simp] theorem Arch.dlWrite_configured (c : Channel) (i v : Half) (a : Arch) :
    (a.dlWrite c i v).configured = a.configured := rfl
@[simp] theorem Arch.dlWrite_kind (c : Channel) (i v : Half) (a : Arch) : (a.dlWrite c i v).kind = a.kind := rfl
@[simp] theorem Arch.dlWrite_nch (c : Channel) (i v : Half) (a : Arch) : (a.dlWrite c i v).nch = a.nch := rfl
@[simp] theorem Arch.dlWrite_delay (c : Channel) (i v : Half) (a : Arch) : (a.dlWrite c i v).delay = a.delay := rfl
@[simp] theorem Arch.dlWrite_gain (c : Channel) (i v : Half) (a : Arch) : (a.dlWrite c i v).gain = a.gain := rfl
@[simp] theorem Arch.dlWrite_sgain (c : Channel) (i v : Half) (a : Arch) : (a.dlWrite c i v).sgain = a.sgain := rfl
@[simp] theorem Arch.dlWrite_sdelay (c : Channel) (i v : Half) (a : Arch) : (a.dlWrite c i v).sdelay = a.sdelay := rfl
@[simp] theorem Arch.dlWrite_dl (c : Channel) (i v : Half) (a : Arch) :
    (a.dlWrite c i v).dl = a.dl.write (slotAddr c.toNat i.toNat) v := rfl
@[simp] theorem Arch.dlWrite_cur (c : Channel) (i v : Half) (a : Arch) : (a.dlWrite c i v).cur = a.cur := rfl
@[simp] theorem Arch.dlWrite_blkActive (c : Channel) (i v : Half) (a : Arch) : (a.dlWrite c i v).blkActive = a.blkActive := rfl
@[simp] theorem Arch.dlWrite_blkCh (c : Channel) (i v : Half) (a : Arch) : (a.dlWrite c i v).blkCh = a.blkCh := rfl
@[simp] theorem Arch.dlWrite_blkFrame (c : Channel) (i v : Half) (a : Arch) : (a.dlWrite c i v).blkFrame = a.blkFrame := rfl
@[simp] theorem Arch.dlWrite_blkFrames (c : Channel) (i v : Half) (a : Arch) : (a.dlWrite c i v).blkFrames = a.blkFrames := rfl

/-! ### setCursor -/

@[simp] theorem Arch.setCursor_configured (c : Channel) (v : Half) (a : Arch) :
    (a.setCursor c v).configured = a.configured := rfl
@[simp] theorem Arch.setCursor_kind (c : Channel) (v : Half) (a : Arch) : (a.setCursor c v).kind = a.kind := rfl
@[simp] theorem Arch.setCursor_nch (c : Channel) (v : Half) (a : Arch) : (a.setCursor c v).nch = a.nch := rfl
@[simp] theorem Arch.setCursor_delay (c : Channel) (v : Half) (a : Arch) : (a.setCursor c v).delay = a.delay := rfl
@[simp] theorem Arch.setCursor_gain (c : Channel) (v : Half) (a : Arch) : (a.setCursor c v).gain = a.gain := rfl
@[simp] theorem Arch.setCursor_sgain (c : Channel) (v : Half) (a : Arch) : (a.setCursor c v).sgain = a.sgain := rfl
@[simp] theorem Arch.setCursor_sdelay (c : Channel) (v : Half) (a : Arch) : (a.setCursor c v).sdelay = a.sdelay := rfl
@[simp] theorem Arch.setCursor_dl (c : Channel) (v : Half) (a : Arch) : (a.setCursor c v).dl = a.dl := rfl
@[simp] theorem Arch.setCursor_cur (c : Channel) (v : Half) (a : Arch) : (a.setCursor c v).cur = a.cur.write c.toNat v := rfl
@[simp] theorem Arch.setCursor_blkActive (c : Channel) (v : Half) (a : Arch) : (a.setCursor c v).blkActive = a.blkActive := rfl
@[simp] theorem Arch.setCursor_blkCh (c : Channel) (v : Half) (a : Arch) : (a.setCursor c v).blkCh = a.blkCh := rfl
@[simp] theorem Arch.setCursor_blkFrame (c : Channel) (v : Half) (a : Arch) : (a.setCursor c v).blkFrame = a.blkFrame := rfl
@[simp] theorem Arch.setCursor_blkFrames (c : Channel) (v : Half) (a : Arch) : (a.setCursor c v).blkFrames = a.blkFrames := rfl

/-! ### openBlock -/

@[simp] theorem Arch.openBlock_configured (f : Half) (a : Arch) : (a.openBlock f).configured = a.configured := rfl
@[simp] theorem Arch.openBlock_kind (f : Half) (a : Arch) : (a.openBlock f).kind = a.kind := rfl
@[simp] theorem Arch.openBlock_nch (f : Half) (a : Arch) : (a.openBlock f).nch = a.nch := rfl
@[simp] theorem Arch.openBlock_delay (f : Half) (a : Arch) : (a.openBlock f).delay = a.delay := rfl
@[simp] theorem Arch.openBlock_gain (f : Half) (a : Arch) : (a.openBlock f).gain = a.gain := rfl
@[simp] theorem Arch.openBlock_sgain (f : Half) (a : Arch) : (a.openBlock f).sgain = a.sgain := rfl
@[simp] theorem Arch.openBlock_sdelay (f : Half) (a : Arch) : (a.openBlock f).sdelay = a.sdelay := rfl
@[simp] theorem Arch.openBlock_dl (f : Half) (a : Arch) : (a.openBlock f).dl = a.dl := rfl
@[simp] theorem Arch.openBlock_cur (f : Half) (a : Arch) : (a.openBlock f).cur = a.cur := rfl
@[simp] theorem Arch.openBlock_blkActive (f : Half) (a : Arch) : (a.openBlock f).blkActive = true := rfl
@[simp] theorem Arch.openBlock_blkCh (f : Half) (a : Arch) : (a.openBlock f).blkCh = 0 := rfl
@[simp] theorem Arch.openBlock_blkFrame (f : Half) (a : Arch) : (a.openBlock f).blkFrame = 0 := rfl
@[simp] theorem Arch.openBlock_blkFrames (f : Half) (a : Arch) : (a.openBlock f).blkFrames = f := rfl

/-! ### construct -/

@[simp] theorem Arch.construct_configured (k : Kind) (n : Half) (a : Arch) : (a.construct k n).configured = true := rfl
@[simp] theorem Arch.construct_kind (k : Kind) (n : Half) (a : Arch) : (a.construct k n).kind = k := rfl
@[simp] theorem Arch.construct_nch (k : Kind) (n : Half) (a : Arch) : (a.construct k n).nch = n.setWidth 5 := rfl
@[simp] theorem Arch.construct_delay (k : Kind) (n : Half) (a : Arch) : (a.construct k n).delay = a.sdelay := rfl
@[simp] theorem Arch.construct_gain (k : Kind) (n : Half) (a : Arch) : (a.construct k n).gain = a.sgain := rfl
@[simp] theorem Arch.construct_sgain (k : Kind) (n : Half) (a : Arch) : (a.construct k n).sgain = a.sgain := rfl
@[simp] theorem Arch.construct_sdelay (k : Kind) (n : Half) (a : Arch) : (a.construct k n).sdelay = a.sdelay := rfl
@[simp] theorem Arch.construct_dl (k : Kind) (n : Half) (a : Arch) :
    (a.construct k n).dl = a.dl.clear (lineRegion n.toNat a.sdelay.toNat) := rfl
@[simp] theorem Arch.construct_cur (k : Kind) (n : Half) (a : Arch) :
    (a.construct k n).cur = a.cur.clear (cursorRegion n.toNat) := rfl
@[simp] theorem Arch.construct_blkActive (k : Kind) (n : Half) (a : Arch) : (a.construct k n).blkActive = a.blkActive := rfl
@[simp] theorem Arch.construct_blkCh (k : Kind) (n : Half) (a : Arch) : (a.construct k n).blkCh = a.blkCh := rfl
@[simp] theorem Arch.construct_blkFrame (k : Kind) (n : Half) (a : Arch) : (a.construct k n).blkFrame = a.blkFrame := rfl
@[simp] theorem Arch.construct_blkFrames (k : Kind) (n : Half) (a : Arch) : (a.construct k n).blkFrames = a.blkFrames := rfl

/-! ### destroy -/

@[simp] theorem Arch.destroy_configured (a : Arch) : (a.destroy).configured = false := rfl
@[simp] theorem Arch.destroy_kind (a : Arch) : (a.destroy).kind = .fir := rfl
@[simp] theorem Arch.destroy_nch (a : Arch) : (a.destroy).nch = 0 := rfl
@[simp] theorem Arch.destroy_delay (a : Arch) : (a.destroy).delay = 0 := rfl
@[simp] theorem Arch.destroy_gain (a : Arch) : (a.destroy).gain = 0 := rfl
@[simp] theorem Arch.destroy_sgain (a : Arch) : (a.destroy).sgain = a.sgain := rfl
@[simp] theorem Arch.destroy_sdelay (a : Arch) : (a.destroy).sdelay = a.sdelay := rfl
@[simp] theorem Arch.destroy_dl (a : Arch) : (a.destroy).dl = a.dl := rfl
@[simp] theorem Arch.destroy_cur (a : Arch) : (a.destroy).cur = a.cur := rfl
@[simp] theorem Arch.destroy_blkActive (a : Arch) : (a.destroy).blkActive = false := rfl
@[simp] theorem Arch.destroy_blkCh (a : Arch) : (a.destroy).blkCh = 0 := rfl
@[simp] theorem Arch.destroy_blkFrame (a : Arch) : (a.destroy).blkFrame = 0 := rfl
@[simp] theorem Arch.destroy_blkFrames (a : Arch) : (a.destroy).blkFrames = 0 := rfl

/-! ### adv: only the cursors -/

/-- The advance is one write of the cursor (40_delay_line.md R101). -/
theorem Arch.adv_eq (c : Channel) (a : Arch) :
    a.adv c = a.setCursor c (if (a.cursor c).toNat + 1 = a.delay.toNat then 0 else a.cursor c + 1) := by
  unfold Arch.adv
  split_ifs <;> rfl

@[simp] theorem Arch.adv_configured (c : Channel) (a : Arch) : (a.adv c).configured = a.configured := by rw [Arch.adv_eq]; rfl
@[simp] theorem Arch.adv_kind (c : Channel) (a : Arch) : (a.adv c).kind = a.kind := by rw [Arch.adv_eq]; rfl
@[simp] theorem Arch.adv_nch (c : Channel) (a : Arch) : (a.adv c).nch = a.nch := by rw [Arch.adv_eq]; rfl
@[simp] theorem Arch.adv_delay (c : Channel) (a : Arch) : (a.adv c).delay = a.delay := by rw [Arch.adv_eq]; rfl
@[simp] theorem Arch.adv_gain (c : Channel) (a : Arch) : (a.adv c).gain = a.gain := by rw [Arch.adv_eq]; rfl
@[simp] theorem Arch.adv_sgain (c : Channel) (a : Arch) : (a.adv c).sgain = a.sgain := by rw [Arch.adv_eq]; rfl
@[simp] theorem Arch.adv_sdelay (c : Channel) (a : Arch) : (a.adv c).sdelay = a.sdelay := by rw [Arch.adv_eq]; rfl
@[simp] theorem Arch.adv_dl (c : Channel) (a : Arch) : (a.adv c).dl = a.dl := by rw [Arch.adv_eq]; rfl
@[simp] theorem Arch.adv_blkActive (c : Channel) (a : Arch) : (a.adv c).blkActive = a.blkActive := by rw [Arch.adv_eq]; rfl
@[simp] theorem Arch.adv_blkCh (c : Channel) (a : Arch) : (a.adv c).blkCh = a.blkCh := by rw [Arch.adv_eq]; rfl
@[simp] theorem Arch.adv_blkFrame (c : Channel) (a : Arch) : (a.adv c).blkFrame = a.blkFrame := by rw [Arch.adv_eq]; rfl
@[simp] theorem Arch.adv_blkFrames (c : Channel) (a : Arch) : (a.adv c).blkFrames = a.blkFrames := by rw [Arch.adv_eq]; rfl

/-! ### lineWrite: only the slots and the cursors -/

@[simp] theorem Arch.lineWrite_configured (c : Channel) (v : Half) (a : Arch) :
    (a.lineWrite c v).configured = a.configured := by rw [Arch.lineWrite, Arch.adv_eq]; rfl
@[simp] theorem Arch.lineWrite_kind (c : Channel) (v : Half) (a : Arch) :
    (a.lineWrite c v).kind = a.kind := by rw [Arch.lineWrite, Arch.adv_eq]; rfl
@[simp] theorem Arch.lineWrite_nch (c : Channel) (v : Half) (a : Arch) :
    (a.lineWrite c v).nch = a.nch := by rw [Arch.lineWrite, Arch.adv_eq]; rfl
@[simp] theorem Arch.lineWrite_delay (c : Channel) (v : Half) (a : Arch) :
    (a.lineWrite c v).delay = a.delay := by rw [Arch.lineWrite, Arch.adv_eq]; rfl
@[simp] theorem Arch.lineWrite_gain (c : Channel) (v : Half) (a : Arch) :
    (a.lineWrite c v).gain = a.gain := by rw [Arch.lineWrite, Arch.adv_eq]; rfl
@[simp] theorem Arch.lineWrite_sgain (c : Channel) (v : Half) (a : Arch) :
    (a.lineWrite c v).sgain = a.sgain := by rw [Arch.lineWrite, Arch.adv_eq]; rfl
@[simp] theorem Arch.lineWrite_sdelay (c : Channel) (v : Half) (a : Arch) :
    (a.lineWrite c v).sdelay = a.sdelay := by rw [Arch.lineWrite, Arch.adv_eq]; rfl
@[simp] theorem Arch.lineWrite_dl (c : Channel) (v : Half) (a : Arch) :
    (a.lineWrite c v).dl = a.dl.write (slotAddr c.toNat (a.cursor c).toNat) v := by rw [Arch.lineWrite, Arch.adv_eq]; rfl
@[simp] theorem Arch.lineWrite_blkActive (c : Channel) (v : Half) (a : Arch) :
    (a.lineWrite c v).blkActive = a.blkActive := by rw [Arch.lineWrite, Arch.adv_eq]; rfl
@[simp] theorem Arch.lineWrite_blkCh (c : Channel) (v : Half) (a : Arch) :
    (a.lineWrite c v).blkCh = a.blkCh := by rw [Arch.lineWrite, Arch.adv_eq]; rfl
@[simp] theorem Arch.lineWrite_blkFrame (c : Channel) (v : Half) (a : Arch) :
    (a.lineWrite c v).blkFrame = a.blkFrame := by rw [Arch.lineWrite, Arch.adv_eq]; rfl
@[simp] theorem Arch.lineWrite_blkFrames (c : Channel) (v : Half) (a : Arch) :
    (a.lineWrite c v).blkFrames = a.blkFrames := by rw [Arch.lineWrite, Arch.adv_eq]; rfl

/-! ### sampleOp: one lineWrite and the output -/

/-- The value a sample operation writes back (41_comb_filter.md R126, R127). -/
theorem Arch.sampleOp_eq (c : Channel) (x : Half) (a : Arch) :
    a.sampleOp c x =
      (a.lineWrite c (match a.kind with
        | .fir => bits16 (sval16 x)
        | .iir => bits16 (combValue a.gain (a.tap c) x)),
       bits16 (combValue a.gain (a.tap c) x)) := by
  unfold Arch.sampleOp
  cases a.kind <;> rfl

@[simp] theorem Arch.sampleOp_configured (c : Channel) (x : Half) (a : Arch) :
    (a.sampleOp c x).1.configured = a.configured := by simp [Arch.sampleOp]
@[simp] theorem Arch.sampleOp_kind (c : Channel) (x : Half) (a : Arch) :
    (a.sampleOp c x).1.kind = a.kind := by simp [Arch.sampleOp]
@[simp] theorem Arch.sampleOp_nch (c : Channel) (x : Half) (a : Arch) :
    (a.sampleOp c x).1.nch = a.nch := by simp [Arch.sampleOp]
@[simp] theorem Arch.sampleOp_delay (c : Channel) (x : Half) (a : Arch) :
    (a.sampleOp c x).1.delay = a.delay := by simp [Arch.sampleOp]
@[simp] theorem Arch.sampleOp_gain (c : Channel) (x : Half) (a : Arch) :
    (a.sampleOp c x).1.gain = a.gain := by simp [Arch.sampleOp]
@[simp] theorem Arch.sampleOp_sgain (c : Channel) (x : Half) (a : Arch) :
    (a.sampleOp c x).1.sgain = a.sgain := by simp [Arch.sampleOp]
@[simp] theorem Arch.sampleOp_sdelay (c : Channel) (x : Half) (a : Arch) :
    (a.sampleOp c x).1.sdelay = a.sdelay := by simp [Arch.sampleOp]
@[simp] theorem Arch.sampleOp_blkActive (c : Channel) (x : Half) (a : Arch) :
    (a.sampleOp c x).1.blkActive = a.blkActive := by simp [Arch.sampleOp]
@[simp] theorem Arch.sampleOp_blkCh (c : Channel) (x : Half) (a : Arch) :
    (a.sampleOp c x).1.blkCh = a.blkCh := by simp [Arch.sampleOp]
@[simp] theorem Arch.sampleOp_blkFrame (c : Channel) (x : Half) (a : Arch) :
    (a.sampleOp c x).1.blkFrame = a.blkFrame := by simp [Arch.sampleOp]
@[simp] theorem Arch.sampleOp_blkFrames (c : Channel) (x : Half) (a : Arch) :
    (a.sampleOp c x).1.blkFrames = a.blkFrames := by simp [Arch.sampleOp]
@[simp] theorem Arch.sampleOp_output (c : Channel) (x : Half) (a : Arch) :
    (a.sampleOp c x).2 = bits16 (combValue a.gain (a.tap c) x) := rfl

/-! ### nextInBlock: only the sequencer -/

@[simp] theorem Arch.nextInBlock_configured (a : Arch) :
    a.nextInBlock.configured = a.configured := by unfold Arch.nextInBlock; split_ifs <;> rfl
@[simp] theorem Arch.nextInBlock_kind (a : Arch) : a.nextInBlock.kind = a.kind := by unfold Arch.nextInBlock; split_ifs <;> rfl
@[simp] theorem Arch.nextInBlock_nch (a : Arch) : a.nextInBlock.nch = a.nch := by unfold Arch.nextInBlock; split_ifs <;> rfl
@[simp] theorem Arch.nextInBlock_delay (a : Arch) :
    a.nextInBlock.delay = a.delay := by unfold Arch.nextInBlock; split_ifs <;> rfl
@[simp] theorem Arch.nextInBlock_gain (a : Arch) : a.nextInBlock.gain = a.gain := by unfold Arch.nextInBlock; split_ifs <;> rfl
@[simp] theorem Arch.nextInBlock_sgain (a : Arch) :
    a.nextInBlock.sgain = a.sgain := by unfold Arch.nextInBlock; split_ifs <;> rfl
@[simp] theorem Arch.nextInBlock_sdelay (a : Arch) :
    a.nextInBlock.sdelay = a.sdelay := by unfold Arch.nextInBlock; split_ifs <;> rfl
@[simp] theorem Arch.nextInBlock_dl (a : Arch) : a.nextInBlock.dl = a.dl := by unfold Arch.nextInBlock; split_ifs <;> rfl
@[simp] theorem Arch.nextInBlock_cur (a : Arch) : a.nextInBlock.cur = a.cur := by unfold Arch.nextInBlock; split_ifs <;> rfl

/-! ### The machine -/

@[simp] theorem State.respond_part (rop : BitVec 4) (code : Code) (data : Half) (a : Arch) (s : State) :
    (s.respond rop code data a).part = s.part := rfl
@[simp] theorem State.respond_arch (rop : BitVec 4) (code : Code) (data : Half) (a : Arch) (s : State) :
    (s.respond rop code data a).arch = a := rfl
@[simp] theorem State.respond_inbox (rop : BitVec 4) (code : Code) (data : Half) (a : Arch) (s : State) :
    (s.respond rop code data a).inbox = s.inbox := rfl
@[simp] theorem State.respond_requester (rop : BitVec 4) (code : Code) (data : Half) (a : Arch) (s : State) :
    (s.respond rop code data a).requester = s.requester := rfl
@[simp] theorem State.respond_outbox (rop : BitVec 4) (code : Code) (data : Half) (a : Arch) (s : State) :
    (s.respond rop code data a).outbox = s.outbox ++ [{ host := s.requester, word := responseWord rop code a.blkActive a.configured data }] := rfl
@[simp] theorem State.resetTo_part (dl cur : List (Nat × Half)) (s : State) : (s.resetTo dl cur).part = s.part := rfl
@[simp] theorem State.resetTo_inbox (dl cur : List (Nat × Half)) (s : State) : (s.resetTo dl cur).inbox = s.inbox := rfl
@[simp] theorem State.resetTo_requester (dl cur : List (Nat × Half)) (s : State) :
    (s.resetTo dl cur).requester = s.requester := rfl
@[simp] theorem State.resetTo_outbox (dl cur : List (Nat × Half)) (s : State) : (s.resetTo dl cur).outbox = s.outbox := rfl
@[simp] theorem State.pushWord_part (w : Word) (s : State) : (s.pushWord w).part = s.part := rfl
@[simp] theorem State.pushWord_arch (w : Word) (s : State) : (s.pushWord w).arch = s.arch := rfl
@[simp] theorem State.pushWord_inbox (w : Word) (s : State) : (s.pushWord w).inbox = .command 0 w :: s.inbox := rfl
@[simp] theorem State.pushWord_requester (w : Word) (s : State) : (s.pushWord w).requester = s.requester := rfl
@[simp] theorem State.pushWord_outbox (w : Word) (s : State) : (s.pushWord w).outbox = s.outbox := rfl

end Sys2Proof.Machine
end

