-- ==== Sys2Proof/Laws/Exec.lean ====
section
/-! SUPPORT. What a command can do, said once: `exec` always answers a next state that is one response away, and a response
other than OK leaves the architectural state alone (60_exceptions.md R201). -/

namespace Sys2Proof.Machine

/-- Every end of a command, by `State.done` or by `State.fail`, has this form. -/
def endsWith (rop : BitVec 4) (s : State) (o : Host.Outcome State Fault Refusal) : Prop :=
  ∃ code data a, o = .next (s.respond rop code data a) ∧ (code ≠ .ok → a = s.arch ∧ data = 0)

theorem endsWith_done (rop : BitVec 4) (data : Half) (a : Arch) (s : State) : endsWith rop s (s.done rop data a) :=
  ⟨.ok, data, a, rfl, fun h => absurd rfl h⟩

theorem endsWith_fail (rop : BitVec 4) (code : Code) (s : State) : endsWith rop s (s.fail rop code) :=
  ⟨code, 0, s.arch, rfl, fun _ => ⟨rfl, rfl⟩⟩

theorem execCons_ends (k : Kind) (n : Half) (s : State) : endsWith 0x4 s (execCons k n s) := by
  unfold execCons
  split_ifs
  · exact endsWith_fail _ _ _
  · exact endsWith_fail _ _ _
  · exact endsWith_fail _ _ _
  · exact endsWith_done _ _ _ _

theorem execBlk_ends (n : BitVec 7) (f : Half) (s : State) : endsWith 0x6 s (execBlk n f s) := by
  unfold execBlk
  split_ifs
  · exact endsWith_fail _ _ _
  · exact endsWith_fail _ _ _
  · exact endsWith_fail _ _ _
  · exact endsWith_done _ _ _ _
  · exact endsWith_done _ _ _ _

theorem execSmp_ends (x : Half) (s : State) : endsWith 0x7 s (execSmp x s) := by
  unfold execSmp
  split_ifs
  · exact endsWith_fail _ _ _
  · exact endsWith_done _ _ _ _

theorem execFilt_ends (c : Channel) (x : Half) (s : State) : endsWith 0x8 s (execFilt c x s) := by
  unfold execFilt
  split_ifs
  · exact endsWith_fail _ _ _
  · exact endsWith_fail _ _ _
  · exact endsWith_fail _ _ _
  · exact endsWith_done _ _ _ _

theorem execDlrd_ends (c : Channel) (s : State) : endsWith 0x9 s (execDlrd c s) := by
  unfold execDlrd
  split_ifs
  · exact endsWith_fail _ _ _
  · exact endsWith_fail _ _ _
  · exact endsWith_done _ _ _ _

theorem execDlwr_ends (c : Channel) (v : Half) (s : State) : endsWith 0xA s (execDlwr c v s) := by
  unfold execDlwr
  split_ifs
  · exact endsWith_fail _ _ _
  · exact endsWith_fail _ _ _
  · exact endsWith_fail _ _ _
  · exact endsWith_done _ _ _ _

theorem execRdst_ends (sel : BitVec 4) (s : State) : endsWith 0xB s (execRdst sel s) := by
  unfold execRdst
  split
  · exact endsWith_done _ _ _ _
  · exact endsWith_fail _ _ _

theorem execRdcur_ends (c : Channel) (s : State) : endsWith 0xC s (execRdcur c s) := by
  unfold execRdcur
  split_ifs
  · exact endsWith_fail _ _ _
  · exact endsWith_fail _ _ _
  · exact endsWith_done _ _ _ _

/-- Every command answers a next state with one response more, and none but an OK changes the architectural state. -/
theorem exec_ends (i : Instr) (s : State) : endsWith i.op s (exec i s) := by
  cases i with
  | nop => exact endsWith_done _ _ _ _
  | setgl d => exact endsWith_done _ _ _ _
  | setgh d => exact endsWith_done _ _ _ _
  | setdly d => exact endsWith_done _ _ _ _
  | cons k n => exact execCons_ends k n s
  | dstr => exact endsWith_done _ _ _ _
  | blk n f => exact execBlk_ends n f s
  | smp x => exact execSmp_ends x s
  | filt c x => exact execFilt_ends c x s
  | dlrd c => exact execDlrd_ends c s
  | dlwr c v => exact execDlwr_ends c v s
  | rdst sel => exact execRdst_ends sel s
  | rdcur c => exact execRdcur_ends c s

/-- Every word, legal or not, answers a next state with one response more. -/
theorem runWord_ends (w : Word) (s : State) : ∃ rop, endsWith rop s (s.runWord w) := by
  unfold State.runWord
  split
  · exact ⟨_, exec_ends _ s⟩
  · exact ⟨_, endsWith_fail _ _ _⟩

end Sys2Proof.Machine
end

