-- ==== Sys2Proof/Laws/Memory.lean ====
section
/-! SUPPORT. The laws of the store: read after write, the canonical form is kept by every operation, and two stores in canonical
form that read the same are the same list. -/

namespace Sys2Proof.Machine

@[simp] theorem Memory.read_nil (a : Nat) : Memory.read [] a = Memory.absent := rfl

theorem Memory.read_cons (k : Nat) (v : Half) (m : Memory) (a : Nat) :
    Memory.read ((k, v) :: m) a = if k = a then v else Memory.read m a := rfl

/-! ### The canonical form -/

theorem Memory.wfAbove_cons (lo k : Nat) (v : Half) (m : Memory) :
    Memory.wfAbove lo ((k, v) :: m) = true ↔ lo < k ∧ v ≠ Memory.absent ∧ Memory.wfAbove k m = true := by
  simp [Memory.wfAbove, and_assoc]

theorem Memory.wf_cons (k : Nat) (v : Half) (m : Memory) :
    Memory.wf ((k, v) :: m) = true ↔ v ≠ Memory.absent ∧ Memory.wfAbove k m = true := by
  simp [Memory.wf]

theorem Memory.wfAbove_mono {lo lo' : Nat} {m : Memory} (h : Memory.wfAbove lo m = true) (hlo : lo' ≤ lo) :
    Memory.wfAbove lo' m = true := by
  cases m with
  | nil => rfl
  | cons cell m =>
    obtain ⟨k, v⟩ := cell
    rw [Memory.wfAbove_cons] at h ⊢
    exact ⟨by omega, h.2⟩

theorem Memory.wf_of_wfAbove {lo : Nat} {m : Memory} (h : Memory.wfAbove lo m = true) : m.wf = true := by
  cases m with
  | nil => rfl
  | cons cell m =>
    obtain ⟨k, v⟩ := cell
    rw [Memory.wfAbove_cons] at h
    rw [Memory.wf_cons]
    exact h.2

theorem Memory.read_of_wfAbove {lo : Nat} {m : Memory} (h : Memory.wfAbove lo m = true) {a : Nat} (ha : a ≤ lo) :
    m.read a = Memory.absent := by
  induction m generalizing lo with
  | nil => rfl
  | cons cell m ih =>
    obtain ⟨k, v⟩ := cell
    rw [Memory.wfAbove_cons] at h
    rw [Memory.read_cons, if_neg (by omega)]
    exact ih h.2.2 (by omega)

/-! ### Writing -/

theorem Memory.write_wfAbove {lo : Nat} {m : Memory} (h : Memory.wfAbove lo m = true) {a : Nat} (ha : lo < a) (v : Half) :
    Memory.wfAbove lo (m.write a v) = true := by
  induction m generalizing lo with
  | nil => by_cases hv : v = Memory.absent <;> simp [Memory.write, Memory.wfAbove, hv, ha]
  | cons cell m ih =>
    obtain ⟨k, w⟩ := cell
    rw [Memory.wfAbove_cons] at h
    obtain ⟨hk, hw, hm⟩ := h
    simp only [Memory.write]
    split_ifs with h1 h2 h3 h4
    · rw [Memory.wfAbove_cons]; exact ⟨hk, hw, hm⟩
    · rw [Memory.wfAbove_cons, Memory.wfAbove_cons]; exact ⟨ha, h2, h1, hw, hm⟩
    · exact Memory.wfAbove_mono hm (by omega)
    · rw [Memory.wfAbove_cons]; exact ⟨ha, h4, h3 ▸ hm⟩
    · rw [Memory.wfAbove_cons]; exact ⟨hk, hw, ih hm (by omega)⟩

/-- A write keeps the canonical form. -/
theorem Memory.write_wf {m : Memory} (h : m.wf = true) (a : Nat) (v : Half) : (m.write a v).wf = true := by
  cases m with
  | nil => by_cases hv : v = Memory.absent <;> simp [Memory.write, Memory.wf, Memory.wfAbove, hv]
  | cons cell m =>
    obtain ⟨k, w⟩ := cell
    rw [Memory.wf_cons] at h
    obtain ⟨hw, hm⟩ := h
    simp only [Memory.write]
    split_ifs with h1 h2 h3 h4
    · rw [Memory.wf_cons]; exact ⟨hw, hm⟩
    · rw [Memory.wf_cons, Memory.wfAbove_cons]; exact ⟨h2, h1, hw, hm⟩
    · exact Memory.wf_of_wfAbove hm
    · rw [Memory.wf_cons]; exact ⟨h4, h3 ▸ hm⟩
    · rw [Memory.wf_cons]; exact ⟨hw, Memory.write_wfAbove hm (by omega) v⟩

/-- Reading the address written gives the value written. -/
theorem Memory.read_write_same {m : Memory} (h : m.wf = true) (a : Nat) (v : Half) : (m.write a v).read a = v := by
  induction m with
  | nil => by_cases hv : v = Memory.absent <;> simp [Memory.write, Memory.read, hv]
  | cons cell m ih =>
    obtain ⟨k, w⟩ := cell
    rw [Memory.wf_cons] at h
    obtain ⟨-, hm⟩ := h
    simp only [Memory.write]
    split_ifs with h1 h2 h3 h4
    · rw [Memory.read_cons, if_neg (by omega), h2]
      exact Memory.read_of_wfAbove hm (by omega)
    · rw [Memory.read_cons, if_pos rfl]
    · rw [h4]
      exact Memory.read_of_wfAbove hm (by omega)
    · rw [Memory.read_cons, if_pos rfl]
    · rw [Memory.read_cons, if_neg (by omega)]
      exact ih (Memory.wf_of_wfAbove hm)

/-- A write leaves every other address alone. -/
theorem Memory.read_write_other (m : Memory) {a b : Nat} (hab : b ≠ a) (v : Half) : (m.write a v).read b = m.read b := by
  induction m with
  | nil => by_cases hv : v = Memory.absent <;> simp [Memory.write, Memory.read, hv, Ne.symm hab]
  | cons cell m ih =>
    obtain ⟨k, w⟩ := cell
    simp only [Memory.write]
    split_ifs with h1 h2 h3 h4
    · rfl
    · rw [Memory.read_cons, if_neg (Ne.symm hab)]
    · rw [Memory.read_cons, if_neg (by omega)]
    · rw [Memory.read_cons, Memory.read_cons, if_neg (Ne.symm hab), if_neg (by omega)]
    · rw [Memory.read_cons, Memory.read_cons, ih]

theorem Memory.within_cons (region : Nat → Bool) (k : Nat) (v : Half) (m : Memory) :
    Memory.within region ((k, v) :: m) = true ↔ region k = true ∧ Memory.within region m = true := by
  simp [Memory.within]

/-- A write to an address of a region keeps the store within it. -/
theorem Memory.write_within {region : Nat → Bool} {m : Memory} (h : m.within region = true) {a : Nat} (ha : region a = true)
    (v : Half) : Memory.within region (m.write a v) = true := by
  induction m with
  | nil => by_cases hv : v = Memory.absent <;> simp [Memory.write, Memory.within, hv, ha]
  | cons cell m ih =>
    obtain ⟨k, w⟩ := cell
    obtain ⟨hk, hm⟩ := (Memory.within_cons _ _ _ _).1 h
    simp only [Memory.write]
    split_ifs <;> simp only [Memory.within_cons, ha, hk, hm, ih hm, and_self]

/-! ### Clearing a region -/

theorem Memory.clear_cons (region : Nat → Bool) (k : Nat) (v : Half) (m : Memory) :
    Memory.clear region ((k, v) :: m) =
      if region k = true then Memory.clear region m else (k, v) :: Memory.clear region m := by
  by_cases hr : region k = true <;> simp [Memory.clear, hr]

theorem Memory.clear_wfAbove {lo : Nat} {m : Memory} (h : Memory.wfAbove lo m = true) (region : Nat → Bool) :
    Memory.wfAbove lo (m.clear region) = true := by
  induction m generalizing lo with
  | nil => rfl
  | cons cell m ih =>
    obtain ⟨k, v⟩ := cell
    obtain ⟨hk, hv, hm⟩ := (Memory.wfAbove_cons _ _ _ _).1 h
    rw [Memory.clear_cons]
    split_ifs
    · exact ih (Memory.wfAbove_mono hm (Nat.le_of_lt hk))
    · exact (Memory.wfAbove_cons _ _ _ _).2 ⟨hk, hv, ih hm⟩

/-- Clearing a region keeps the canonical form. -/
theorem Memory.clear_wf {m : Memory} (h : m.wf = true) (region : Nat → Bool) : (m.clear region).wf = true := by
  cases m with
  | nil => rfl
  | cons cell m =>
    obtain ⟨k, v⟩ := cell
    obtain ⟨hv, hm⟩ := (Memory.wf_cons _ _ _).1 h
    rw [Memory.clear_cons]
    split_ifs
    · exact Memory.wf_of_wfAbove (Memory.clear_wfAbove hm region)
    · exact (Memory.wf_cons _ _ _).2 ⟨hv, Memory.clear_wfAbove hm region⟩

/-- A cleared region reads 0, everything else as before. -/
theorem Memory.read_clear (region : Nat → Bool) (m : Memory) (a : Nat) :
    (m.clear region).read a = if region a = true then Memory.absent else m.read a := by
  induction m with
  | nil => simp [Memory.clear, Memory.read]
  | cons cell m ih =>
    obtain ⟨k, v⟩ := cell
    rw [Memory.clear_cons]
    by_cases hka : k = a
    · subst hka
      by_cases hr : region k = true <;> simp [hr, ih, Memory.read_cons]
    · by_cases hr : region k = true <;> simp [hr, ih, Memory.read_cons, hka]

theorem Memory.clear_within {region : Nat → Bool} {m : Memory} (h : m.within region = true) (cleared : Nat → Bool) :
    Memory.within region (m.clear cleared) = true := by
  simp only [Memory.within, Memory.clear, List.all_eq_true, List.mem_filter] at h ⊢
  exact fun cell hc => h cell hc.1

/-! ### Contents from a list of cells -/

theorem Memory.foldl_cells_keeps (region : Nat → Bool) (cells : List (Nat × Half)) {m : Memory} (hm : m.wf = true)
    (hr : m.within region = true) :
    Memory.wf (cells.foldl (fun m cell => if region cell.1 then m.write cell.1 cell.2 else m) m) = true ∧
      Memory.within region (cells.foldl (fun m cell => if region cell.1 then m.write cell.1 cell.2 else m) m) = true := by
  induction cells generalizing m with
  | nil => exact ⟨hm, hr⟩
  | cons cell cells ih =>
    rw [List.foldl_cons]
    by_cases hc : region cell.1 = true
    · rw [if_pos hc]
      exact ih (Memory.write_wf hm _ _) (Memory.write_within hr hc _)
    · rw [if_neg hc]
      exact ih hm hr

/-- Any list of cells leaves a store in canonical form that has only cells of the region. -/
theorem Memory.ofCells_keeps (region : Nat → Bool) (cells : List (Nat × Half)) :
    (Memory.ofCells region cells).wf = true ∧ (Memory.ofCells region cells).within region = true :=
  Memory.foldl_cells_keeps region cells rfl rfl

/-! ### Equal contents are equal data -/

/-- Two stores in canonical form that read the same are the same data. -/
theorem Memory.ext_of_read {m m' : Memory} (h : m.wf = true) (h' : m'.wf = true) (heq : ∀ a, m.read a = m'.read a) :
    m = m' := by
  induction m generalizing m' with
  | nil =>
    cases m' with
    | nil => rfl
    | cons cell' m' =>
      obtain ⟨k', v'⟩ := cell'
      have hk' := heq k'
      rw [Memory.read_nil, Memory.read_cons, if_pos rfl] at hk'
      exact absurd hk'.symm ((Memory.wf_cons _ _ _).1 h').1
  | cons cell m ih =>
    obtain ⟨k, v⟩ := cell
    obtain ⟨hv, hm⟩ := (Memory.wf_cons _ _ _).1 h
    cases m' with
    | nil =>
      have hk := heq k
      rw [Memory.read_nil, Memory.read_cons, if_pos rfl] at hk
      exact absurd hk hv
    | cons cell' m' =>
      obtain ⟨k', v'⟩ := cell'
      obtain ⟨hv', hm'⟩ := (Memory.wf_cons _ _ _).1 h'
      have hk := heq k
      have hk' := heq k'
      rw [Memory.read_cons, Memory.read_cons, if_pos rfl] at hk
      rw [Memory.read_cons, Memory.read_cons, if_pos rfl] at hk'
      have hkk : k = k' := by
        rcases Nat.lt_trichotomy k k' with hlt | rfl | hlt
        · rw [if_neg (by omega), Memory.read_of_wfAbove hm' (by omega)] at hk
          exact absurd hk hv
        · rfl
        · rw [if_neg (by omega), Memory.read_of_wfAbove hm (by omega)] at hk'
          exact absurd hk'.symm hv'
      subst hkk
      rw [if_pos rfl] at hk
      subst hk
      have htail : m = m' := by
        refine ih (Memory.wf_of_wfAbove hm) (Memory.wf_of_wfAbove hm') fun a => ?_
        have ha := heq a
        rw [Memory.read_cons, Memory.read_cons] at ha
        by_cases hka : k = a
        · rw [Memory.read_of_wfAbove hm (by omega), Memory.read_of_wfAbove hm' (by omega)]
        · rwa [if_neg hka, if_neg hka] at ha
      rw [htail]

end Sys2Proof.Machine
end

