-- ==== Sys2Proof/Laws/PerInstr.lean ====
section
/-! SUPPORT. Statements for all commands, one lemma per constructor: the word of a command carries its opcode in field OP
(30_encoding.md R71, R78), which is what its response echoes (R83). -/

namespace Sys2Proof.Laws.OpField

/-- Field OP of the word of a command is its opcode. -/
def Statement (i : Instr) : Prop := fieldOP (encode i) = i.op

theorem nop : Statement .nop := fieldOP_formatC _ _ _ _ _
theorem setgl (d : Half) : Statement (.setgl d) := fieldOP_formatC _ _ _ _ _
theorem setgh (d : Half) : Statement (.setgh d) := fieldOP_formatC _ _ _ _ _
theorem setdly (d : Half) : Statement (.setdly d) := fieldOP_formatC _ _ _ _ _
theorem cons (k : Kind) (n : Half) : Statement (.cons k n) := fieldOP_formatC _ _ _ _ _
theorem dstr : Statement .dstr := fieldOP_formatC _ _ _ _ _
theorem blk (n : BitVec 7) (f : Half) : Statement (.blk n f) := fieldOP_formatC _ _ _ _ _
theorem smp (x : Half) : Statement (.smp x) := fieldOP_formatC _ _ _ _ _
theorem filt (c : Channel) (x : Half) : Statement (.filt c x) := fieldOP_formatC _ _ _ _ _
theorem dlrd (c : Channel) : Statement (.dlrd c) := fieldOP_formatC _ _ _ _ _
theorem dlwr (c : Channel) (v : Half) : Statement (.dlwr c v) := fieldOP_formatC _ _ _ _ _
theorem rdst (sel : BitVec 4) : Statement (.rdst sel) := fieldOP_formatC _ _ _ _ _
theorem rdcur (c : Channel) : Statement (.rdcur c) := fieldOP_formatC _ _ _ _ _

end Sys2Proof.Laws.OpField
end

