-- ==== Sys2Proof/Laws/Transaction.lean ====
section
/-! SUPPORT. Runs (70_reset_and_hazards.md R241), cut where a proof needs it: a run of two lists of words is the run of the first and
then of the second, for the state, the responses and the operations on a delay line; and what a step of one word is once the
end of its command is known. -/

namespace Sys2Proof.Machine

@[simp] theorem cfcRun_nil (p : Part) (a : Arch) : cfcRun p a [] = (a, []) := rfl

@[simp] theorem cfcRun_cons (p : Part) (a : Arch) (w : Word) (ws : List Word) :
    cfcRun p a (w :: ws) =
      ((cfcRun p (cfcStep p a w).1 ws).1, (cfcStep p a w).2 :: (cfcRun p (cfcStep p a w).1 ws).2) := rfl

theorem cfcRun_append (p : Part) (a : Arch) (us vs : List Word) :
    cfcRun p a (us ++ vs) =
      ((cfcRun p (cfcRun p a us).1 vs).1, (cfcRun p a us).2 ++ (cfcRun p (cfcRun p a us).1 vs).2) := by
  induction us generalizing a with
  | nil => rfl
  | cons u us ih => simp [ih]

@[simp] theorem cfcRun_responses_length (p : Part) (a : Arch) (ws : List Word) : (cfcRun p a ws).2.length = ws.length := by
  induction ws generalizing a with
  | nil => rfl
  | cons w ws ih => simp [ih]

@[simp] theorem lineOps_nil (p : Part) (c : Channel) (a : Arch) : lineOps p c a [] = [] := rfl

@[simp] theorem lineOps_cons (p : Part) (c : Channel) (a : Arch) (w : Word) (ws : List Word) :
    lineOps p c a (w :: ws) = (lineOp p c a w).toList ++ lineOps p c (cfcStep p a w).1 ws := rfl

theorem lineOps_append (p : Part) (c : Channel) (a : Arch) (us vs : List Word) :
    lineOps p c a (us ++ vs) = lineOps p c a us ++ lineOps p c (cfcRun p a us).1 vs := by
  induction us generalizing a with
  | nil => rfl
  | cons u us ih => simp [ih]

theorem keepsFilter_append (p : Part) (a : Arch) (us vs : List Word) :
    keepsFilter p a (us ++ vs) = (keepsFilter p a us && keepsFilter p (cfcRun p a us).1 vs) := by
  induction us generalizing a with
  | nil => rfl
  | cons u us ih => simp [keepsFilter, ih, Bool.and_assoc]

theorem sampleOutputs_append (xs ys : List LineOp) : sampleOutputs (xs ++ ys) = sampleOutputs xs ++ sampleOutputs ys := by
  induction xs with
  | nil => rfl
  | cons x xs ih => cases x <;> simp [sampleOutputs, ih]

/-- The machine of one transaction, as the command sees it. -/
abbrev taken (p : Part) (a : Arch) : State := { part := p, arch := a, inbox := [], requester := 0, outbox := [] }

/-- A word whose command ends with a response gives that response and the state it leaves. -/
theorem cfcStep_of_respond {p : Part} {a b : Arch} {w : Word} {i : Instr} {rop : BitVec 4} {code : Code} {data : Half}
    (hd : decode w = .ok i) (he : exec i (taken p a) = .next ((taken p a).respond rop code data b)) :
    cfcStep p a w = (b, responseWord rop code b.blkActive b.configured data) := by
  simp only [cfcStep, step, State.serve, oneCommand, State.runWord, hd, he]
  rfl

/-- A word that is no command answers ILLEGAL_COMMAND. -/
theorem cfcStep_of_error {p : Part} {a : Arch} {w : Word} {e : DecodeError} (hd : decode w = .error e) :
    cfcStep p a w = (a, responseWord (fieldOP w) .illegalCommand a.blkActive a.configured 0) := by
  simp only [cfcStep, step, State.serve, oneCommand, State.runWord, hd]
  rfl

@[simp] theorem processBlocks_nil (p : Part) (n : BitVec 7) (streams : List (List Half)) (a : Arch) (start : Nat) :
    processBlocks p n streams a start [] = (a, .ok (List.replicate n.toNat [])) := rfl

@[simp] theorem streamsOf_length (n frames : Nat) (buffer : List Half) : (streamsOf n frames buffer).length = n := by
  simp [streamsOf]

end Sys2Proof.Machine
end

