-- ==== Sys2Proof/Tests/Slice0.lean ====
section
/-! SUPPORT. Tests of the model, each expected result taken from spec/ (the rule or the vector is named), and for every obligation
with hypotheses a named witness that meets them. -/

namespace Sys2Proof.Tests

open Sys2Proof Sys2Proof.Machine

/-! ### Small states -/

/-- A filter with no block open: `n` channels, a delay, a gain, the slots and the cursors given. -/
def filter (k : Kind) (n : BitVec 5) (delay : Half) (gain : Word) (dl cur : Memory) : Arch :=
  { Arch.afterReset dl cur with configured := true, kind := k, nch := n, delay := delay, gain := gain, sdelay := delay, sgain := gain }

/-- A block of `frames` frames is open, at a channel and a frame. -/
def inBlock (a : Arch) (ch : BitVec 4) (frame frames : Half) : Arch :=
  { a with blkActive := true, blkCh := ch, blkFrame := frame, blkFrames := frames }

/-- A machine with nothing at its port. -/
def machine (a : Arch) : State := { part := Part.vectors, arch := a, inbox := [], requester := 0, outbox := [] }

/-- S0 with zeros in the memory. -/
def s0 : Arch := Arch.afterReset [] []

/-- One transaction on the part of the vectors. -/
def answer (a : Arch) (w : Word) : Arch × Word := cfcStep Part.vectors a w

/-! ### Well-formedness: the one check, with terms it refuses -/

theorem test_wf_refuses_selector_14 : (Instr.rdst 14).wf = false := by decide
theorem test_wf_refuses_selector_15 : (Instr.rdst 15).wf = false := by decide
theorem test_wf_takes_selector_13 : (Instr.rdst 13).wf = true := by decide

/-! ### Decoding: words from 30_encoding.md R78 and R85, and 95_test_vectors.md V1.2 -/

theorem test_decode_nop : decode 0x00000000 = .ok .nop := by decide
theorem test_decode_setgl : decode 0x10008000 = .ok (.setgl 0x8000) := by decide
theorem test_decode_setgh : decode 0x2000FFFF = .ok (.setgh 0xFFFF) := by decide
theorem test_decode_setdly : decode 0x300001B9 = .ok (.setdly 441) := by decide
theorem test_decode_cons_fir : decode 0x40000002 = .ok (.cons .fir 2) := by decide
theorem test_decode_cons_iir : decode 0x40800005 = .ok (.cons .iir 5) := by decide
theorem test_decode_dstr : decode 0x50000000 = .ok .dstr := by decide
theorem test_decode_blk : decode 0x60020003 = .ok (.blk 2 3) := by decide
theorem test_decode_smp : decode 0x70008000 = .ok (.smp 0x8000) := by decide
theorem test_decode_filt : decode 0x8300FFFB = .ok (.filt 3 0xFFFB) := by decide
theorem test_decode_dlrd : decode 0x97000000 = .ok (.dlrd 7) := by decide
theorem test_decode_dlwr : decode 0xA1001234 = .ok (.dlwr 1 0x1234) := by decide
theorem test_decode_rdst : decode 0xB000000D = .ok (.rdst 13) := by decide
theorem test_decode_rdcur : decode 0xCF000000 = .ok (.rdcur 15) := by decide

/-- V1.1 rows 1, 6, 10, 15, 20: a reserved bit of each operand field. -/
theorem test_decode_reserved_bits :
    [0x00000001, 0x41000001, 0x60810001, 0x80800000, 0xB0000010].map decode =
      List.replicate 5 (.error .reservedBit) := by decide

/-- V1.1 rows 22, 23 and 26 to 28. -/
theorem test_decode_reserved_selectors_and_opcodes :
    [0xB000000E, 0xB000000F, 0xD0000000, 0xE0000000, 0xF0000000].map decode =
      [.error .reservedSelector, .error .reservedSelector, .error .reservedOpcode, .error .reservedOpcode,
        .error .reservedOpcode] := by decide

/-- R56: byte 0 holds bits 7:0; R57: three lanes are no command. -/
theorem test_decode_lanes : decodeBytes [0xFB, 0xFF, 0x00, 0x83] = .ok (.filt 3 0xFFFB) ∧
    decodeBytes [0, 0, 0] = .error .tornWord := by decide

theorem test_encode_filt : encode (.filt 3 0xFFFB) = 0x8300FFFB := by decide
theorem test_decodeTableWord_blk : decodeTableWord 32 0x6005FFFF = some (.blk 5 65535) := by decide

/-! ### One step each -/

/-- R170's example. -/
theorem test_nop_after_reset : answer s0 0x00000000 = (s0, 0x00000000) := by decide

/-- R170: RBLK and RCFG with a block open. -/
theorem test_nop_in_a_block : (answer (inBlock (filter .fir 2 2 0 [] []) 0 0 3) 0x00000000).2 = 0x00C00000 := by decide

/-- R171's example. -/
theorem test_setgl : (answer s0 0x10008000).1.sgain = 0x00008000 := by decide

/-- R172's example: the low half stays. -/
theorem test_setgh : (answer { s0 with sgain := 0x00011234 } 0x2000FFFF).1.sgain = 0xFFFF1234 := by decide

/-- V5.2 row 2: a delay above P_MAX_DELAY is staged. -/
theorem test_setdly : answer s0 0x30001001 = ({ s0 with sdelay := 4097 }, 0x30000000) := by decide

/-- R174's example, on a core whose memory holds something. -/
theorem test_cons :
    answer { Arch.afterReset [(3, 5), (4, 6)] [(0, 3)] with sdelay := 4, sgain := 0xFFFF0000 } 0x40000001 =
      ({ filter .fir 1 4 0xFFFF0000 [(4, 6)] [] with sdelay := 4 }, 0x40400000) := by decide

/-- V5.2 rows 1, 3, 6: INVALID_DELAY for 0 and 4097, INVALID_CHANNEL_COUNT for 9. -/
theorem test_cons_fails :
    (answer s0 0x40000001).2 = 0x41000000 ∧ (answer { s0 with sdelay := 4097 } 0x40000001).2 = 0x41000000 ∧
      (answer { s0 with sdelay := 4096 } 0x40000009) = ({ s0 with sdelay := 4096 }, 0x43000000) := by decide

/-- V5.3 row 7: DSTR abandons a block and keeps the staging registers. -/
theorem test_dstr :
    answer (inBlock (filter .fir 1 2 0x00010000 [] []) 0 1 5) 0x50000000 =
      ({ s0 with sdelay := 2, sgain := 0x00010000 }, 0x50000000) := by decide

/-- R181: an IIR filter in the middle of a block reads 0x0007. -/
theorem test_rdst_status : (answer (inBlock (filter .iir 2 1 0 [] []) 0 0 2) 0xB0000000).2 = 0xB0C00007 := by decide

/-- V5.1 rows 12, 13 and 14. -/
theorem test_rdst_constants :
    (answer s0 0xB000000B).2 = 0xB0000008 ∧ (answer s0 0xB000000C).2 = 0xB0001000 ∧ (answer s0 0xB000000D).2 = 0xB000CF01 := by
  decide

/-- R151's examples. -/
theorem test_blk_opens : answer (filter .fir 2 2 0 [] []) 0x60020003 = (inBlock (filter .fir 2 2 0 [] []) 0 0 3, 0x60C00000) := by
  decide

/-- V4.2 rows 2 and 3: no frames is a no-op, after the channel-count check. -/
theorem test_blk_without_frames :
    answer (filter .fir 2 2 0 [] []) 0x60020000 = (filter .fir 2 2 0 [] [], 0x60400000) ∧
      answer (filter .fir 2 2 0 [] []) 0x60030000 = (filter .fir 2 2 0 [] [], 0x62400000) := by decide

/-- V4.1 row 17: the last sample closes the block; the tap of channel 1 is -10. -/
theorem test_smp_closes_the_block :
    answer (inBlock (filter .fir 2 2 0x00008000 [(65536, 0xFFF6), (65537, 0xFFEC)] []) 1 2 3) 0x7000FFE2 =
      (filter .fir 2 2 0x00008000 [(65536, 0xFFE2), (65537, 0xFFEC)] [(1, 1)], 0x7040FFDD) := by decide

/-- R152 on sixteen channels: the sample that ends channel 15 closes the block (log entry 8). -/
theorem test_smp_sixteen_channels :
    (cfcStep { maxCh := 16, maxDelay := 4096 } (inBlock (filter .fir 16 1 0 [] []) 15 0 1) 0x70000007).1.blkActive = false := by
  decide

/-- R128's example, FIR and IIR. -/
theorem test_filt_example :
    answer (filter .fir 1 1 0x00010000 [(0, 100)] []) 0x800000C8 = (filter .fir 1 1 0x00010000 [(0, 200)] [], 0x8040012C) ∧
      answer (filter .iir 1 1 0x00010000 [(0, 100)] []) 0x800000C8 = (filter .iir 1 1 0x00010000 [(0, 300)] [], 0x8040012C) := by
  decide

/-- R128's table: rounding of the whole sum toward zero (tap 3, input -10, gain 0.5 gives -8) and saturation of an IIR output
(gain -2, tap 20000, input 1000), which is what is written back. -/
theorem test_filt_rounds_and_saturates :
    responseDATA (answer (filter .fir 1 1 0x00008000 [(0, 3)] []) 0x8000FFF6).2 = 0xFFF8 ∧
      (answer (filter .iir 1 1 0xFFFE0000 [(0, 20000)] []) 0x800003E8).1.dl = [(0, 0x8000)] := by decide

/-- V2.2 row 12: the tap, without a change. -/
theorem test_dlrd :
    answer (filter .fir 1 3 0 [(0, 11), (1, 22), (2, 33)] []) 0x90000000 =
      (filter .fir 1 3 0 [(0, 11), (1, 22), (2, 33)] [], 0x9040000B) := by decide

/-- R103's example: slot 2 is written and the cursor goes round to 0. -/
theorem test_dlwr :
    answer (filter .fir 1 3 0 [(1, 22)] [(0, 2)]) 0xA000FFFB = (filter .fir 1 3 0 [(1, 22), (2, 0xFFFB)] [], 0xA0400000) := by decide

/-- V2.4 row 10 and V2.2 row 18: the cursor, inside a block too; a channel out of range. -/
theorem test_rdcur :
    (answer (inBlock (filter .fir 1 2 0 [] [(0, 1)]) 0 1 2) 0xC0000000).2 = 0xC0C00001 ∧
      (answer (filter .fir 1 3 0 [] []) 0xC8000000).2 = 0xC5400000 := by decide

/-- V6.1 row 1: an illegal word outranks every other error. -/
theorem test_illegal_word : answer s0 0x83010000 = (s0, 0x88000000) := by decide

/-- The word at the head of the port runs as the first instruction after reset (R170). -/
theorem test_withFetchWord :
    step (State.reset.withFetchWord 32 0x00000000) =
      .next { State.reset with outbox := [{ host := 0, word := 0x00000000 }] } := by rfl

/-- R85 and R86: a sample with a comment, a pseudo-command with a real gain, and an operand that does not fit. -/
theorem test_assemble :
    assembleLine "FILT ch3, -5 ; tap".toList = some [.filt 3 0xFFFB] ∧
      assembleLine "SETGAIN -0.3".toList = some [.setgl 0xB333, .setgh 0xFFFF] ∧
      assembleLine "SMP 32768".toList = none := by decide +kernel

/-- V5.4: 44100 Hz and 440 Hz give 100; 8000 Hz and 16001 Hz are rejected. -/
theorem test_deriveDelay : deriveDelay 44100 440 = .ok 100 ∧ deriveDelay 8000 16001 = .error .invalidDelay := by
  decide +kernel

/-! ### Witnesses: for each obligation with hypotheses, values that meet them together, at the boundaries of its clauses -/

/-- A machine with things waiting at its port. -/
def asked (a : Arch) (inputs : List HostInput) : State := { machine a with inbox := inputs }

theorem witness_DecodeOfEncodeIsTheCommand : (Instr.rdst 13).wf = true ∧ (Instr.blk 127 65535).wf = true := by decide

theorem witness_DecodedWordIsTheEncoding : decode 0x607FFFFF = .ok (.blk 127 65535) := by decide

theorem witness_DecodingFollowsMatchAndMask :
    ⟨"RDST", 0xB0000000, 0xFFFFFFF0⟩ ∈ opcodeMap ∧ (0xB000000D : Word) &&& 0xFFFFFFF0 = 0xB0000000 ∧
      ((0xB000000D : Word).extractLsb 3 0).toNat ≤ 13 ∧ ⟨"DLRD", 0x90000000, 0xF0FFFFFF⟩ ∈ opcodeMap ∧
      (0x9F000000 : Word) &&& 0xF0FFFFFF = 0x90000000 := by decide

theorem witness_ReservedOpcodesAreIllegal :
    fieldOP 0xD0000000 = 0xD ∧ fieldOP 0xEFFFFFFF = 0xE ∧ fieldOP 0xFFFFFFFF = 0xF := by decide

/-- Bit 16 of CONS and bit 23 of BLK, beside their operand fields, and bit 0 of NOP. -/
theorem witness_ReservedBitsAreIllegal :
    (⟨"CONS", 0x40000000, 0xFF7F0000⟩ ∈ opcodeMap ∧ fieldOP 0x40010001 = fieldOP 0x40000000 ∧
      (0xFF7F0000 : Word).getLsbD 16 = true ∧ (0x40000000 : Word).getLsbD 16 = false ∧ (0x40010001 : Word).getLsbD 16 = true) ∧
    (⟨"BLK", 0x60000000, 0xFF800000⟩ ∈ opcodeMap ∧ fieldOP 0x60800000 = fieldOP 0x60000000 ∧
      (0xFF800000 : Word).getLsbD 23 = true ∧ (0x60000000 : Word).getLsbD 23 = false ∧ (0x60800000 : Word).getLsbD 23 = true) ∧
    (⟨"NOP", 0x00000000, 0xFFFFFFFF⟩ ∈ opcodeMap ∧ fieldOP 0x00000001 = fieldOP 0x00000000 ∧
      (0xFFFFFFFF : Word).getLsbD 0 = true ∧ (0x00000000 : Word).getLsbD 0 = false ∧ (0x00000001 : Word).getLsbD 0 = true) := by
  decide

theorem witness_StepRunsTheDecodedCommand :
    (asked s0 [.command 3 0x300001B9]).inbox = .command 3 0x300001B9 :: [] ∧ decode 0x300001B9 = .ok (.setdly 441) := by decide

theorem witness_PortWithoutACommand :
    (machine s0).inbox = [] ∧ (asked s0 [.torn 1 [0, 0, 0]]).inbox = .torn 1 [0, 0, 0] :: [] ∧
      ([] : List Byte).length ≠ 4 ∧ ([0, 0, 0, 0, 0] : List Byte).length ≠ 4 := by decide

/-- A reset in the middle of a block. -/
theorem witness_ResetGivesTheResetState :
    (asked (inBlock (filter .iir 2 2 5 [] []) 1 1 2) [.reset [(0, 7)] [(0, 1)]]).inbox = .reset [(0, 7)] [(0, 1)] :: [] := by
  decide

/-- The first and the last slot of the part, and its last cursor. -/
theorem witness_AnyMemoryCanFollowReset :
    (asked s0 [.reset [(0, 5), (slotAddr 7 4095, 6)] [(7, 65535)]]).inbox =
        .reset [(0, 5), (slotAddr 7 4095, 6)] [(7, 65535)] :: [] ∧
      Memory.wf [(0, 5), (slotAddr 7 4095, 6)] = true ∧ Memory.wf [(7, 65535)] = true ∧
      Memory.within (lineRegion Part.vectors.maxCh.toNat Part.vectors.maxDelay.toNat) [(0, 5), (slotAddr 7 4095, 6)] = true ∧
      Memory.within (cursorRegion Part.vectors.maxCh.toNat) [(7, 65535)] = true := by decide

theorem witness_EveryCommandGetsOneResponse :
    (asked s0 [.command 2 0xFFFFFFFF]).inbox = .command 2 0xFFFFFFFF :: [] ∧
      (asked s0 [.command 2 0x00000000]).inbox = .command 2 0x00000000 :: [] ∧ decode 0x00000000 = .ok .nop ∧
      mnemonicOf .nop ∉ ["SMP", "FILT", "DLRD", "RDST", "RDCUR"] := by decide

/-- SMP with no block open. -/
theorem witness_FailedCommandChangesNothing :
    step (asked s0 [.command 1 0x70000005]) =
        .next { machine s0 with requester := 1, outbox := [{ host := 1, word := 0x77000000 }] } ∧
      responseCODE 0x77000000 ≠ 0 := ⟨by rfl, by decide⟩

theorem witness_StepIsTheListOfChecks :
    (asked s0 [.command 1 0x40000001]).inbox = .command 1 0x40000001 :: [] := by decide

theorem witness_CodesOfEachCommand : decode 0x6005FFFF = .ok (.blk 5 65535) := by decide

/-- For each row of the opcode map a word that agrees with it and, with the same OP, one that does not. -/
theorem witness_rowDecodes :
    (opcodeMap.zip [0x00000001, 0x1FFF0000, 0x2001FFFF, 0x30800000, 0x40010001, 0x50000001, 0x60800000, 0x7F000000, 0x80800000,
        0x90000001, 0xA0010000, 0xB0000010, 0xC0000001]).all
      (fun q => q.1.pattern &&& q.1.mask == q.1.pattern && fieldOP q.2 == fieldOP q.1.pattern &&
        q.2 &&& q.1.mask != q.1.pattern) = true := by decide

/-- The smallest and the largest filter of the part. -/
theorem witness_ConsBuildsTheFilter :
    (machine s0).part.ok = true ∧ (machine s0).arch.blkActive = false ∧ 1 ≤ (1 : Half).toNat ∧
      (4096 : Half).toNat ≤ (machine s0).part.maxDelay.toNat ∧ 1 ≤ (1 : Half).toNat ∧
      (8 : Half).toNat ≤ (machine s0).part.maxCh.toNat := by decide

/-- A CONS and a DSTR that answer a next state; the first channel and the first slot outside the filter. -/
theorem witness_CellsOutsideTheFilterAreLeft :
    exec (.cons .fir 1) (machine { s0 with sdelay := 4 }) =
        .next { machine { filter .fir 1 4 0 [] [] with sgain := 0 } with outbox := [{ host := 0, word := 0x40400000 }] } ∧
      (1 : Half).toNat ≤ 1 ∧ { s0 with sdelay := 4 }.sdelay.toNat ≤ 4 ∧
      exec .dstr (machine s0) = .next { machine s0 with outbox := [{ host := 0, word := 0x50000000 }] } :=
  ⟨by rfl, by decide, by decide, by rfl⟩

/-- Delays 0 and 4097, and counts 0 and 9 with delays 1 and 4096, on the part of the vectors. -/
theorem witness_ConsChecksInOrder :
    (inBlock (filter .fir 1 1 0 [] []) 0 0 1).blkActive = true ∧ s0.blkActive = false ∧ s0.sdelay.toNat = 0 ∧
      Part.vectors.maxDelay.toNat < { s0 with sdelay := 4097 }.sdelay.toNat ∧ 1 ≤ { s0 with sdelay := 1 }.sdelay.toNat ∧
      { s0 with sdelay := 4096 }.sdelay.toNat ≤ Part.vectors.maxDelay.toNat ∧ (0 : Half).toNat = 0 ∧
      Part.vectors.maxCh.toNat < (9 : Half).toNat := by decide

/-- A failed CONS; and two cores, one with a filter and one without, whose staged values and sequencer agree. -/
theorem witness_ConsForgetsTheOldFilter :
    responseCODE (answer s0 (encode (.cons .fir 1))).2 ≠ 0 ∧
      (let a := filter .iir 3 2 0x00010000 [(0, 9)] [(0, 1)]
       let b := { s0 with sdelay := 2, sgain := 0x00010000 }
       Part.vectors.ok = true ∧ a.sgain = b.sgain ∧ a.sdelay = b.sdelay ∧ a.blkActive = b.blkActive ∧ a.blkCh = b.blkCh ∧
         a.blkFrame = b.blkFrame ∧ a.blkFrames = b.blkFrames ∧ responseCODE (answer a (encode (.cons .fir 1))).2 = 0) := by
  decide

theorem witness_ConsZeroFillIsTheLoop :
    (filter .fir 2 2 0 [(1, 5), (65536, 6)] [(1, 1)]).dl.wf = true ∧
      (filter .fir 2 2 0 [(1, 5), (65536, 6)] [(1, 1)]).cur.wf = true := by decide

theorem witness_DstrWithoutAFilterChangesNothing : (machine s0).inv ∧ (machine s0).arch.configured = false := by decide

theorem witness_RdstReturnsTheView :
    (0xB000000D : Word) &&& 0xFFFFFFF0 = 0xB0000000 ∧ ((0xB000000D : Word).extractLsb 3 0).toNat ≤ 13 ∧
      fieldOP 0xB000000E = 0xB ∧ 14 ≤ ((0xB000000E : Word).extractLsb 3 0).toNat ∧ fieldOP 0xB0000010 = 0xB ∧
      (0xB0000010 : Word) &&& 0xFFFFFFF0 ≠ 0xB0000000 ∧ (13 : BitVec 4).toNat ≤ 13 ∧ (10 : BitVec 4).toNat ≤ 10 := by decide

/-- The cursor at its last slot; and a delay of 1. -/
theorem witness_AdvanceIsOneStepModuloDelay :
    (let a := filter .fir 2 3 0 [] [(0, 2)]
     a.cur.wf = true ∧ 1 ≠ (0 : Channel).toNat ∧ (a.cursor 0).toNat < a.delay.toNat ∧ (a.cursor 0).toNat + 1 = a.delay.toNat) ∧
      (let a := filter .fir 1 1 0 [] []
       a.cur.wf = true ∧ a.delay.toNat = 1 ∧ (a.cursor 0).toNat < a.delay.toNat) := by decide

/-- No filter; the first channel outside the filter; the last channel inside, with a block open. -/
theorem witness_LineReadsComplete :
    s0.configured = false ∧
      (let a := inBlock (filter .fir 2 3 0 [(65538, 7)] [(1, 2)]) 0 1 2
       a.configured = true ∧ a.nch.toNat ≤ (2 : Channel).toNat ∧ (1 : Channel).toNat < a.nch.toNat ∧ (machine a).inv) := by
  decide

/-- The clauses of the commands that need a filter and no open block: FILT and DLWR. -/
theorem witness_DlwrWritesAndAdvances :
    ((machine (inBlock (filter .fir 2 3 0 [] []) 0 0 1)).inv ∧ (inBlock (filter .fir 2 3 0 [] []) 0 0 1).blkActive = true) ∧
      ((machine s0).inv ∧ s0.blkActive = false ∧ s0.configured = false) ∧
      (let a := filter .fir 2 3 0 [(1, 22)] [(1, 2)]
       (machine a).inv ∧ a.blkActive = false ∧ a.configured = true ∧ a.nch.toNat ≤ (2 : Channel).toNat ∧
         (1 : Channel).toNat < a.nch.toNat) := ⟨by decide, by decide, by decide⟩

theorem witness_ReadsAreIdempotent :
    decode 0xB000000D = .ok (.rdst 13) ∧ mnemonicOf (.rdst 13) ∈ ["NOP", "DLRD", "RDST", "RDCUR"] := by decide

/-- A staged filter of one channel and delay 2, and a run on it of a sample, a write, a read and a refused word. -/
def staged : Arch := { s0 with sdelay := 2, sgain := 0xFFFF0000 }

theorem witness_TapIsTheWriteDelayWritesEarlier :
    Part.vectors.ok = true ∧ staged.inv Part.vectors ∧ responseCODE (answer staged (encode (.cons .iir 1))).2 = 0 ∧
      keepsFilter Part.vectors (answer staged (encode (.cons .iir 1))).1 [0x80000005, 0xA0000007, 0x90000000, 0xF0000000] = true ∧
      (lineOps Part.vectors 0 (answer staged (encode (.cons .iir 1))).1 [0x80000005, 0xA0000007, 0x90000000, 0xF0000000]) =
        [.sample 5 5, .poke 7] ∧
      (0 : Channel).toNat < (1 : Half).toNat := by decide

/-- The same hypotheses: three writes on a line of two slots, and none. -/
theorem witness_DelayLineHoldsTheLatestWrites :
    Part.vectors.ok = true ∧ staged.inv Part.vectors ∧ responseCODE (answer staged (encode (.cons .fir 1))).2 = 0 ∧
      keepsFilter Part.vectors (answer staged (encode (.cons .fir 1))).1 [0xA0000001, 0xA0000002, 0xA0000003] = true ∧
      (lineOps Part.vectors 0 (answer staged (encode (.cons .fir 1))).1 [0xA0000001, 0xA0000002, 0xA0000003]).length = 3 ∧
      keepsFilter Part.vectors (answer staged (encode (.cons .fir 1))).1 [] = true ∧
      (0 : Channel).toNat < (1 : Half).toNat := by decide

theorem witness_FiltAppliesTheSampleOperation :
    let a := filter .iir 8 4096 0x7FFFFFFF [(slotAddr 7 4095, 0x8000)] [(7, 4095)]
    (machine a).inv ∧ a.blkActive = false ∧ a.configured = true ∧ (7 : Channel).toNat < a.nch.toNat := by decide

theorem witness_FiltChecksInOrder :
    (inBlock (filter .fir 2 3 0 [] []) 0 0 1).blkActive = true ∧ (s0.blkActive = false ∧ s0.configured = false) ∧
      (filter .fir 2 3 0 [] []).blkActive = false ∧ (filter .fir 2 3 0 [] []).configured = true ∧
      (filter .fir 2 3 0 [] []).nch.toNat ≤ (2 : Channel).toNat := by decide

/-- Sums that round to 32767, to -32768 and to 0. -/
theorem witness_OutputSaturatesSilently :
    (let a := filter .fir 1 1 0x00010000 [(0, 1)] []
     (machine a).inv ∧ a.blkActive = false ∧ a.configured = true ∧ (0 : Channel).toNat < a.nch.toNat ∧
       roundShift (combAcc a.gain (a.tap 0) 0x7FFE) = 32767 ∧ roundShift (combAcc a.gain (a.tap 0) 0x7FFF) = 32768 ∧
       roundShift (combAcc a.gain (a.tap 0) 0x8000) = -32767 ∧ roundShift (combAcc a.gain (a.tap 0) 0xFFFF) = 0) ∧
      (let a := filter .fir 1 1 0x00010000 [(0, 0xFFFF)] []
       (machine a).inv ∧ roundShift (combAcc a.gain (a.tap 0) 0x8000) = -32769 ∧
         roundShift (combAcc a.gain (a.tap 0) 0x8001) = -32768) := ⟨by decide, by decide⟩

/-- FILT answers a next state, and so does SMP with that channel current in a block. -/
theorem witness_OutputSaturatesSilently_next :
    exec (.filt 0 0x7FFF) (machine (filter .fir 1 1 0x00010000 [(0, 1)] [])) =
      .next { machine (filter .fir 1 1 0x00010000 [(0, 0x7FFF)] []) with outbox := [{ host := 0, word := 0x80407FFF }] } := by rfl

theorem witness_OutputSaturatesSilently_smp :
    (machine (inBlock (filter .fir 1 1 0x00010000 [(0, 1)] []) 0 0 1)).inv ∧
      exec (.smp 0x7FFF) (machine (inBlock (filter .fir 1 1 0x00010000 [(0, 1)] []) 0 0 1)) =
        .next { machine (filter .fir 1 1 0x00010000 [(0, 0x7FFF)] []) with outbox := [{ host := 0, word := 0x70407FFF }] } :=
  ⟨by decide, by rfl⟩

theorem witness_OutputsFollowTheRecurrence :
    Part.vectors.ok = true ∧ staged.inv Part.vectors ∧ responseCODE (answer staged (encode (.cons .iir 1))).2 = 0 ∧
      keepsFilter Part.vectors (answer staged (encode (.cons .iir 1))).1 [0x80000005, 0x80000006, 0x80000007] = true ∧
      (0 : Channel).toNat < (1 : Half).toNat ∧
      sampleInputs (lineOps Part.vectors 0 (answer staged (encode (.cons .iir 1))).1 [0x80000005, 0x80000006, 0x80000007]) =
        some [5, 6, 7] := by decide

/-- Inputs of period 2 on a delay of 2. -/
theorem witness_FirCancelsPeriodicInput :
    Part.vectors.ok = true ∧ staged.inv Part.vectors ∧ staged.sgain = 0xFFFF0000 ∧
      responseCODE (answer staged (encode (.cons .fir 1))).2 = 0 ∧
      keepsFilter Part.vectors (answer staged (encode (.cons .fir 1))).1 [0x80000005, 0x80000006, 0x80000005] = true ∧
      (0 : Channel).toNat < (1 : Half).toNat ∧
      sampleInputs (lineOps Part.vectors 0 (answer staged (encode (.cons .fir 1))).1 [0x80000005, 0x80000006, 0x80000005]) =
        some [5, 6, 5] ∧
      ∀ m, m < 3 → 2 ≤ m → ([5, 6, 5] : List Half).getD m 0 = ([5, 6, 5] : List Half).getD (m - 2) 0 := by decide

theorem witness_ZeroInputGivesZeroOutput :
    Part.vectors.ok = true ∧ staged.inv Part.vectors ∧ responseCODE (answer staged (encode (.cons .iir 1))).2 = 0 ∧
      keepsFilter Part.vectors (answer staged (encode (.cons .iir 1))).1 [0x80000000, 0xA0000000] = true ∧
      (0 : Channel).toNat < (1 : Half).toNat ∧
      lineOps Part.vectors 0 (answer staged (encode (.cons .iir 1))).1 [0x80000000, 0xA0000000] = [.sample 0 0, .poke 0] := by
  decide

/-- An FIR and an IIR core of gain zero, and a run of FILT and DLRD on them. -/
theorem witness_GainZeroPassesTheInput :
    let a := filter .fir 1 1 0 [(0, 9)] []
    let b := filter .iir 1 1 0 [(0, 9)] []
    a.gain = 0 ∧ { a with kind := b.kind } = b ∧ ∀ w ∈ ([0x80000005, 0x90000000] : List Word), w ≠ 0xB0000000 :=
  ⟨rfl, rfl, by simp⟩

/-- Gains of 1 - 2^-16, 1 + 2^-16 and -2; values at the ends of the ranges. -/
theorem witness_FreeResponseShrinksOrGrows :
    (|(0x0000FFFF : Word).toInt| < 65536 ∧ (0x8000 : Half) ≠ 0) ∧
      (65536 < |(0x00010001 : Word).toInt| ∧ |(0x8001 : Half).toInt| ≤ 32767 ∧ 65536 < (0x00010001 : Word).toInt) ∧
      (0xFFFEFFFF : Word).toInt < -65536 ∧
      (65536 < |(0xFFFE0000 : Word).toInt| ∧ |(0x7FFE : Half).toInt| < 32767 ∧
        (|(0x7FFE : Half).toInt| + 1) * 65536 ≤ |(0xFFFE0000 : Word).toInt| * |(0x7FFE : Half).toInt|) ∧
      (|(0x7FFF : Half).toInt| = 32767 ∧ (0xFFFE0000 : Word).toInt * (0x7FFF : Half).toInt < 0 ∧
        (|(0x7FFF : Half).toInt| + 1) * 65536 ≤ |(0xFFFE0000 : Word).toInt| * |(0x7FFF : Half).toInt|) := by decide

theorem witness_FreeResponseDiesOut : |(0xFFFF0001 : Word).toInt| < 65536 := by decide

/-- An open block; no filter; a filter of 2 channels asked for 3 and for 2; no frames, one and the most. -/
theorem witness_BlkOpensABlock :
    (inBlock (filter .fir 2 3 0 [] []) 0 0 1).blkActive = true ∧ (s0.blkActive = false ∧ s0.configured = false) ∧
      (let a := filter .fir 2 3 0 [] []
       (machine a).inv ∧ a.blkActive = false ∧ a.configured = true ∧ (3 : BitVec 7).toNat ≠ a.nch.toNat ∧ (2 : BitVec 7).toNat = a.nch.toNat) ∧
      (0 : Half).toNat = 0 ∧ 1 ≤ (1 : Half).toNat ∧ 1 ≤ (65535 : Half).toNat := by decide

/-- No block; a frame before the last; the last frame of a channel before the last; the last frame of the last channel. -/
theorem witness_SmpTakesTheNextSample :
    ((machine s0).inv ∧ s0.blkActive = false) ∧
      (let a := inBlock (filter .fir 2 3 0 [] []) 1 0 2
       (machine a).inv ∧ a.blkActive = true ∧ a.blkFrame.toNat + 1 < a.blkFrames.toNat) ∧
      (let a := inBlock (filter .fir 2 3 0 [] []) 0 65534 65535
       (machine a).inv ∧ a.blkActive = true ∧ a.blkFrame.toNat + 1 = a.blkFrames.toNat ∧ a.blkCh.toNat + 1 < a.nch.toNat) ∧
      (let a := inBlock (filter .fir 2 3 0 [] []) 1 1 2
       (machine a).inv ∧ a.blkActive = true ∧ a.blkFrame.toNat + 1 = a.blkFrames.toNat ∧ a.blkCh.toNat + 1 = a.nch.toNat) :=
  ⟨by decide, by decide, by decide, by decide⟩

/-- The last frame of channel 15 of 16 (log entry 8). -/
theorem witness_SmpTakesTheNextSample_sixteen :
    let a := inBlock (filter .fir 16 1 0 [] []) 15 65534 65535
    let s : State := { machine a with part := { maxCh := 16, maxDelay := 4096 } }
    s.inv ∧ s.arch.blkActive = true ∧ s.arch.blkFrame.toNat + 1 = s.arch.blkFrames.toNat ∧
      s.arch.blkCh.toNat + 1 = s.arch.nch.toNat := by decide

/-- Two channels, one frame: three words with one sample, and four with both. -/
theorem witness_BlocksAreChannelMajor :
    (let a := filter .iir 2 3 0 [] []
     Part.vectors.ok = true ∧ a.inv Part.vectors ∧ a.blkActive = false ∧ a.configured = true ∧
       (2 : BitVec 7).toNat = a.nch.toNat ∧ 1 ≤ (1 : Half).toNat) ∧
      [0x70000005, 0x30000009, 0x91000000, 0x70000006].map decode =
        [.ok (.smp 5), .ok (.setdly 9), .ok (.dlrd 1), .ok (.smp 6)] ∧
      ([Instr.smp 5, .setdly 9, .dlrd 1, .smp 6].all fun i =>
        mnemonicOf i ∈ ["SMP", "NOP", "RDST", "RDCUR", "DLRD", "SETGL", "SETGH", "SETDLY"]) = true ∧
      [0x70000005, 0x30000009, 0x91000000].countP (fun w => fieldOP w == 0x7) < (2 : BitVec 7).toNat * (1 : Half).toNat ∧
      [0x70000005, 0x30000009, 0x91000000, 0x70000006].countP (fun w => fieldOP w == 0x7) =
        (2 : BitVec 7).toNat * (1 : Half).toNat := by decide

/-- Three frames of two channels as 3 and as 1 + 0 + 2. -/
theorem witness_OutputsDoNotDependOnBlockSizes :
    let a := filter .iir 2 2 0x00008000 [] []
    let streams : List (List Half) := [[1, 2, 3], [4, 5, 6]]
    Part.vectors.ok = true ∧ a.inv Part.vectors ∧ a.configured = true ∧ a.blkActive = false ∧
      (2 : BitVec 7).toNat = a.nch.toNat ∧ streams.length = (2 : BitVec 7).toNat ∧ (∀ x ∈ streams, x.length = 3) ∧
      (∀ f ∈ [3], f ≤ 65535) ∧ [3].sum = 3 ∧ (∀ g ∈ [1, 0, 2], g ≤ 65535) ∧ [1, 0, 2].sum = 3 := by decide

/-- One block of a frame on two channels, and the same two samples by FILT, channel 1 first. -/
theorem witness_OutputsDoNotDependOnBlockSizes_filt :
    let a := filter .iir 2 2 0x00008000 [] []
    let us : List Word := [0x60020001, 0x70000001, 0x70000002]
    let vs : List Word := [0x81000002, 0x80000001]
    [0x60020001, 0x70000001, 0x70000002, 0x81000002, 0x80000001].map decode =
        [.ok (.blk 2 1), .ok (.smp 1), .ok (.smp 2), .ok (.filt 1 2), .ok (.filt 0 1)] ∧
      (∀ c : Channel, c.toNat < 2 →
        sampleInputs (lineOps Part.vectors c a us) = sampleInputs (lineOps Part.vectors c a vs)) ∧
      (cfcRun Part.vectors a us).1.blkActive = false ∧ (cfcRun Part.vectors a vs).1.blkActive = false := by decide

/-- A Process of one frame more than a block takes. -/
theorem witness_ProcessReturnsTheOutputsInOrder :
    (let a := filter .iir 2 2 0x00008000 [] []
     Part.vectors.ok = true ∧ a.inv Part.vectors ∧ a.configured = true ∧ a.blkActive = false ∧ 2 = a.nch.toNat) ∧
      (List.replicate 131072 (0 : Half)).length = 2 * 65536 := ⟨by decide, by rw [List.length_replicate]⟩

/-- A BLK that fails for the channel count, and a count that BLK cannot carry. -/
theorem witness_ProcessReturnsTheOutputsInOrder_error :
    responseCODE (answer (filter .fir 2 2 0 [] []) (encode (.blk (BitVec.ofNat 7 127) (BitVec.ofNat 16 (min 65536 65535))))).2 ≠ 0 ∧
      (filter .fir 2 2 0 [] []).inv Part.vectors ∧ 127 ≤ 127 ∧ 127 < 128 := by decide

/-- R193: more than 65535 frames are several blocks. -/
theorem test_blockSizes : blockSizes 65535 = [65535] ∧ blockSizes 65536 = [65535, 1] ∧ blockSizes 131070 = [65535, 65535] := by
  decide

/-- V4.1, the block of R152's example, as a Process; and a mismatched count. -/
theorem test_hostProcess :
    (hostProcess Part.vectors (filter .fir 2 2 0x00008000 [] []) 2 3 [100, 200, 300, 0xFFF6, 0xFFEC, 0xFFE2]).2.toOption =
        some [100, 200, 350, 0xFFF6, 0xFFEC, 0xFFDD] ∧
      hostProcess Part.vectors (filter .fir 2 2 0 [] []) 3 0 [] = (filter .fir 2 2 0 [] [], .error .channelCountMismatch) := by
  decide

theorem witness_EveryStepKeepsTheInvariant :
    (asked s0 [.command 0 0x30000005]).inv ∧
      step (asked s0 [.command 0 0x30000005]) =
        .next { machine { s0 with sdelay := 5 } with outbox := [{ host := 0, word := 0x30000000 }] } := ⟨by decide, by rfl⟩

/-- Two different states of which a host sees the same: slot 1 lies outside a delay line of one slot. -/
theorem witness_UnobservableCellsNeverShow :
    let a := filter .fir 1 1 0 [(0, 4), (1, 5)] []
    let b := filter .fir 1 1 0 [(0, 4)] [(1, 6)]
    Part.vectors.ok = true ∧ a.inv Part.vectors ∧ b.inv Part.vectors ∧ a.sameVisible b := by
  refine ⟨by decide, by decide, by decide, rfl, fun _ c hc => ?_⟩
  have hc0 : c = 0 := BitVec.eq_of_toNat_eq (Nat.lt_one_iff.mp hc)
  subst hc0
  refine ⟨rfl, fun i hi => ?_⟩
  have hi0 : i = 0 := BitVec.eq_of_toNat_eq (Nat.lt_one_iff.mp hi)
  subst hi0
  rfl

theorem witness_MemoryAfterResetNeverShows :
    Part.vectors.ok = true ∧ (Arch.afterReset [(slotAddr 7 4095, 9)] [(7, 65535)]).memoryOk Part.vectors ∧
      (Arch.afterReset [] []).memoryOk Part.vectors := by decide

/-- FILT on channel 0, and SMP with channel 1 current, in states that differ on the other channel. -/
theorem witness_ChannelsDoNotInteract :
    (let a := filter .fir 2 2 0 [(0, 4), (65536, 5)] []
     let b := filter .fir 2 2 0 [(0, 4)] [(1, 1)]
     Part.vectors.ok = true ∧ a.inv Part.vectors ∧ b.inv Part.vectors ∧ decode 0x80000007 = .ok (.filt 0 7) ∧
       channelOf (.filt 0 7) = some 0 ∧ (1 : Channel) ≠ 0 ∧ { a with dl := b.dl, cur := b.cur } = b) ∧
      (let a := inBlock (filter .fir 2 2 0 [(0, 4)] []) 1 0 1
       a.inv Part.vectors ∧ decode 0x70000007 = .ok (.smp 7) ∧ a.blkCh = 1) :=
  ⟨⟨by decide, by decide, by decide, by decide, by decide, by decide, by decide⟩, by decide⟩

theorem witness_ChannelsDoNotInteract_sameLine :
    (filter .fir 2 2 0 [(0, 4), (65536, 5)] []).sameLine 0 (filter .fir 2 2 0 [(0, 4)] [(1, 1)]) := by
  refine ⟨rfl, fun i => ?_⟩
  have hi : (65536 : Nat) ≠ slotAddr 0 i.toNat := by have := i.isLt; unfold slotAddr; omega
  show Memory.read [(0, 4), (65536, 5)] (slotAddr 0 i.toNat) = Memory.read [(0, 4)] (slotAddr 0 i.toNat)
  simp [Memory.read, hi]

theorem witness_RegistersAreWrittenOnlyByTheirCommands :
    decode 0x2000FFFF = .ok (.setgh 0xFFFF) ∧ mnemonicOf (.setgh 0xFFFF) ∉ ["CONS", "DSTR"] ∧
      mnemonicOf (.setgh 0xFFFF) ≠ "SETGL" ∧ mnemonicOf (.setgh 0xFFFF) ≠ "SETDLY" ∧
      mnemonicOf (.setgh 0xFFFF) ∉ ["CONS", "SMP", "FILT", "DLWR"] ∧ mnemonicOf (.setgh 0xFFFF) ∉ ["BLK", "SMP", "DSTR"] ∧
      mnemonicOf (.setdly 1) ∉ ["SETGL", "SETGH"] ∧ mnemonicOf (.setdly 1) ≠ "SETGH" := by decide

theorem witness_PartConstantsNeverChange :
    step (machine s0) = .next (machine s0) ∧ 11 ≤ (11 : BitVec 4).toNat ∧ 11 ≤ (15 : BitVec 4).toNat := ⟨by rfl, by decide⟩

theorem witness_StagedValuesWaitForCons :
    let a := { filter .fir 1 1 7 [] [] with sgain := 9, sdelay := 3 }
    let b := filter .fir 1 1 7 [] []
    { a with sgain := b.sgain, sdelay := b.sdelay } = b ∧ fieldOP 0xB0000008 ≠ 0x4 ∧ (0xB0000008 : Word) ≠ 0xB0000005 ∧
      (0xB0000008 : Word) ≠ 0xB0000006 ∧ (0xB0000008 : Word) ≠ 0xB0000007 := by decide

theorem witness_CommandsRunInOrderForTheirHosts :
    (asked s0 [.command 0 0x30000005, .command 7 0xFFFFFFFF, .torn 1 []]).inbox =
      [(0, 0x30000005), (7, 0xFFFFFFFF)].map (fun q => HostInput.command q.1 q.2) ++ [.torn 1 []] := by decide

theorem witness_InstancesShareNothing :
    stepInstance 1 [machine s0, machine s0] = .next [machine s0, machine s0] ∧ [machine s0, machine s0][1]? = some (machine s0) :=
  ⟨by rfl, by rfl⟩

/-- The three staging writes in another order than the listed one, and the prefixes of that boot. -/
theorem witness_BootSequenceBuildsTheFilter :
    let ws := [encode (.setgh 0xFFFF), encode (.setdly 4096), encode (.setgl 1)]
    Part.vectors.ok = true ∧ 1 ≤ (4096 : Half).toNat ∧ (4096 : Half).toNat ≤ Part.vectors.maxDelay.toNat ∧
      1 ≤ (8 : Half).toNat ∧ (8 : Half).toNat ≤ Part.vectors.maxCh.toNat ∧
      ws.Perm [encode (.setdly 4096), encode (.setgl 1), encode (.setgh 0xFFFF)] ∧ [] <+: ws ∧ ws.take 2 <+: ws := by decide

/-- A boot may start at S0, or at a DSTR in the middle of a block. -/
theorem witness_BootSequenceBuildsTheFilter_starts :
    s0 = Arch.afterReset [] [] ∧ (∃ b, (answer (inBlock (filter .iir 2 2 5 [] []) 1 0 2) 0x50000000).1 =
      (cfcStep Part.vectors b (encode .dstr)).1) := ⟨rfl, _, rfl⟩

/-- A Construction that succeeds, and one for each reason to fail. -/
theorem witness_BootSequenceBuildsTheFilter_construction :
    deriveDelay 8000 16001 = .error .invalidDelay ∧ deriveDelay 44100 440 = .ok 100 ∧ gainWordOf (-32768) = .error .gainRange ∧
      gainWordOf (-1) = .ok 0xFFFF0000 ∧ (65535 < 65536) ∧ (inBlock (filter .fir 1 1 0 [] []) 0 0 1).blkActive = true ∧
      s0.blkActive = false ∧ deriveDelay 44100 1 = .ok 44100 ∧ Part.vectors.maxDelay.toNat < (44100 : Half).toNat ∧
      (100 : Half).toNat ≤ Part.vectors.maxDelay.toNat ∧ Part.vectors.maxCh.toNat < 9 ∧ 8 ≤ Part.vectors.maxCh.toNat := by
  decide +kernel

/-- R192 on a core after reset: the filter of R174's example at 44100 Hz and 440 Hz, and a count that the part does not have. -/
theorem test_hostConstruct :
    (hostConstruct Part.vectors s0 44100 440 (-1) 1 .fir).1 = filter .fir 1 100 0xFFFF0000 [] [] ∧
      (hostConstruct Part.vectors s0 44100 440 (-1) 1 .fir).2 = .ok () ∧
      (hostConstruct Part.vectors s0 44100 440 (-1) 9 .fir).2 = .error .invalidChannelCount := by decide +kernel

/-- A delay of 1 just above half a sample, and a frequency above twice the rate. -/
theorem witness_DelayDerivationRoundsHalfUp :
    deriveDelay 8000 16000 = .ok 1 ∧ (0 : Int) < 8000 ∧ 2 * ((8000 : Int) : Rat) < 16001 := by decide +kernel

/-- The ends of the range (R191, 92_eei_decisions.md D30), and V5.4's gain -0.3. -/
theorem witness_GainConversionIsNearest :
    gainWordOf (-32768 + 1 / 65536) = .ok 0x80000001 ∧ gainWordOf (2147483647 / 65536) = .ok 0x7FFFFFFF ∧
      gainWordOf (-3 / 10) = .ok 0xFFFFB333 ∧ gainWordOf (-32768) = .error .gainRange ∧
      gainWordOf 32768 = .error .gainRange ∧ (32768 : Rat) ≤ |(-32768 : Rat)| := by decide +kernel

/-- Digits that spell the first number that does not fit, a real, and the samples of a PROCESS. -/
theorem witness_AssemblerReadsALineOfEachCommand_operands :
    ([6, 5, 5, 3, 6] : List (Fin 10)) ≠ [] ∧ digitsText [6, 5, 5, 3, 6] = "65536".toList ∧ digitsValue [6, 5, 5, 3, 6] = 65536 ∧
      realText true [0] [3] = "-0.3".toList ∧ ([0] : List (Fin 10)) ≠ [] ∧ hexWord 0xFFFF1234 = "0xffff1234".toList ∧
      ([1, 2] : List Half).length = (2 : BitVec 7).toNat * (1 : Half).toNat := by decide

theorem witness_AssemblerReadsALineOfEachCommand : (Instr.rdst 13).wf = true := by decide

end Sys2Proof.Tests
end

section
/-! SUPPORT. One command by the list of checks of 60_exceptions.md R202: `exec` fails with the first failing check of
`firstFailure` or ends with the body `perform`, and what the checks of each command guarantee to its body. -/

namespace Sys2Proof.Machine

/-! ### The checks of each command -/

section
variable (p : Part) (a : Arch)

@[simp] theorem firstFailure_nop : firstFailure p a .nop = none := by
  simp [firstFailure, Instr.wf, mnemonicOf, channelCountOf, declaredCountOf, channelOf]
@[simp] theorem firstFailure_setgl (d : Half) : firstFailure p a (.setgl d) = none := by
  simp [firstFailure, Instr.wf, mnemonicOf, channelCountOf, declaredCountOf, channelOf]
@[simp] theorem firstFailure_setgh (d : Half) : firstFailure p a (.setgh d) = none := by
  simp [firstFailure, Instr.wf, mnemonicOf, channelCountOf, declaredCountOf, channelOf]
@[simp] theorem firstFailure_setdly (d : Half) : firstFailure p a (.setdly d) = none := by
  simp [firstFailure, Instr.wf, mnemonicOf, channelCountOf, declaredCountOf, channelOf]
@[simp] theorem firstFailure_dstr : firstFailure p a .dstr = none := by
  simp [firstFailure, Instr.wf, mnemonicOf, channelCountOf, declaredCountOf, channelOf]

/-- The checks of CONS (43_config_control.md R175). -/
@[simp] theorem firstFailure_cons (k : Kind) (n : Half) :
    firstFailure p a (.cons k n) =
      if a.blkActive then some .blockActive
      else if a.sdelay.toNat < 1 ∨ p.maxDelay.toNat < a.sdelay.toNat then some .invalidDelay
      else if n.toNat < 1 ∨ p.maxCh.toNat < n.toNat then some .invalidChannelCount
      else none := by
  simp [firstFailure, Instr.wf, mnemonicOf, channelCountOf, declaredCountOf, channelOf, imp_iff_not_or]

/-- The checks of BLK (42_block_driver.md R151). -/
@[simp] theorem firstFailure_blk (n : BitVec 7) (f : Half) :
    firstFailure p a (.blk n f) =
      if a.blkActive then some .blockActive
      else if !a.configured then some .notConfigured
      else if n.toNat ≠ a.nch.toNat then some .channelCountMismatch
      else none := by
  simp [firstFailure, Instr.wf, mnemonicOf, channelCountOf, declaredCountOf, channelOf]

/-- The check of SMP (42_block_driver.md R152). -/
@[simp] theorem firstFailure_smp (x : Half) :
    firstFailure p a (.smp x) = if !a.blkActive then some .noBlock else none := by
  simp [firstFailure, Instr.wf, mnemonicOf, channelCountOf, declaredCountOf, channelOf]

/-- The checks of FILT (41_comb_filter.md R128). -/
@[simp] theorem firstFailure_filt (c : Channel) (x : Half) :
    firstFailure p a (.filt c x) =
      if a.blkActive then some .blockActive
      else if !a.configured then some .notConfigured
      else if a.nch.toNat ≤ c.toNat then some .channelIndexRange
      else none := by
  simp [firstFailure, Instr.wf, mnemonicOf, channelCountOf, declaredCountOf, channelOf]

/-- The checks of DLRD (40_delay_line.md R102). -/
@[simp] theorem firstFailure_dlrd (c : Channel) :
    firstFailure p a (.dlrd c) =
      if !a.configured then some .notConfigured
      else if a.nch.toNat ≤ c.toNat then some .channelIndexRange
      else none := by
  simp [firstFailure, Instr.wf, mnemonicOf, channelCountOf, declaredCountOf, channelOf]

/-- The checks of DLWR (40_delay_line.md R103). -/
@[simp] theorem firstFailure_dlwr (c : Channel) (v : Half) :
    firstFailure p a (.dlwr c v) =
      if a.blkActive then some .blockActive
      else if !a.configured then some .notConfigured
      else if a.nch.toNat ≤ c.toNat then some .channelIndexRange
      else none := by
  simp [firstFailure, Instr.wf, mnemonicOf, channelCountOf, declaredCountOf, channelOf]

/-- The check of RDST, which the decoder makes for words (30_encoding.md R80). -/
@[simp] theorem firstFailure_rdst (sel : BitVec 4) :
    firstFailure p a (.rdst sel) = if 13 < sel.toNat then some .illegalCommand else none := by
  simp [firstFailure, Instr.wf, mnemonicOf, channelCountOf, declaredCountOf, channelOf]

/-- The checks of RDCUR (40_delay_line.md R104). -/
@[simp] theorem firstFailure_rdcur (c : Channel) :
    firstFailure p a (.rdcur c) =
      if !a.configured then some .notConfigured
      else if a.nch.toNat ≤ c.toNat then some .channelIndexRange
      else none := by
  simp [firstFailure, Instr.wf, mnemonicOf, channelCountOf, declaredCountOf, channelOf]

/-- Exactly the selectors that RDST does not take have no view (43_config_control.md R180). -/
theorem Arch.view_eq_none_iff (sel : BitVec 4) : a.view p sel = none ↔ 13 < sel.toNat := by
  unfold Arch.view
  split <;> grind

end

/-! ### Executing a command is checking and then performing it -/

/-- How a command ends by R202: the code of the first failing check, or the body. -/
def State.checked (i : Instr) (s : State) : Host.Outcome State Fault Refusal :=
  match firstFailure s.part s.arch i with
  | some code => s.fail i.op code
  | none => s.done i.op (perform s.part s.arch i).2 (perform s.part s.arch i).1

theorem State.checked_of_failure {i : Instr} {s : State} {code : Code} (h : firstFailure s.part s.arch i = some code) :
    s.checked i = s.fail i.op code := by
  rw [State.checked, h]

theorem State.checked_of_pass {i : Instr} {s : State} (h : firstFailure s.part s.arch i = none) :
    s.checked i = s.done i.op (perform s.part s.arch i).2 (perform s.part s.arch i).1 := by
  rw [State.checked, h]

theorem execRdst_eq_checked (sel : BitVec 4) (s : State) : execRdst sel s = s.checked (.rdst sel) := by
  unfold execRdst
  split
  next v hv =>
    have hsel : ¬13 < sel.toNat := by rw [← Arch.view_eq_none_iff s.part s.arch]; simp [hv]
    rw [State.checked_of_pass (by simpa using hsel)]
    simp [perform, hv, Instr.op]
  next hv =>
    have hsel : 13 < sel.toNat := (Arch.view_eq_none_iff s.part s.arch sel).1 hv
    rw [State.checked_of_failure (by rw [firstFailure_rdst, if_pos hsel])]
    rfl

/-- The meaning of every command is its checks in the order of R202 and then its body. -/
theorem exec_eq_checked (i : Instr) (s : State) : exec i s = s.checked i := by
  cases i with
  | nop => rw [State.checked_of_pass (firstFailure_nop _ _)]; rfl
  | setgl d => rw [State.checked_of_pass (firstFailure_setgl _ _ d)]; rfl
  | setgh d => rw [State.checked_of_pass (firstFailure_setgh _ _ d)]; rfl
  | setdly d => rw [State.checked_of_pass (firstFailure_setdly _ _ d)]; rfl
  | dstr => rw [State.checked_of_pass (firstFailure_dstr _ _)]; rfl
  | rdst sel => exact execRdst_eq_checked sel s
  | cons k n => simp only [State.checked, firstFailure_cons, exec, execCons]; split_ifs <;> rfl
  | blk n f => simp only [State.checked, firstFailure_blk, exec, execBlk, perform]; split_ifs <;> rfl
  | smp x => simp only [State.checked, firstFailure_smp, exec, execSmp]; split_ifs <;> rfl
  | filt c x => simp only [State.checked, firstFailure_filt, exec, execFilt]; split_ifs <;> rfl
  | dlrd c => simp only [State.checked, firstFailure_dlrd, exec, execDlrd]; split_ifs <;> rfl
  | dlwr c v => simp only [State.checked, firstFailure_dlwr, exec, execDlwr]; split_ifs <;> rfl
  | rdcur c => simp only [State.checked, firstFailure_rdcur, exec, execRdcur]; split_ifs <;> rfl

/-- A word whose command fails a check: the state is unchanged, and the response carries the code (60_exceptions.md R201). -/
theorem cfcStep_of_failure {p : Part} {a : Arch} {w : Word} {i : Instr} {code : Code} (hd : decode w = .ok i)
    (hf : firstFailure p a i = some code) :
    cfcStep p a w = (a, responseWord i.op code a.blkActive a.configured 0) :=
  cfcStep_of_respond hd (by rw [exec_eq_checked, State.checked_of_failure hf]; rfl)

/-- A word whose command passes its checks: the body is performed, and the response carries its DATA. -/
theorem cfcStep_of_pass {p : Part} {a : Arch} {w : Word} {i : Instr} (hd : decode w = .ok i)
    (hf : firstFailure p a i = none) :
    cfcStep p a w = ((perform p a i).1,
      responseWord i.op .ok (perform p a i).1.blkActive (perform p a i).1.configured (perform p a i).2) :=
  cfcStep_of_respond hd (by rw [exec_eq_checked, State.checked_of_pass hf]; rfl)

end Sys2Proof.Machine
end

section
/-! SUPPORT. Every command keeps the invariant of the architectural state (10_state.md R34; 20_memory.md R51): one lemma per
operation on the state, then one per command body, then the step of one word. -/

namespace Sys2Proof.Machine

/-! ### The slot and the cursor that a line write changes -/

/-- Different slots have different addresses. -/
theorem slotAddr_inj (c c' : Channel) (i i' : Half) :
    slotAddr c.toNat i.toNat = slotAddr c'.toNat i'.toNat ↔ c = c' ∧ i = i' := by
  have hi := i.isLt
  have hi' := i'.isLt
  rw [← BitVec.toNat_inj, ← BitVec.toNat_inj, slotAddr, slotAddr]
  omega

/-- The slots of a region of delay lines. -/
theorem lineRegion_slotAddr (n d c : Nat) (i : Half) : lineRegion n d (slotAddr c i.toNat) = true ↔ c < n ∧ i.toNat < d := by
  have hi := i.isLt
  rw [lineRegion, slotAddr, Bool.and_eq_true, decide_eq_true_iff, decide_eq_true_iff]
  omega

/-- Where the cursor of a channel goes next (40_delay_line.md R101). -/
def Arch.nextCursor (c : Channel) (a : Arch) : Half :=
  if (a.cursor c).toNat + 1 = a.delay.toNat then 0 else a.cursor c + 1

@[simp] theorem Arch.lineWrite_cur (c : Channel) (v : Half) (a : Arch) :
    (a.lineWrite c v).cur = a.cur.write c.toNat (a.nextCursor c) := by
  rw [Arch.lineWrite, Arch.adv_eq]; rfl

theorem Arch.nextCursor_lt {c : Channel} {a : Arch} (h : (a.cursor c).toNat < a.delay.toNat) :
    (a.nextCursor c).toNat < a.delay.toNat := by
  have hd := a.delay.isLt
  unfold Arch.nextCursor
  split_ifs with hwrap
  · simp; omega
  · rw [BitVec.toNat_add_of_lt (by simp; omega)]; simp; omega

/-- A line write moves the cursor of its channel and no other. -/
theorem Arch.cursor_lineWrite {a : Arch} (hcur : a.cur.wf = true) (c c' : Channel) (v : Half) :
    (a.lineWrite c v).cursor c' = if c' = c then a.nextCursor c else a.cursor c' := by
  unfold Arch.cursor
  rw [Arch.lineWrite_cur]
  split_ifs with hc
  · rw [hc, Memory.read_write_same hcur]
  · rw [Memory.read_write_other _ (by rwa [Ne, BitVec.toNat_inj])]

/-- A line write changes the slot at the cursor of its channel and no other. -/
theorem Arch.dlRead_lineWrite {a : Arch} (hdl : a.dl.wf = true) (c c' : Channel) (i v : Half) :
    (a.lineWrite c v).dlRead c' i = if c' = c ∧ i = a.cursor c then v else a.dlRead c' i := by
  unfold Arch.dlRead
  rw [Arch.lineWrite_dl]
  split_ifs with hslot
  · rw [hslot.1, hslot.2, Memory.read_write_same hdl]
  · rw [Memory.read_write_other _ (by rwa [Ne, slotAddr_inj])]

/-! ### The operations keep the invariant -/

section
variable {p : Part} {a : Arch}

/-- Clause (a) of R34 for one channel: its cursor is a slot of its delay line. -/
theorem Arch.inv.cursor_lt (h : a.inv p) (hcfg : a.configured = true) {c : Channel} (hc : c.toNat < a.nch.toNat) :
    (a.cursor c).toNat < a.delay.toNat := by
  obtain ⟨⟨hshape, -⟩, -⟩ := h
  obtain ⟨-, -, -, -, hcursors⟩ := hshape hcfg
  exact hcursors _ hc

theorem Arch.lineWrite_keeps_inv (h : a.inv p) (hcfg : a.configured = true) {c : Channel} (hc : c.toNat < a.nch.toNat)
    (v : Half) : (a.lineWrite c v).inv p := by
  have hcursor := h.cursor_lt hcfg hc
  obtain ⟨⟨hshape, huncfg, hopen, hclosed⟩, hdl, hcur, hdlIn, hcurIn⟩ := h
  obtain ⟨hd1, hdmax, hn1, hnmax, hcursors⟩ := hshape hcfg
  have hslot : lineRegion p.maxCh.toNat p.maxDelay.toNat (slotAddr c.toNat (a.cursor c).toNat) = true :=
    (lineRegion_slotAddr _ _ _ _).2 ⟨by omega, by omega⟩
  have hcell : cursorRegion p.maxCh.toNat c.toNat = true := by
    simp only [cursorRegion, decide_eq_true_eq]
    omega
  refine ⟨⟨fun _ => ?_, ?_, ?_, ?_⟩, ?_⟩
  · refine ⟨by simpa using hd1, by simpa using hdmax, by simpa using hn1, by simpa using hnmax, fun k hk => ?_⟩
    rw [Arch.lineWrite_cur, Arch.lineWrite_delay]
    rw [Arch.lineWrite_nch] at hk
    by_cases hkc : k = c.toNat
    · rw [hkc, Memory.read_write_same hcur]
      exact Arch.nextCursor_lt hcursor
    · rw [Memory.read_write_other _ hkc]
      exact hcursors k hk
  · simpa [Arch.unconfiguredOk] using huncfg
  · simpa [Arch.openBlockOk] using hopen
  · simpa [Arch.closedBlockOk] using hclosed
  · simp only [Arch.memoryOk, Arch.lineWrite_dl, Arch.lineWrite_cur]
    exact ⟨Memory.write_wf hdl _ _, Memory.write_wf hcur _ _, Memory.write_within hdlIn hslot _,
      Memory.write_within hcurIn hcell _⟩

/-- A sample operation is a line write of some value. -/
theorem Arch.sampleOp_keeps_inv (h : a.inv p) (hcfg : a.configured = true) {c : Channel} (hc : c.toNat < a.nch.toNat)
    (x : Half) : (a.sampleOp c x).1.inv p := by
  rw [Arch.sampleOp_eq]
  exact Arch.lineWrite_keeps_inv h hcfg hc _

/-- While a block is open, clauses (b) and (d) of R34 say nothing. -/
theorem Arch.inv_of_blockOpen (hshape : a.shapeOk p) (hmem : a.memoryOk p) (hcfg : a.configured = true)
    (hact : a.blkActive = true) (hch : a.blkCh.toNat < a.nch.toNat) (hframes : 1 ≤ a.blkFrames.toNat)
    (hframe : a.blkFrame.toNat < a.blkFrames.toNat) : a.inv p :=
  ⟨⟨hshape, fun h => absurd hcfg (by simp [h]), fun _ => ⟨hcfg, hch, hframes, hframe⟩, fun h => absurd hact (by simp [h])⟩, hmem⟩

theorem Arch.nextInBlock_keeps_inv (hp : p.ok = true) (h : a.inv p) (hact : a.blkActive = true) :
    a.nextInBlock.inv p := by
  simp only [Part.ok, Bool.and_eq_true, decide_eq_true_eq] at hp
  obtain ⟨⟨hshape, -, hopen, -⟩, hmem⟩ := h
  obtain ⟨hcfg, hch, hframes, hframe⟩ := hopen hact
  obtain ⟨-, -, -, hnmax, -⟩ := hshape hcfg
  unfold Arch.nextInBlock
  split_ifs with hf hc
  · exact ⟨⟨hshape, fun h => absurd hcfg (by simpa using h), fun h => absurd h (by simp), fun _ => ⟨rfl, rfl, rfl⟩⟩, hmem⟩
  · have hnext : (a.blkCh + 1).toNat < a.nch.toNat := by bv_omega
    exact Arch.inv_of_blockOpen hshape hmem hcfg hact hnext hframes hframes
  · have hnext : (a.blkFrame + 1).toNat < a.blkFrames.toNat := by bv_omega
    exact Arch.inv_of_blockOpen hshape hmem hcfg hact hch hframes hnext

theorem Arch.openBlock_keeps_inv (h : a.inv p) (hcfg : a.configured = true) {f : Half} (hf : f.toNat ≠ 0) :
    (a.openBlock f).inv p := by
  obtain ⟨⟨hshape, -⟩, hmem⟩ := h
  obtain ⟨-, -, hn, -, -⟩ := hshape hcfg
  have hframes : 1 ≤ f.toNat := Nat.one_le_iff_ne_zero.2 hf
  exact Arch.inv_of_blockOpen hshape hmem hcfg rfl hn hframes hframes

theorem Arch.construct_keeps_inv (h : a.inv p) (hact : a.blkActive = false) {n : Half} (hd1 : 1 ≤ a.sdelay.toNat)
    (hdmax : a.sdelay.toNat ≤ p.maxDelay.toNat) (hn1 : 1 ≤ n.toNat) (hnmax : n.toNat ≤ p.maxCh.toNat) (k : Kind) :
    (a.construct k n).inv p := by
  obtain ⟨⟨-, -, -, hclosed⟩, hdl, hcur, hdlIn, hcurIn⟩ := h
  have hmax := p.maxCh.isLt
  have hnch : (n.setWidth 5).toNat = n.toNat := by rw [BitVec.toNat_setWidth]; omega
  refine ⟨⟨fun _ => ?_, fun h => by simp at h, fun h => by simp [hact] at h, hclosed⟩, ?_⟩
  · simp only [Arch.construct_delay, Arch.construct_nch, Arch.construct_cur, hnch]
    refine ⟨hd1, hdmax, hn1, hnmax, fun c hc => ?_⟩
    rw [Memory.read_clear, if_pos (by simpa [cursorRegion] using hc)]
    exact hd1
  · exact ⟨Memory.clear_wf hdl _, Memory.clear_wf hcur _, Memory.clear_within hdlIn _, Memory.clear_within hcurIn _⟩

theorem Arch.destroy_keeps_inv (h : a.inv p) : a.destroy.inv p :=
  ⟨⟨fun h => by simp at h, fun _ => ⟨rfl, rfl, rfl, rfl, rfl⟩, fun h => by simp at h, fun _ => ⟨rfl, rfl, rfl⟩⟩, h.2⟩

/-! ### The commands keep the invariant -/

/-- The channel whose delay line a command reads or writes, as 10_state.md R40 names it: field CH, or the current channel for
SMP. -/
def Arch.usedChannel (i : Instr) (a : Arch) : Option Channel :=
  match i with
  | .smp _ => some a.blkCh
  | _ => channelOf i

/-- A command with field CH uses that channel, SMP the current one; CONS uses none. -/
theorem Arch.usedChannel_eq_some_iff (c : Channel) :
    a.usedChannel i = some c ↔ channelOf i = some c ∨ (∃ x, i = .smp x) ∧ a.blkCh = c := by
  cases i <;> simp [Arch.usedChannel, channelOf]

/-- A command that passes its checks uses a channel of the filter. -/
theorem Arch.usedChannel_lt {i : Instr} {c : Channel} (h : a.inv p) (hf : firstFailure p a i = none)
    (hc : a.usedChannel i = some c) : a.configured = true ∧ c.toNat < a.nch.toNat := by
  cases i with
  | smp x =>
    obtain rfl : a.blkCh = c := Option.some.inj hc
    obtain ⟨⟨-, -, hopen, -⟩, -⟩ := h
    obtain ⟨hcfg, hch, -⟩ := hopen (by simpa using hf)
    exact ⟨hcfg, hch⟩
  | filt c' _ | dlwr c' _ =>
    obtain rfl : c' = c := Option.some.inj hc
    simp only [firstFailure_filt, firstFailure_dlwr] at hf
    split_ifs at hf with hact hcfg hrange
    exact ⟨by simpa using hcfg, Nat.lt_of_not_le hrange⟩
  | dlrd c' | rdcur c' =>
    obtain rfl : c' = c := Option.some.inj hc
    simp only [firstFailure_dlrd, firstFailure_rdcur] at hf
    split_ifs at hf with hcfg hrange
    exact ⟨by simpa using hcfg, Nat.lt_of_not_le hrange⟩
  | nop | setgl | setgh | setdly | cons | dstr | blk | rdst => cases hc

/-- The body of a command that passes its checks keeps the invariant. -/
theorem perform_keeps_inv {i : Instr} (hp : p.ok = true) (h : a.inv p) (hf : firstFailure p a i = none) :
    (perform p a i).1.inv p := by
  cases i with
  | nop | setgl | setgh | setdly | dlrd | rdst | rdcur => exact h
  | dstr => exact Arch.destroy_keeps_inv h
  | cons k n =>
    rw [firstFailure_cons] at hf
    split_ifs at hf with hact hdelay hcount
    exact Arch.construct_keeps_inv h (by simpa using hact) (by omega) (by omega) (by omega) (by omega) k
  | blk n f =>
    rw [firstFailure_blk] at hf
    split_ifs at hf with hact hcfg hcount
    simp only [perform]
    split_ifs with hframes
    · exact h
    · exact Arch.openBlock_keeps_inv h (by simpa using hcfg) hframes
  | smp x =>
    obtain ⟨hcfg, hch⟩ := Arch.usedChannel_lt h hf (i := .smp x) rfl
    exact Arch.nextInBlock_keeps_inv hp (Arch.sampleOp_keeps_inv h hcfg hch x) (by simpa using hf)
  | filt c x =>
    obtain ⟨hcfg, hch⟩ := Arch.usedChannel_lt h hf (i := .filt c x) rfl
    exact Arch.sampleOp_keeps_inv h hcfg hch x
  | dlwr c v =>
    obtain ⟨hcfg, hch⟩ := Arch.usedChannel_lt h hf (i := .dlwr c v) rfl
    exact Arch.lineWrite_keeps_inv h hcfg hch v

/-- The step of any word keeps the invariant. -/
theorem cfcStep_keeps_inv (hp : p.ok = true) (h : a.inv p) (w : Word) : (cfcStep p a w).1.inv p := by
  cases hd : decode w with
  | error e => rw [cfcStep_of_error hd]; exact h
  | ok i =>
    cases hf : firstFailure p a i with
    | some code => rw [cfcStep_of_failure hd hf]; exact h
    | none => rw [cfcStep_of_pass hd hf]; exact perform_keeps_inv hp h hf

end

end Sys2Proof.Machine
end

section
/-! SUPPORT. What a command sees of the memory and what it changes there (10_state.md R39, R40): it reads no more than the cursor
and the tap of the channel it uses, and writes no more than one slot and the cursor of that channel. -/

namespace Sys2Proof.Machine

/-! ### Two states with the same registers -/

/-- All registers are the same; the delay-line memory and the cursors may differ. -/
abbrev Arch.sameRegs (a b : Arch) : Prop := { a with dl := b.dl, cur := b.cur } = b

section
variable {a b : Arch}

theorem Arch.sameRegs.configured_eq (h : a.sameRegs b) : a.configured = b.configured := (congrArg Arch.configured h :)
theorem Arch.sameRegs.delay_eq (h : a.sameRegs b) : a.delay = b.delay := (congrArg Arch.delay h :)
theorem Arch.sameRegs.gain_eq (h : a.sameRegs b) : a.gain = b.gain := (congrArg Arch.gain h :)
theorem Arch.sameRegs.sdelay_eq (h : a.sameRegs b) : a.sdelay = b.sdelay := (congrArg Arch.sdelay h :)
theorem Arch.sameRegs.blkActive_eq (h : a.sameRegs b) : a.blkActive = b.blkActive := (congrArg Arch.blkActive h :)
theorem Arch.sameRegs.blkCh_eq (h : a.sameRegs b) : a.blkCh = b.blkCh := (congrArg Arch.blkCh h :)

theorem Arch.sameRegs.exists_memory (h : a.sameRegs b) : ∃ dl cur, b = { a with dl := dl, cur := cur } :=
  ⟨b.dl, b.cur, h.symm⟩

/-- The checks of R202 read registers only. -/
theorem firstFailure_congr (p : Part) (i : Instr) (h : a.sameRegs b) :
    firstFailure p b i = firstFailure p a i := by
  obtain ⟨dl, cur, rfl⟩ := h.exists_memory
  rfl

theorem Arch.usedChannel_congr (i : Instr) (h : a.sameRegs b) : b.usedChannel i = a.usedChannel i := by
  obtain ⟨dl, cur, rfl⟩ := h.exists_memory
  rfl

theorem Arch.sameRegs_lineWrite (h : a.sameRegs b) (c c' : Channel) (v v' : Half) :
    (a.lineWrite c v).sameRegs (b.lineWrite c' v') := by
  obtain ⟨dl, cur, rfl⟩ := h.exists_memory
  simp only [Arch.lineWrite, Arch.adv_eq]
  rfl

theorem Arch.sameRegs_nextInBlock (h : a.sameRegs b) : a.nextInBlock.sameRegs b.nextInBlock := by
  obtain ⟨dl, cur, rfl⟩ := h.exists_memory
  unfold Arch.nextInBlock
  split_ifs <;> rfl

theorem Arch.sameRegs_construct {a b : Arch} (h : a.sameRegs b) (k : Kind) (n : Half) :
    (a.construct k n).sameRegs (b.construct k n) := by
  obtain ⟨dl, cur, rfl⟩ := h.exists_memory
  rfl

/-- The body of a command writes registers by registers only. -/
theorem perform_sameRegs (p : Part) (i : Instr) (h : a.sameRegs b) :
    (perform p a i).1.sameRegs (perform p b i).1 := by
  cases i with
  | filt c x => exact Arch.sameRegs_lineWrite h _ _ _ _
  | dlwr c v => exact Arch.sameRegs_lineWrite h _ _ _ _
  | smp x => exact Arch.sameRegs_nextInBlock (Arch.sameRegs_lineWrite h _ _ _ _)
  | cons k n => exact Arch.sameRegs_construct h k n
  | blk n f =>
    obtain ⟨dl, cur, rfl⟩ := h.exists_memory
    simp only [perform]
    split_ifs <;> rfl
  | nop | setgl | setgh | setdly | dstr | dlrd | rdst | rdcur =>
    obtain ⟨dl, cur, rfl⟩ := h.exists_memory
    rfl

end

/-! ### Two states with the same slots on a channel -/

/-- A channel has the same cursor in two states, and the same content in the slots that `P` picks. -/
def Arch.sameSlots (P : Half → Prop) (c : Channel) (a b : Arch) : Prop :=
  a.cursor c = b.cursor c ∧ ∀ i : Half, P i → a.dlRead c i = b.dlRead c i

theorem Arch.sameLine_iff (c : Channel) (a b : Arch) : a.sameLine c b ↔ a.sameSlots (fun _ => True) c b := by
  simp [Arch.sameLine, Arch.sameSlots]

section
variable {P : Half → Prop} {c c' : Channel} {a b : Arch}

/-- The tap is one of the slots. -/
theorem Arch.sameSlots.tap_eq (h : a.sameSlots P c b) (hcursor : P (a.cursor c)) : a.tap c = b.tap c := by
  obtain ⟨hcur, hslots⟩ := h
  rw [Arch.tap, Arch.tap, ← hcur, hslots _ hcursor]

/-- A line write leaves the other channels alone. -/
theorem Arch.sameSlots_lineWrite_other (ha : a.dl.wf = true ∧ a.cur.wf = true) (hne : c' ≠ c) (v : Half) :
    a.sameSlots P c' (a.lineWrite c v) := by
  refine ⟨?_, fun i _ => ?_⟩
  · rw [Arch.cursor_lineWrite ha.2, if_neg hne]
  · rw [Arch.dlRead_lineWrite ha.1, if_neg fun h => hne h.1]

/-- What two line writes leave in a channel is the same if it was before and, should they go to this channel, they write the same
value. -/
theorem Arch.sameSlots_lineWrite (ha : a.dl.wf = true ∧ a.cur.wf = true) (hb : b.dl.wf = true ∧ b.cur.wf = true)
    (hdelay : a.delay = b.delay) (h : a.sameSlots P c' b) {v v' : Half} (hv : c' = c → v = v') :
    (a.lineWrite c v).sameSlots P c' (b.lineWrite c v') := by
  obtain ⟨hcursor, hslots⟩ := h
  refine ⟨?_, fun i hi => ?_⟩
  · rw [Arch.cursor_lineWrite ha.2, Arch.cursor_lineWrite hb.2]
    split_ifs with hc
    · subst hc; rw [Arch.nextCursor, Arch.nextCursor, hcursor, hdelay]
    · exact hcursor
  · rw [Arch.dlRead_lineWrite ha.1, Arch.dlRead_lineWrite hb.1]
    by_cases hc : c' = c
    · subst hc; rw [hcursor, hslots i hi, hv rfl]
    · rw [if_neg (fun h => hc h.1), if_neg (fun h => hc h.1), hslots i hi]

@[simp] theorem Arch.sameSlots_nextInBlock : a.nextInBlock.sameSlots P c b.nextInBlock ↔ a.sameSlots P c b := by
  simp [Arch.sameSlots, Arch.cursor, Arch.dlRead]

@[simp] theorem Arch.sameSlots_nextInBlock_right : a.sameSlots P c b.nextInBlock ↔ a.sameSlots P c b := by
  simp [Arch.sameSlots, Arch.cursor, Arch.dlRead]

end

/-! ### The body of a command -/

/-- The value that a sample operation writes back (41_comb_filter.md R126, R127). -/
def Arch.writtenBack (c : Channel) (x : Half) (a : Arch) : Half :=
  match a.kind with
  | .fir => bits16 (sval16 x)
  | .iir => bits16 (combValue a.gain (a.tap c) x)

theorem Arch.sampleOp_fst (c : Channel) (x : Half) (a : Arch) : (a.sampleOp c x).1 = a.lineWrite c (a.writtenBack c x) := by
  rw [Arch.sampleOp_eq]; rfl

section
variable {P : Half → Prop} {p : Part} {a b : Arch} {i : Instr} {c c' : Channel}

/-- The tap is all of the memory that a sample operation reads. -/
theorem Arch.writtenBack_congr (x : Half) (hregs : a.sameRegs b) (htap : a.tap c = b.tap c) :
    a.writtenBack c x = b.writtenBack c x := by
  obtain ⟨dl, cur, rfl⟩ := hregs.exists_memory
  simp only [Arch.writtenBack, htap]

/-- What a command other than CONS leaves in a channel depends on that channel and the registers only. -/
theorem perform_sameSlots (hcons : ∀ k n, i ≠ .cons k n) (ha : a.dl.wf = true ∧ a.cur.wf = true)
    (hb : b.dl.wf = true ∧ b.cur.wf = true) (hregs : a.sameRegs b)
    (htap : a.usedChannel i = some c' → a.tap c' = b.tap c') (h : a.sameSlots P c' b) :
    (perform p a i).1.sameSlots P c' (perform p b i).1 := by
  have hsample : ∀ c x, (c' = c → a.usedChannel i = some c') → (a.sampleOp c x).1.sameSlots P c' (b.sampleOp c x).1 := by
    intro c x hused
    rw [Arch.sampleOp_fst, Arch.sampleOp_fst]
    exact Arch.sameSlots_lineWrite ha hb hregs.delay_eq h fun hc => Arch.writtenBack_congr x hregs (hc ▸ htap (hused hc))
  cases i with
  | filt c x => exact hsample c x fun hc => congrArg some hc.symm
  | smp x =>
    simp only [perform, Arch.sameSlots_nextInBlock, ← hregs.blkCh_eq]
    exact hsample a.blkCh x fun hc => congrArg some hc.symm
  | dlwr c v => exact Arch.sameSlots_lineWrite ha hb hregs.delay_eq h fun _ => rfl
  | cons k n => exact absurd rfl (hcons k n)
  | blk n f =>
    simp only [perform]
    split_ifs <;> exact h
  | nop | setgl | setgh | setdly | dstr | dlrd | rdst | rdcur => exact h

/-- A command other than CONS leaves every channel alone but the one it uses. -/
theorem perform_sameSlots_other (hcons : ∀ k n, i ≠ .cons k n) (ha : a.dl.wf = true ∧ a.cur.wf = true)
    (hother : a.usedChannel i ≠ some c') : a.sameSlots P c' (perform p a i).1 := by
  have hself : a.sameSlots P c' a := ⟨rfl, fun _ _ => rfl⟩
  cases i with
  | filt c x => exact Arch.sameSlots_lineWrite_other ha (fun hc => hother (congrArg some hc.symm)) _
  | smp x =>
    simp only [perform, Arch.sameSlots_nextInBlock_right]
    exact Arch.sameSlots_lineWrite_other ha (fun hc => hother (congrArg some hc.symm)) _
  | dlwr c v => exact Arch.sameSlots_lineWrite_other ha (fun hc => hother (congrArg some hc.symm)) _
  | cons k n => exact absurd rfl (hcons k n)
  | blk n f =>
    simp only [perform]
    split_ifs <;> exact hself
  | nop | setgl | setgh | setdly | dstr | dlrd | rdst | rdcur => exact hself

/-- The DATA of a command depends on the registers, and on the cursor and the tap of the channel it uses. -/
theorem perform_data_congr (hregs : a.sameRegs b)
    (hused : ∀ c, a.usedChannel i = some c → a.cursor c = b.cursor c ∧ a.tap c = b.tap c) :
    (perform p a i).2 = (perform p b i).2 := by
  cases i with
  | filt c x =>
    obtain ⟨-, htap⟩ := hused c rfl
    simp only [perform, Arch.sampleOp_output, hregs.gain_eq, htap]
  | smp x =>
    obtain ⟨-, htap⟩ := hused a.blkCh rfl
    simp only [perform, Arch.sampleOp_output, hregs.gain_eq, htap, ← hregs.blkCh_eq]
  | dlrd c => exact (hused c rfl).2
  | rdcur c => exact (hused c rfl).1
  | rdst sel =>
    obtain ⟨dl, cur, rfl⟩ := hregs.exists_memory
    rfl
  | nop | setgl | setgh | setdly | cons | dstr | blk | dlwr => rfl

/-! ### The step of a word -/

/-- Two states with the same registers, and with the same cursor and tap on the channel that a command uses, answer it with the same
response, and their registers stay the same. -/
theorem cfcStep_congr {w : Word} (hd : decode w = .ok i) (hregs : a.sameRegs b)
    (hused : firstFailure p a i = none → ∀ c, a.usedChannel i = some c → a.cursor c = b.cursor c ∧ a.tap c = b.tap c) :
    (cfcStep p a w).2 = (cfcStep p b w).2 ∧ (cfcStep p a w).1.sameRegs (cfcStep p b w).1 := by
  cases hf : firstFailure p a i with
  | some code =>
    rw [cfcStep_of_failure hd hf, cfcStep_of_failure hd ((firstFailure_congr p i hregs).trans hf)]
    obtain ⟨dl, cur, rfl⟩ := hregs.exists_memory
    exact ⟨rfl, rfl⟩
  | none =>
    rw [cfcStep_of_pass hd hf, cfcStep_of_pass hd ((firstFailure_congr p i hregs).trans hf)]
    have hafter := perform_sameRegs p i hregs
    exact ⟨by rw [hafter.blkActive_eq, hafter.configured_eq, perform_data_congr hregs (hused hf)], hafter⟩

end

end Sys2Proof.Machine
end

section
/-! SUPPORT. Slots and cursors outside the filter never show (10_state.md R39), and channels do not interact (10_state.md R40). -/

namespace Sys2Proof.Machine

section
variable {p : Part} {a b : Arch} {i : Instr}

/-- The parts of the invariant that reading after writing needs. -/
theorem Arch.inv.memory_wf (h : a.inv p) : a.dl.wf = true ∧ a.cur.wf = true := by
  obtain ⟨-, hdl, hcur, -⟩ := h
  exact ⟨hdl, hcur⟩

/-- What a host can see of a state, channel by channel. -/
theorem Arch.sameVisible_iff : a.sameVisible b ↔ a.sameRegs b ∧
    (a.configured = true → ∀ c : Channel, c.toNat < a.nch.toNat → a.sameSlots (fun i => i.toNat < a.delay.toNat) c b) :=
  Iff.rfl

/-- Where the same is visible, a command that passes its checks finds the same cursor and tap. -/
theorem Arch.sameVisible.usedChannel_eq (h : a.sameVisible b) (ha : a.inv p) (hf : firstFailure p a i = none) {c : Channel}
    (hc : a.usedChannel i = some c) : a.cursor c = b.cursor c ∧ a.tap c = b.tap c := by
  obtain ⟨-, hlines⟩ := Arch.sameVisible_iff.1 h
  obtain ⟨hcfg, hch⟩ := Arch.usedChannel_lt ha hf hc
  have hline := hlines hcfg c hch
  exact ⟨hline.1, hline.tap_eq (ha.cursor_lt hcfg hch)⟩

/-- CONS zeroes all of the filter's slots and cursors, so nothing of the old memory is visible (43_config_control.md R174). -/
theorem Arch.sameVisible_construct (hregs : a.sameRegs b) (k : Kind) (n : Half) :
    (a.construct k n).sameVisible (b.construct k n) := by
  have hdelay : a.sdelay = b.sdelay := hregs.sdelay_eq
  refine ⟨Arch.sameRegs_construct hregs k n, fun _ c hc => ?_⟩
  have hcn : c.toNat < n.toNat := by
    rw [Arch.construct_nch, BitVec.toNat_setWidth] at hc
    exact Nat.lt_of_lt_of_le hc (Nat.mod_le _ _)
  refine ⟨?_, fun i hi => ?_⟩
  · have hcell : cursorRegion n.toNat c.toNat = true := decide_eq_true hcn
    simp only [Arch.cursor, Arch.construct_cur, Memory.read_clear, hcell, if_true]
  · have hslot : lineRegion n.toNat b.sdelay.toNat (slotAddr c.toNat i.toNat) = true :=
      (lineRegion_slotAddr _ _ _ _).2 ⟨hcn, hdelay ▸ hi⟩
    simp only [Arch.dlRead, Arch.construct_dl, Memory.read_clear, hdelay, hslot, if_true]

/-- Only CONS and DSTR change the shape of the filter. -/
theorem perform_shape (hcons : ∀ k n, i ≠ .cons k n) (hdstr : i ≠ .dstr) :
    (perform p a i).1.configured = a.configured ∧ (perform p a i).1.nch = a.nch ∧ (perform p a i).1.delay = a.delay := by
  cases i with
  | cons k n => exact absurd rfl (hcons k n)
  | dstr => exact absurd rfl hdstr
  | filt | smp | dlwr => simp [perform]
  | blk n f =>
    simp only [perform]
    split_ifs <;> exact ⟨rfl, rfl, rfl⟩
  | nop | setgl | setgh | setdly | dlrd | rdst | rdcur => exact ⟨rfl, rfl, rfl⟩

/-- The body of a command that passes its checks keeps what is visible the same. -/
theorem perform_sameVisible (ha : a.inv p) (hb : b.inv p) (h : a.sameVisible b) (hf : firstFailure p a i = none) :
    (perform p a i).1.sameVisible (perform p b i).1 := by
  obtain ⟨hregs, hlines⟩ := Arch.sameVisible_iff.1 h
  by_cases hcons : ∃ k n, i = .cons k n
  · obtain ⟨k, n, rfl⟩ := hcons
    exact Arch.sameVisible_construct hregs k n
  by_cases hdstr : i = .dstr
  · subst hdstr
    exact ⟨perform_sameRegs p _ hregs, fun hcfg => absurd hcfg (by simp [perform])⟩
  have hcons' : ∀ k n, i ≠ .cons k n := fun k n hi => hcons ⟨k, n, hi⟩
  obtain ⟨hcfg, hnch, hdelay⟩ := perform_shape (p := p) (a := a) hcons' hdstr
  rw [Arch.sameVisible_iff, hcfg, hnch, hdelay]
  exact ⟨perform_sameRegs p i hregs, fun hc c hch =>
    perform_sameSlots hcons' ha.memory_wf hb.memory_wf hregs (fun hused => (h.usedChannel_eq ha hf hused).2) (hlines hc c hch)⟩

/-- One step of the noninterference of R39: the same response, and the same is visible after it. -/
theorem cfcStep_sameVisible (ha : a.inv p) (hb : b.inv p) (h : a.sameVisible b) (w : Word) :
    (cfcStep p a w).2 = (cfcStep p b w).2 ∧ (cfcStep p a w).1.sameVisible (cfcStep p b w).1 := by
  have hregs : a.sameRegs b := h.1
  cases hd : decode w with
  | error e =>
    rw [cfcStep_of_error hd, cfcStep_of_error hd]
    exact ⟨by rw [hregs.blkActive_eq, hregs.configured_eq], h⟩
  | ok i =>
    refine ⟨(cfcStep_congr hd hregs fun hf c hc => h.usedChannel_eq ha hf hc).1, ?_⟩
    cases hf : firstFailure p a i with
    | some code =>
      rw [cfcStep_of_failure hd hf, cfcStep_of_failure hd ((firstFailure_congr p i hregs).trans hf)]
      exact h
    | none =>
      rw [cfcStep_of_pass hd hf, cfcStep_of_pass hd ((firstFailure_congr p i hregs).trans hf)]
      exact perform_sameVisible ha hb h hf

/-- A channel's line after one step depends on that line and the registers only, unless the command is CONS. -/
theorem cfcStep_sameLine {w : Word} {c : Channel} (hd : decode w = .ok i) (hcons : ∀ k n, i ≠ .cons k n) (ha : a.inv p)
    (hb : b.inv p) (hregs : a.sameRegs b) (h : a.sameLine c b) : (cfcStep p a w).1.sameLine c (cfcStep p b w).1 := by
  rw [Arch.sameLine_iff] at h ⊢
  cases hf : firstFailure p a i with
  | some code =>
    rw [cfcStep_of_failure hd hf, cfcStep_of_failure hd ((firstFailure_congr p i hregs).trans hf)]
    exact h
  | none =>
    rw [cfcStep_of_pass hd hf, cfcStep_of_pass hd ((firstFailure_congr p i hregs).trans hf)]
    exact perform_sameSlots hcons ha.memory_wf hb.memory_wf hregs (fun _ => h.tap_eq trivial) h

/-- A step leaves every channel's line alone but the one that its command uses, unless the command is CONS. -/
theorem cfcStep_sameLine_other {w : Word} {c' : Channel} (hd : decode w = .ok i) (hcons : ∀ k n, i ≠ .cons k n) (ha : a.inv p)
    (hother : a.usedChannel i ≠ some c') : a.sameLine c' (cfcStep p a w).1 := by
  rw [Arch.sameLine_iff]
  cases hf : firstFailure p a i with
  | some code =>
    rw [cfcStep_of_failure hd hf]
    exact ⟨rfl, fun _ _ => rfl⟩
  | none =>
    rw [cfcStep_of_pass hd hf]
    exact perform_sameSlots_other hcons ha.memory_wf hother

end

/-- Settles O49, by induction on the run: every step keeps the invariant of both states and `sameVisible` between them. -/
theorem unobservableCellsNeverShow : Obligations.UnobservableCellsNeverShow := by
  intro p a b ws hp ha hb h
  induction ws generalizing a b with
  | nil => exact ⟨rfl, h⟩
  | cons w ws ih =>
    obtain ⟨hresponse, hafter⟩ := cfcStep_sameVisible ha hb h w
    obtain ⟨hresponses, hend⟩ := ih _ _ (cfcStep_keeps_inv hp ha w) (cfcStep_keeps_inv hp hb w) hafter
    rw [cfcRun_cons, cfcRun_cons, hresponse, hresponses]
    exact ⟨rfl, hend⟩

/-- Settles O51: a command reads and writes the line of the channel it uses and no other. -/
theorem channelsDoNotInteract : Obligations.ChannelsDoNotInteract := by
  intro p a b w i c _ ha hb hd hc
  have hused : a.usedChannel i = some c := (Arch.usedChannel_eq_some_iff c).2 hc
  have hcons : ∀ k n, i ≠ .cons k n := by rintro k n rfl; cases hused
  refine ⟨fun c' hne => cfcStep_sameLine_other hd hcons ha fun h => hne (Option.some.inj (h.symm.trans hused)), ?_⟩
  intro hregs hline
  have hline' := (Arch.sameLine_iff c a b).1 hline
  obtain ⟨hresponse, hregs'⟩ := cfcStep_congr (p := p) hd hregs fun _ c' hc' => by
    obtain rfl : c = c' := Option.some.inj (hused.symm.trans hc')
    exact ⟨hline'.1, hline'.tap_eq trivial⟩
  exact ⟨hresponse, cfcStep_sameLine hd hcons ha hb hregs hline, hregs'⟩

end Sys2Proof.Machine
end

section
/-! SUPPORT. The decoder by the rows of the opcode map (30_encoding.md R77, R78): a word decodes exactly when a row takes it, and
that row is the one of the command. From this follow match and mask, the reserved opcodes and the reserved bits. -/

namespace Sys2Proof

/-! ### The rows of the opcode map -/

/-- R77: the word agrees with the row's match under its mask, and for RDST the selector is one of 0 to 13. -/
def OpcodeRow.takes (r : OpcodeRow) (w : Word) : Prop :=
  w &&& r.mask = r.pattern ∧ (r.mnemonic = "RDST" → (fieldSel w).toNat ≤ 13)

theorem fieldOP_mask_of_mem : ∀ r ∈ opcodeMap, fieldOP r.mask = 0xF := by decide

theorem row_eq_of_fieldOP_pattern_eq :
    ∀ r ∈ opcodeMap, ∀ r' ∈ opcodeMap, fieldOP r.pattern = fieldOP r'.pattern → r = r' := by decide

theorem row_eq_of_mnemonic_eq : ∀ r ∈ opcodeMap, ∀ r' ∈ opcodeMap, r.mnemonic = r'.mnemonic → r = r' := by decide

theorem fieldOP_pattern_le : ∀ r ∈ opcodeMap, (fieldOP r.pattern).toNat ≤ 0xC := by decide

section
variable {w : Word} {r : OpcodeRow}

/-- Every row fixes OP, so a word that agrees with it carries its opcode. -/
theorem fieldOP_of_match (hr : r ∈ opcodeMap) (h : w &&& r.mask = r.pattern) : fieldOP w = fieldOP r.pattern := by
  rw [← h, fieldOP_and, fieldOP_mask_of_mem r hr]
  exact (BitVec.and_allOnes (x := fieldOP w)).symm

/-- At most one row matches any word, because every row fixes OP (R77). -/
theorem row_unique {r' : OpcodeRow} (hr : r ∈ opcodeMap) (hr' : r' ∈ opcodeMap) (h : w &&& r.mask = r.pattern)
    (h' : w &&& r'.mask = r'.pattern) : r = r' :=
  row_eq_of_fieldOP_pattern_eq r hr r' hr' ((fieldOP_of_match hr h).symm.trans (fieldOP_of_match hr' h'))

theorem OpcodeRow.takes_iff_agrees (m : String) {mask pattern : Word} (hm : m ≠ "RDST") :
    OpcodeRow.takes ⟨m, pattern, mask⟩ w ↔ agrees w mask pattern = true := by
  simp [OpcodeRow.takes, agrees, hm]

theorem OpcodeRow.takes_rdst_iff :
    OpcodeRow.takes ⟨"RDST", 0xB0000000, 0xFFFFFFF0⟩ w ↔
      (agrees w 0xFFFFFFF0 0xB0000000 && decide ((fieldSel w).toNat ≤ 13)) = true := by
  simp [OpcodeRow.takes, agrees]

end

/-! ### The row of a command -/

/-- The rows stand in the order of their opcodes. -/
theorem fieldOP_pattern_getElem :
    ∀ (k : Nat) (hk : k < opcodeMap.length), fieldOP opcodeMap[k].pattern = BitVec.ofNat 4 k := by decide

theorem Instr.op_lt_length (i : Instr) : i.op.toNat < opcodeMap.length := by
  cases i <;> simp [Instr.op, opcodeMap]

/-- The row of R78 for a command: its opcode numbers the rows. -/
def Instr.row (i : Instr) : OpcodeRow := opcodeMap[i.op.toNat]'i.op_lt_length

theorem Instr.row_mem (i : Instr) : i.row ∈ opcodeMap := List.getElem_mem _

@[simp] theorem Instr.row_mnemonic (i : Instr) : i.row.mnemonic = mnemonicOf i := by cases i <;> rfl

@[simp] theorem Instr.fieldOP_row_pattern (i : Instr) : fieldOP i.row.pattern = i.op := by
  rw [Instr.row, fieldOP_pattern_getElem, BitVec.ofNat_toNat, BitVec.setWidth_eq]

/-! ### Decoding is finding the row that takes the word -/

section
variable {w : Word}

/-- A word decodes to a command only if the command's row takes it. -/
theorem row_takes_of_decode {i : Instr} (h : decode w = .ok i) : i.row.takes w := by
  simp only [decode, ite_eq_iff] at h
  rcases h with ⟨hnop, ⟨⟩⟩ | ⟨-, ⟨hsetgl, ⟨⟩⟩ | ⟨-, ⟨hsetgh, ⟨⟩⟩ | ⟨-, ⟨hsetdly, ⟨⟩⟩ | ⟨-, ⟨hcons, ⟨⟩⟩ | ⟨-, ⟨hdstr, ⟨⟩⟩ |
    ⟨-, ⟨hblk, ⟨⟩⟩ | ⟨-, ⟨hsmp, ⟨⟩⟩ | ⟨-, ⟨hfilt, ⟨⟩⟩ | ⟨-, ⟨hdlrd, ⟨⟩⟩ | ⟨-, ⟨hdlwr, ⟨⟩⟩ | ⟨-, ⟨hrdst, ⟨⟩⟩ |
    ⟨-, ⟨hrdcur, ⟨⟩⟩ | ⟨-, ⟨⟩⟩⟩⟩⟩⟩⟩⟩⟩⟩⟩⟩⟩⟩
  · exact (OpcodeRow.takes_iff_agrees "NOP" (by decide)).2 hnop
  · exact (OpcodeRow.takes_iff_agrees "SETGL" (by decide)).2 hsetgl
  · exact (OpcodeRow.takes_iff_agrees "SETGH" (by decide)).2 hsetgh
  · exact (OpcodeRow.takes_iff_agrees "SETDLY" (by decide)).2 hsetdly
  · exact (OpcodeRow.takes_iff_agrees "CONS" (by decide)).2 hcons
  · exact (OpcodeRow.takes_iff_agrees "DSTR" (by decide)).2 hdstr
  · exact (OpcodeRow.takes_iff_agrees "BLK" (by decide)).2 hblk
  · exact (OpcodeRow.takes_iff_agrees "SMP" (by decide)).2 hsmp
  · exact (OpcodeRow.takes_iff_agrees "FILT" (by decide)).2 hfilt
  · exact (OpcodeRow.takes_iff_agrees "DLRD" (by decide)).2 hdlrd
  · exact (OpcodeRow.takes_iff_agrees "DLWR" (by decide)).2 hdlwr
  · exact OpcodeRow.takes_rdst_iff.2 hrdst
  · exact (OpcodeRow.takes_iff_agrees "RDCUR" (by decide)).2 hrdcur

/-- A word that no command decodes from is taken by no row. -/
theorem not_takes_of_decode_error {e : DecodeError} (h : decode w = .error e) : ∀ r ∈ opcodeMap, ¬r.takes w := by
  simp only [decode, ite_eq_iff, reduceCtorEq, and_false, false_or] at h
  obtain ⟨hnop, hsetgl, hsetgh, hsetdly, hcons, hdstr, hblk, hsmp, hfilt, hdlrd, hdlwr, hrdst, hrdcur, -⟩ := h
  simp (disch := decide) only [opcodeMap, List.forall_mem_cons, OpcodeRow.takes_rdst_iff, OpcodeRow.takes_iff_agrees]
  exact ⟨hnop, hsetgl, hsetgh, hsetdly, hcons, hdstr, hblk, hsmp, hfilt, hdlrd, hdlwr, hrdst, hrdcur, List.forall_mem_nil _⟩

/-- R77: a row takes a word exactly when the word decodes to a command of that row. -/
theorem takes_iff_decode {r : OpcodeRow} (hr : r ∈ opcodeMap) :
    r.takes w ↔ ∃ i, decode w = .ok i ∧ mnemonicOf i = r.mnemonic := by
  constructor
  · intro ht
    cases hd : decode w with
    | error e => exact absurd ht (not_takes_of_decode_error hd r hr)
    | ok i =>
      have hrow : i.row = r := row_unique i.row_mem hr (row_takes_of_decode hd).1 ht.1
      exact ⟨i, rfl, by rw [← hrow, Instr.row_mnemonic]⟩
  · rintro ⟨i, hd, hm⟩
    have hrow : i.row = r := row_eq_of_mnemonic_eq _ i.row_mem r hr (by rw [Instr.row_mnemonic, hm])
    exact hrow ▸ row_takes_of_decode hd

/-- The opcode of a command is field OP of the word it is decoded from. -/
theorem op_of_decode {i : Instr} (h : decode w = .ok i) : i.op = fieldOP w := by
  rw [fieldOP_of_match i.row_mem (row_takes_of_decode h).1, Instr.fieldOP_row_pattern]

end

end Sys2Proof

namespace Sys2Proof.Machine

/-! ### Words that are no command -/

/-- A step with a command word at the port runs that word for its host. -/
theorem step_of_command {s : State} {host : Nat} {w : Word} {rest : List HostInput} (h : s.inbox = .command host w :: rest) :
    step s = State.runWord w { s with inbox := rest, requester := host } := by
  simp only [step, State.serve, h]

theorem answersIllegal_of_decode_error {w : Word} {e : DecodeError} (hd : decode w = .error e) : answersIllegal w := by
  intro s host rest h
  rw [step_of_command h, State.runWord, hd]
  rfl

/-- A word that no row takes answers ILLEGAL_COMMAND (R77). -/
theorem answersIllegal_of_not_takes {w : Word} (h : ∀ r ∈ opcodeMap, ¬r.takes w) : answersIllegal w := by
  cases hd : decode w with
  | error e => exact answersIllegal_of_decode_error hd
  | ok i => exact absurd (row_takes_of_decode hd) (h _ i.row_mem)

/-- Settles O3: the decoder finds the one row that takes the word. -/
theorem decodingFollowsMatchAndMask : Obligations.DecodingFollowsMatchAndMask := by
  intro w
  refine ⟨fun r hr => takes_iff_decode hr, fun r hr r' hr' => row_unique hr hr', fieldOP_mask_of_mem, ?_⟩
  cases hd : decode w with
  | ok i => exact .inl ⟨i, rfl⟩
  | error e => exact .inr (answersIllegal_of_decode_error hd)

/-- Settles O4: no row has an opcode above 0xC. -/
theorem reservedOpcodesAreIllegal : Obligations.ReservedOpcodesAreIllegal := by
  intro w hop
  refine answersIllegal_of_not_takes fun r hr ht => ?_
  have hle := fieldOP_pattern_le r hr
  rw [← fieldOP_of_match hr ht.1] at hle
  rcases hop with h | h | h <;> rw [h] at hle <;> exact absurd hle (by decide)

/-- Settles O5: only the row of the word's OP could take the word, and the reserved bit differs from that row's match. -/
theorem reservedBitsAreIllegal : Obligations.ReservedBitsAreIllegal := by
  refine ⟨fun w r j hr hop hmask hpattern hw => ?_, answersIllegal_of_decode_error (e := .reservedSelector) (by decide),
    answersIllegal_of_decode_error (e := .reservedSelector) (by decide)⟩
  refine answersIllegal_of_not_takes fun r' hr' ht => ?_
  obtain rfl : r = r' := row_eq_of_fieldOP_pattern_eq r hr r' hr' (hop.symm.trans (fieldOP_of_match hr' ht.1))
  have hbit : (w &&& r.mask).getLsbD j = true := by rw [BitVec.getLsbD_and, hw, hmask, Bool.and_self]
  rw [ht.1, hpattern] at hbit
  exact absurd hbit (by decide)

end Sys2Proof.Machine
end

section
/-! SUPPORT. The response to a command word (30_encoding.md R83, R84): the fields of a response word, and what a word's response
carries. -/

namespace Sys2Proof.Machine

/-! ### The fields of a response word -/

section
variable (rop : BitVec 4) (code : Code) (rblk rcfg : Bool) (data : Half)

/-- Format R has the boundaries of format C, with RCFG and the six zeros in the place of field A. -/
theorem responseWord_eq_formatC :
    responseWord rop code rblk rcfg data =
      formatC rop (codeBits code) (BitVec.ofBool rblk) (BitVec.ofBool rcfg ++ 0#6) data :=
  congrArg (· ++ data) BitVec.append_assoc

theorem responseRCFG_eq_fieldA (r : Word) : responseRCFG r = (fieldA r).extractLsb 6 6 := by
  apply BitVec.eq_of_toNat_eq
  simp only [responseRCFG, fieldA, BitVec.extractLsb_toNat, Nat.shiftRight_eq_div_pow]
  omega

theorem responseZeros_eq_fieldA (r : Word) : responseZeros r = (fieldA r).extractLsb 5 0 := by
  apply BitVec.eq_of_toNat_eq
  simp only [responseZeros, fieldA, BitVec.extractLsb_toNat, Nat.shiftRight_eq_div_pow]
  omega

@[simp] theorem responseROP_responseWord : responseROP (responseWord rop code rblk rcfg data) = rop := by
  rw [responseWord_eq_formatC]
  exact fieldOP_formatC _ _ _ _ _

@[simp] theorem responseCODE_responseWord : responseCODE (responseWord rop code rblk rcfg data) = codeBits code := by
  rw [responseWord_eq_formatC]
  exact fieldCH_formatC _ _ _ _ _

@[simp] theorem responseRBLK_responseWord :
    responseRBLK (responseWord rop code rblk rcfg data) = BitVec.ofBool rblk := by
  rw [responseWord_eq_formatC]
  exact fieldK_formatC _ _ _ _ _

@[simp] theorem responseRCFG_responseWord :
    responseRCFG (responseWord rop code rblk rcfg data) = BitVec.ofBool rcfg := by
  rw [responseRCFG_eq_fieldA, responseWord_eq_formatC, fieldA_formatC]
  cases rcfg <;> decide

@[simp] theorem responseZeros_responseWord : responseZeros (responseWord rop code rblk rcfg data) = 0#6 := by
  rw [responseZeros_eq_fieldA, responseWord_eq_formatC, fieldA_formatC]
  cases rcfg <;> decide

@[simp] theorem responseDATA_responseWord : responseDATA (responseWord rop code rblk rcfg data) = data := by
  rw [responseWord_eq_formatC]
  exact fieldD_formatC _ _ _ _ _

end

theorem codeBits_le (code : Code) : (codeBits code).toNat ≤ 8 := by cases code <;> decide

/-! ### What a word's response carries -/

/-- The commands that return DATA (R83). -/
def mnemonicsWithData : List String := ["SMP", "FILT", "DLRD", "RDST", "RDCUR"]

/-- The other commands end with DATA 0. -/
theorem perform_data_eq_zero {i : Instr} (h : mnemonicOf i ∉ mnemonicsWithData) (p : Part) (a : Arch) :
    (perform p a i).2 = 0 := by
  cases i with
  | smp | filt | dlrd | rdst | rdcur => exact absurd h (by simp [mnemonicsWithData, mnemonicOf])
  | nop | setgl | setgh | setdly | cons | dstr | blk | dlwr => rfl

/-- Every word ends with one response, which echoes its OP and carries DATA 0 if the command failed or returns nothing. -/
theorem runWord_responds (w : Word) (s : State) :
    ∃ code data a, s.runWord w = .next (s.respond (fieldOP w) code data a) ∧ (code ≠ .ok → data = 0) ∧
      ∀ i, decode w = .ok i → mnemonicOf i ∉ mnemonicsWithData → data = 0 := by
  cases hd : decode w with
  | error e => exact ⟨.illegalCommand, 0, s.arch, by rw [State.runWord, hd]; rfl, fun _ => rfl, fun _ _ _ => rfl⟩
  | ok i =>
    have hrun : s.runWord w = s.checked i := by rw [State.runWord, hd, ← exec_eq_checked]
    rw [hrun, ← op_of_decode hd]
    cases hf : firstFailure s.part s.arch i with
    | some code => exact ⟨code, 0, s.arch, State.checked_of_failure hf, fun _ => rfl, fun _ _ _ => rfl⟩
    | none =>
      refine ⟨.ok, _, _, State.checked_of_pass hf, fun h => absurd rfl h, fun j hj hm => ?_⟩
      cases hj
      exact perform_data_eq_zero hm _ _

/-- Settles O11: the one response of a word is a response word, whose fields are read off. -/
theorem everyCommandGetsOneResponse : Obligations.EveryCommandGetsOneResponse := by
  intro s host w rest h
  obtain ⟨code, data, a, hrun, hfail, hnone⟩ := runWord_responds w { s with inbox := rest, requester := host }
  have hdata := responseDATA_responseWord (fieldOP w) code a.blkActive a.configured data
  refine ⟨_, _, (step_of_command h).trans hrun, rfl, rfl, responseROP_responseWord _ _ _ _ _, ?_,
    responseRBLK_responseWord _ _ _ _ _, responseRCFG_responseWord _ _ _ _ _, responseZeros_responseWord _ _ _ _ _, ?_,
    fun i hd hm => hdata.trans (hnone i hd hm)⟩
  · exact (congrArg BitVec.toNat (responseCODE_responseWord _ _ _ _ _)).trans_le (codeBits_le code)
  · intro hcode
    refine hdata.trans (hfail ?_)
    rintro rfl
    exact hcode (responseCODE_responseWord _ _ _ _ _)

end Sys2Proof.Machine
end

section
/-! SUPPORT. The cursor advance (40_delay_line.md R101): one write of `Arch.nextCursor`, which is one step modulo DELAY. -/

namespace Sys2Proof.Machine

theorem Arch.adv_eq_setCursor (c : Channel) (a : Arch) : a.adv c = a.setCursor c (a.nextCursor c) := Arch.adv_eq c a

theorem Arch.cursor_adv_same {a : Arch} (hcur : a.cur.wf = true) (c : Channel) : (a.adv c).cursor c = a.nextCursor c := by
  rw [Arch.adv_eq_setCursor, Arch.cursor, Arch.setCursor_cur, Memory.read_write_same hcur]

/-- Below DELAY the two branches of R101 are the successor modulo DELAY: a cursor below a 16-bit DELAY does not wrap at 65536. -/
theorem Arch.nextCursor_toNat {c : Channel} {a : Arch} (h : (a.cursor c).toNat < a.delay.toNat) :
    (a.nextCursor c).toNat = ((a.cursor c).toNat + 1) % a.delay.toNat := by
  have hd := a.delay.isLt
  have hone : (1 : Half).toNat = 1 := rfl
  unfold Arch.nextCursor
  split_ifs with hwrap
  · rw [hwrap, Nat.mod_self]
    rfl
  · rw [BitVec.toNat_add_of_lt (by omega), hone, Nat.mod_eq_of_lt (by omega)]

/-- Settles O25: the advance writes the next cursor, which is the successor modulo DELAY, and no other cell. -/
theorem advanceIsOneStepModuloDelay : Obligations.AdvanceIsOneStepModuloDelay := by
  intro a c hcur
  rw [Arch.cursor_adv_same hcur]
  refine ⟨rfl, fun k hk => ?_, ?_, fun h => ⟨Arch.nextCursor_toNat h, Arch.nextCursor_lt h⟩, fun hdelay h => ?_⟩
  · rw [Arch.adv_eq_setCursor, Arch.setCursor_cur, Memory.read_write_other _ hk]
  · rw [Arch.adv_eq_setCursor]
    rfl
  · apply BitVec.eq_of_toNat_eq
    rw [Arch.nextCursor_toNat h, hdelay, Nat.mod_one]
    rfl

end Sys2Proof.Machine
end

section
/-! SUPPORT. The sample operation (41_comb_filter.md R121 to R127): what `Arch.sampleOp` does is `sampleEffect`, whether FILT or SMP
applies it, and its output is the rounded sum, saturated. -/

namespace Sys2Proof.Machine

/-! ### The output -/

/-- The two branches of R10 are the quotient toward zero. -/
theorem roundShift_eq_tdiv (n : Int) : roundShift n = Int.tdiv n 65536 := by
  unfold roundShift
  split_ifs with hn
  · rw [Int.tdiv_eq_ediv_of_nonneg hn]
  · rw [← Int.tdiv_eq_ediv_of_nonneg (by omega), Int.neg_tdiv, neg_neg]

theorem clamp_eq_max_min {lo hi : Int} (h : lo ≤ hi) (i : Int) : clamp i lo hi = max lo (min hi i) := by
  unfold clamp
  split_ifs <;> omega

/-- The output of the claims is the rounded sum, saturated (41_comb_filter.md R124, R125). -/
theorem outputOf_eq_saturate (gain : Word) (tap x : Half) :
    outputOf gain tap x = max (-32768) (min 32767 (roundShift (combAcc gain tap x))) := by
  rw [roundShift_eq_tdiv]
  rfl

theorem combValue_eq_outputOf (gain : Word) (tap x : Half) : combValue gain tap x = outputOf gain tap x := by
  rw [combValue, clamp_eq_max_min (by norm_num), outputOf_eq_saturate]

/-- Narrowing the output to a sample loses nothing. -/
theorem Arch.sampleOp_output_toInt (c : Channel) (x : Half) (a : Arch) :
    (a.sampleOp c x).2.toInt = outputOf a.gain (a.tap c) x :=
  (sval16_bits16_combValue a.gain (a.tap c) x).trans (combValue_eq_outputOf _ _ _)

/-- FIR writes the input back, IIR the output (41_comb_filter.md R126, R127). -/
theorem Arch.writtenBack_eq (c : Channel) (x : Half) (a : Arch) :
    a.writtenBack c x = if a.kind = .fir then x else (a.sampleOp c x).2 := by
  unfold Arch.writtenBack
  cases a.kind with
  | fir => exact bits16_sval16 x
  | iir => rfl

/-! ### The state -/

/-- A sample operation writes no register. -/
theorem Arch.sampleOp_sameRegs (c : Channel) (x : Half) (a : Arch) : (a.sampleOp c x).1.sameRegs a := by
  rw [Arch.sampleOp_fst, Arch.lineWrite, Arch.adv_eq]
  rfl

/-- The model's sample operation, on a channel whose cursor is a slot of its line, is the one the claims write out. -/
theorem sampleEffect_sampleOp {a : Arch} {c : Channel} (hmem : a.dl.wf = true ∧ a.cur.wf = true)
    (hcursor : (a.cursor c).toNat < a.delay.toNat) (x : Half) :
    sampleEffect c x (a.sampleOp c x).2 a (a.sampleOp c x).1 := by
  obtain ⟨hdl, hcur⟩ := hmem
  refine ⟨Arch.sampleOp_output_toInt c x a, ?_⟩
  rw [Arch.sampleOp_fst]
  refine ⟨?slot, fun addr haddr => ?otherSlots, ?cursor, fun k hk => ?otherCursors, ?registers⟩
  case slot => rw [Arch.lineWrite_dl, Memory.read_write_same hdl, Arch.writtenBack_eq]
  case otherSlots => rw [Arch.lineWrite_dl, Memory.read_write_other _ haddr]
  case cursor => rw [Arch.cursor_lineWrite hcur, if_pos rfl, Arch.nextCursor_toNat hcursor]
  case otherCursors => rw [Arch.lineWrite_cur, Memory.read_write_other _ hk]
  case registers => simp

/-- Moving the block sequencer on does not touch what a sample operation did. -/
theorem sampleEffect.nextInBlock {c : Channel} {x y : Half} {a b : Arch} (h : sampleEffect c x y a b) :
    sampleEffect c x y a b.nextInBlock := by
  obtain ⟨houtput, hslot, hslots, hcursor, hcursors, hregs⟩ := h
  simp only [sampleEffect, Arch.cursor, Arch.nextInBlock_dl, Arch.nextInBlock_cur]
  refine ⟨houtput, hslot, hslots, hcursor, hcursors, ?_⟩
  simpa using hregs

/-! ### The commands -/

/-- A command that passes its checks answers OK with the DATA and the state of its body. -/
theorem exec_of_pass {i : Instr} {s : State} (h : firstFailure s.part s.arch i = none) :
    exec i s = .next (s.answered i .ok (perform s.part s.arch i).2 (perform s.part s.arch i).1) := by
  rw [exec_eq_checked, State.checked_of_pass h]
  rfl

theorem firstFailure_filt_eq_none {p : Part} {a : Arch} {c : Channel} (hact : a.blkActive = false) (hcfg : a.configured = true)
    (hc : c.toNat < a.nch.toNat) (x : Half) : firstFailure p a (.filt c x) = none := by
  simp [hact, hcfg, hc]

/-- The sample operation on a channel that a passing command uses. -/
theorem sampleEffect_sampleOp_of_pass {p : Part} {a : Arch} {i : Instr} {c : Channel} (h : a.inv p)
    (hf : firstFailure p a i = none) (hc : a.usedChannel i = some c) (x : Half) :
    sampleEffect c x (a.sampleOp c x).2 a (a.sampleOp c x).1 :=
  have ⟨hcfg, hch⟩ := Arch.usedChannel_lt h hf hc
  sampleEffect_sampleOp h.memory_wf (h.cursor_lt hcfg hch) x

/-- FILT answers the output of one sample operation on its channel. -/
theorem exec_filt_sampleEffect {s : State} {c : Channel} (x : Half) (hinv : s.inv) (hact : s.arch.blkActive = false)
    (hcfg : s.arch.configured = true) (hc : c.toNat < s.arch.nch.toNat) :
    exec (.filt c x) s = .next (s.answered (.filt c x) .ok (s.arch.sampleOp c x).2 (s.arch.sampleOp c x).1) ∧
      sampleEffect c x (s.arch.sampleOp c x).2 s.arch (s.arch.sampleOp c x).1 :=
  have hf := firstFailure_filt_eq_none hact hcfg hc x
  ⟨exec_of_pass hf, sampleEffect_sampleOp_of_pass hinv.2 hf rfl x⟩

/-- SMP answers the output of one sample operation on the current channel, and then moves the sequencer on. -/
theorem exec_smp_sampleEffect {s : State} (x : Half) (hinv : s.inv) (hact : s.arch.blkActive = true) :
    exec (.smp x) s = .next (s.answered (.smp x) .ok (s.arch.sampleOp s.arch.blkCh x).2
        (s.arch.sampleOp s.arch.blkCh x).1.nextInBlock) ∧
      sampleEffect s.arch.blkCh x (s.arch.sampleOp s.arch.blkCh x).2 s.arch (s.arch.sampleOp s.arch.blkCh x).1.nextInBlock :=
  have hf : firstFailure s.part s.arch (.smp x) = none := by simp [hact]
  ⟨exec_of_pass hf, (sampleEffect_sampleOp_of_pass hinv.2 hf rfl x).nextInBlock⟩

/-- Settles O31: FILT passes its checks, and its body is the model's sample operation, which writes no register. -/
theorem filtAppliesTheSampleOperation : Obligations.FiltAppliesTheSampleOperation := by
  intro s c x hinv hact hcfg hc
  obtain ⟨hexec, heffect⟩ := exec_filt_sampleEffect x hinv hact hcfg hc
  exact ⟨_, _, hexec, heffect, Arch.sampleOp_sameRegs c x s.arch⟩

/-- Settles O35: the output of a sample operation is the saturated rounded value, and the registers it leaves alone are all that
could record the saturation. -/
theorem outputSaturatesSilently : Obligations.OutputSaturatesSilently := by
  intro s t i c x hinv hcommand hnext q
  have hsample : ∃ (a : Arch) (y : Half), exec i s = .next (s.answered i .ok y a) ∧ sampleEffect c x y s.arch a := by
    rcases hcommand with ⟨rfl, hact, hcfg, hc⟩ | ⟨rfl, hact, rfl⟩
    · exact ⟨_, _, exec_filt_sampleEffect x hinv hact hcfg hc⟩
    · exact ⟨_, _, exec_smp_sampleEffect x hinv hact⟩
  obtain ⟨a, y, hexec, houtput, -, -, -, -, hregs⟩ := hsample
  obtain rfl : t = s.answered i .ok y a := by simpa [hnext] using hexec
  have hy : y.toInt = max (-32768) (min 32767 q) := houtput.trans (outputOf_eq_saturate _ _ _)
  refine ⟨y, rfl, fun habove => ?_, fun hbelow => ?_, fun hlo hhi => by omega, hregs⟩
  · exact BitVec.eq_of_toInt_eq ((by omega : y.toInt = 32767).trans (by decide))
  · exact BitVec.eq_of_toInt_eq ((by omega : y.toInt = -32768).trans (by decide))

end Sys2Proof.Machine
end

section
/-! SUPPORT. The words, the checks and the effect of BLK (42_block_driver.md R151, R155). The words of a row and the failing
commands are stated for every command. -/

namespace Sys2Proof.Machine

/-! ### The words of one row -/

/-- A word with the opcode of a row that does not match the row is taken by no other row either (R77, R80). -/
theorem answersIllegal_of_not_match {w : Word} {r : OpcodeRow} (hr : r ∈ opcodeMap) (hop : fieldOP w = fieldOP r.pattern)
    (h : w &&& r.mask ≠ r.pattern) : answersIllegal w := by
  refine answersIllegal_of_not_takes fun r' hr' ht => h ?_
  obtain rfl : r = r' := row_eq_of_fieldOP_pattern_eq r hr r' hr' (hop.symm.trans (fieldOP_of_match hr' ht.1))
  exact ht.1

/-- A row decodes as claimed once its matching words decode to the claimed command: the others are illegal by R80. -/
theorem rowDecodes_of_decode_match {r : OpcodeRow} {command : Word → Instr} (hr : r ∈ opcodeMap)
    (h : ∀ w, w &&& r.mask = r.pattern → decode w = .ok (command w)) :
    rowDecodes (fieldOP r.pattern) r.pattern r.mask command :=
  fun w => ⟨h w, answersIllegal_of_not_match hr⟩

/-- A word agrees with no row of another opcode. -/
theorem agrees_eq_false_of_fieldOP_ne {w mask pattern : Word} (hmask : fieldOP mask = 0xF)
    (hop : fieldOP pattern ≠ fieldOP w) : agrees w mask pattern = false := by
  refine beq_eq_false_iff_ne.2 fun h => hop ?_
  rw [← h, fieldOP_and, hmask]
  exact BitVec.and_allOnes

/-- A word that matches the row of BLK decodes to BLK with its fields A and D: the rows before have other opcodes. -/
theorem decode_blk_of_match {w : Word} (h : w &&& 0xFF800000 = 0x60000000) :
    decode w = .ok (.blk (fieldA w) (fieldD w)) := by
  have hop : fieldOP w = 0x6 := fieldOP_of_match (r := ⟨"BLK", 0x60000000, 0xFF800000⟩) (by decide) h
  have hblk : agrees w 0xFF800000 0x60000000 = true := beq_iff_eq.2 h
  have hother {mask pattern : Word} (hmask : fieldOP mask = 0xF) (hne : fieldOP pattern ≠ 0x6) : agrees w mask pattern = false :=
    agrees_eq_false_of_fieldOP_ne hmask (hop ▸ hne)
  simp (disch := decide) only [decode, hother, hblk, Bool.false_eq_true, if_false, if_true]

/-! ### The commands -/

/-- A command that fails a check answers the code of the first failing check and changes nothing (60_exceptions.md R201). -/
theorem failsWith_of_failure {i : Instr} {s : State} {code : Code} (h : firstFailure s.part s.arch i = some code) :
    failsWith i s code := by
  rw [failsWith, exec_eq_checked, State.checked_of_failure h]
  rfl

/-- A BLK that declares another channel count than the filter has fails, where the checks before that one pass. -/
theorem failsWith_blk_channelCountMismatch {s : State} {n : BitVec 7} (f : Half) (hact : s.arch.blkActive = false)
    (hcfg : s.arch.configured = true) (hn : n.toNat ≠ s.arch.nch.toNat) : failsWith (.blk n f) s .channelCountMismatch :=
  failsWith_of_failure (by simp [hact, hcfg, hn])

/-- A BLK that passes its checks leaves the state of its body, which opens no block of zero frames. -/
theorem exec_blk_of_pass {s : State} {n : BitVec 7} (f : Half) (hact : s.arch.blkActive = false)
    (hcfg : s.arch.configured = true) (hn : n.toNat = s.arch.nch.toNat) :
    exec (.blk n f) s =
      .next (s.answered (.blk n f) .ok 0 (if f.toNat = 0 then s.arch else s.arch.openBlock f)) :=
  exec_of_pass (by simp [hact, hcfg, hn])

/-- Settles O42: the row of BLK, its checks in their order, and its body for no frames and for some. A filter has at least one
channel, so the declared count 0 never matches. -/
theorem blkOpensABlock : Obligations.BlkOpensABlock := by
  refine ⟨rowDecodes_of_decode_match (r := ⟨"BLK", 0x60000000, 0xFF800000⟩) (by decide) fun _ => decode_blk_of_match,
    fun s n f => ⟨fun hact => ?_, fun hact hcfg => ?_, failsWith_blk_channelCountMismatch f, fun hinv hact hcfg => ?_,
      fun hact hcfg hn hf => ?_, fun hact hcfg hn hf => ?_⟩⟩
  · exact failsWith_of_failure (by simp [hact])
  · exact failsWith_of_failure (by simp [hact, hcfg])
  · obtain ⟨-, ⟨hshape, -⟩, -⟩ := hinv
    obtain ⟨-, -, hnch, -⟩ := hshape hcfg
    exact failsWith_blk_channelCountMismatch f hact hcfg (Nat.ne_of_lt hnch)
  · rw [exec_blk_of_pass f hact hcfg hn, if_pos hf]
  · rw [exec_blk_of_pass f hact hcfg hn, if_neg (Nat.ne_of_gt hf)]
    rfl

end Sys2Proof.Machine
end

section
/-! SUPPORT. The command of a word by its opcode, for every row of the opcode map (30_encoding.md R77, R78). -/

namespace Sys2Proof

/-- The command of the row with opcode `op`, with its operands from the fields of a word (30_encoding.md R78); the reserved opcodes
have no row, and no lemma reads their value. -/
def commandOf (op : BitVec 4) (w : Word) : Instr :=
  match op.toNat with
  | 0x1 => .setgl (fieldD w)
  | 0x2 => .setgh (fieldD w)
  | 0x3 => .setdly (fieldD w)
  | 0x4 => .cons (kindOfBit (fieldK w)) (fieldD w)
  | 0x5 => .dstr
  | 0x6 => .blk (fieldA w) (fieldD w)
  | 0x7 => .smp (fieldD w)
  | 0x8 => .filt (fieldCH w) (fieldD w)
  | 0x9 => .dlrd (fieldCH w)
  | 0xA => .dlwr (fieldCH w) (fieldD w)
  | 0xB => .rdst (fieldSel w)
  | 0xC => .rdcur (fieldCH w)
  | _ => .nop

/-- The decoder takes the operands of every command from the fields of R78. -/
theorem commandOf_op_of_decode {w : Word} {i : Instr} (h : decode w = .ok i) : commandOf i.op w = i := by
  simp only [decode, ite_eq_iff] at h
  rcases h with ⟨-, ⟨⟩⟩ | ⟨-, ⟨-, ⟨⟩⟩ | ⟨-, ⟨-, ⟨⟩⟩ | ⟨-, ⟨-, ⟨⟩⟩ | ⟨-, ⟨-, ⟨⟩⟩ | ⟨-, ⟨-, ⟨⟩⟩ | ⟨-, ⟨-, ⟨⟩⟩ | ⟨-, ⟨-, ⟨⟩⟩ |
    ⟨-, ⟨-, ⟨⟩⟩ | ⟨-, ⟨-, ⟨⟩⟩ | ⟨-, ⟨-, ⟨⟩⟩ | ⟨-, ⟨-, ⟨⟩⟩ | ⟨-, ⟨-, ⟨⟩⟩ | ⟨-, ⟨⟩⟩⟩⟩⟩⟩⟩⟩⟩⟩⟩⟩⟩⟩
  all_goals rfl

/-- A word that a row takes decodes to the command of that row. -/
theorem decode_of_takes {r : OpcodeRow} {w : Word} (hr : r ∈ opcodeMap) (ht : r.takes w) :
    decode w = .ok (commandOf (fieldOP r.pattern) w) := by
  obtain ⟨i, hd, -⟩ := (takes_iff_decode hr).1 ht
  have hop : i.op = fieldOP r.pattern := (op_of_decode hd).trans (fieldOP_of_match hr ht.1)
  rw [hd, ← hop, commandOf_op_of_decode hd]

theorem decode_encode_cons (k : Kind) (n : Half) : decode (encode (.cons k n)) = .ok (.cons k n) := by
  have ht : OpcodeRow.takes ⟨"CONS", 0x40000000, 0xFF7F0000⟩ (encode (.cons k n)) := by
    rw [OpcodeRow.takes_iff_agrees _ (by decide), encode, agrees_formatC]
    cases k <;> simp [fieldOP, fieldCH, fieldK, fieldA, fieldD, kindBit]
  rw [decode_of_takes (by decide) ht]
  show Except.ok (Instr.cons (kindOfBit (fieldK _)) (fieldD _)) = _
  rw [encode, fieldK_formatC, fieldD_formatC, kindOfBit_kindBit]

end Sys2Proof

namespace Sys2Proof.Machine

/-- Every row but RDST's, which restricts its selector, decodes its words as R78 says, and the others with its OP are illegal. -/
theorem rowDecodes_of_mem {r : OpcodeRow} (hr : r ∈ opcodeMap) (hsel : r.mnemonic ≠ "RDST") :
    rowDecodes (fieldOP r.pattern) r.pattern r.mask (commandOf (fieldOP r.pattern)) :=
  rowDecodes_of_decode_match hr fun _ h => decode_of_takes hr ⟨h, fun hm => absurd hm hsel⟩

/-- A word with the opcode of a row that the row does not take, be it for a bit or for the selector, is illegal (R80). -/
theorem answersIllegal_of_not_takes_row {r : OpcodeRow} {w : Word} (hr : r ∈ opcodeMap) (hop : fieldOP w = fieldOP r.pattern)
    (h : ¬r.takes w) : answersIllegal w := by
  refine answersIllegal_of_not_takes fun r' hr' ht => h ?_
  obtain rfl : r = r' := row_eq_of_fieldOP_pattern_eq r hr r' hr' (hop.symm.trans (fieldOP_of_match hr' ht.1))
  exact ht

end Sys2Proof.Machine
end

section
/-! SUPPORT. CONS (43_config_control.md section 2): when it passes its checks, what the filter holds after it, and that nothing of
the old filter is left (R174 to R177). -/

namespace Sys2Proof.Machine

/-! ### Success and failure of a word -/

/-- No check reports OK. -/
theorem firstFailure_ne_ok (p : Part) (a : Arch) (i : Instr) : firstFailure p a i ≠ some .ok := by
  unfold firstFailure
  split_ifs <;> simp

theorem codeBits_eq_zero_iff (code : Code) : codeBits code = 0#4 ↔ code = .ok := by cases code <;> decide

/-- The response carries code 0 exactly when the command passes its checks. -/
theorem responseCODE_cfcStep_eq_zero_iff {p : Part} {a : Arch} {w : Word} {i : Instr} (hd : decode w = .ok i) :
    responseCODE (cfcStep p a w).2 = 0 ↔ firstFailure p a i = none := by
  cases hf : firstFailure p a i with
  | none => simp [cfcStep_of_pass hd hf, codeBits_eq_zero_iff]
  | some code =>
    have hne : code ≠ .ok := fun hok => firstFailure_ne_ok p a i (hok ▸ hf)
    simp [cfcStep_of_failure hd hf, codeBits_eq_zero_iff, hne]

/-- A command that does not answer OK leaves the state as it was (60_exceptions.md R201). -/
theorem cfcStep_fst_of_responseCODE_ne_zero {p : Part} {a : Arch} {w : Word} {i : Instr} (hd : decode w = .ok i)
    (h : responseCODE (cfcStep p a w).2 ≠ 0) : (cfcStep p a w).1 = a := by
  rw [Ne, responseCODE_cfcStep_eq_zero_iff hd] at h
  obtain ⟨code, hf⟩ := Option.ne_none_iff_exists'.1 h
  rw [cfcStep_of_failure hd hf]

/-! ### What CONS builds -/

section
variable {p : Part} {a b : Arch} {n : Half}

/-- CONS passes exactly when no block is open and the staged delay and the channel count are in range (R175). -/
theorem firstFailure_cons_eq_none_iff (k : Kind) :
    firstFailure p a (.cons k n) = none ↔ a.blkActive = false ∧
      (1 ≤ a.sdelay.toNat ∧ a.sdelay.toNat ≤ p.maxDelay.toNat) ∧ 1 ≤ n.toNat ∧ n.toNat ≤ p.maxCh.toNat := by
  rw [firstFailure_cons]
  split_ifs with hact hdelay hcount
  · simp [hact]
  · simp only [false_iff]; omega
  · simp only [false_iff]; omega
  · exact iff_of_true rfl ⟨eq_false_of_ne_true hact, by omega⟩

/-- A channel count that the part has fits NCH. -/
theorem Arch.construct_nch_toNat (hn : n.toNat ≤ p.maxCh.toNat) (k : Kind) : (a.construct k n).nch.toNat = n.toNat := by
  have hmax := p.maxCh.isLt
  rw [Arch.construct_nch, BitVec.toNat_setWidth]
  omega

/-- The slots of the filter's delay lines hold 0 after CONS (R174). -/
theorem Arch.construct_dl_read_slot {c i : Nat} (hc : c < n.toNat) (hi : i < a.sdelay.toNat) (k : Kind) :
    (a.construct k n).dl.read (slotAddr c i) = 0 := by
  have hslot : lineRegion n.toNat a.sdelay.toNat (slotAddr c i) = true := by
    have hwidth := a.sdelay.isLt
    rw [lineRegion, slotAddr, Bool.and_eq_true, decide_eq_true_iff, decide_eq_true_iff]
    omega
  rw [Arch.construct_dl, Memory.read_clear, if_pos hslot]
  rfl

/-- The cursors of the filter's channels stand at 0 after CONS (R174). -/
theorem Arch.construct_cur_read {c : Nat} (hc : c < n.toNat) (k : Kind) : (a.construct k n).cur.read c = 0 := by
  have hcell : cursorRegion n.toNat c = true := decide_eq_true hc
  rw [Arch.construct_cur, Memory.read_clear, if_pos hcell]
  rfl

/-! ### Nothing of the old filter is left -/

/-- Two states agree on everything that CONS takes over: the staging registers and the sequencer. -/
structure Arch.sameStagedAndSequencer (a b : Arch) : Prop where
  sgain : a.sgain = b.sgain
  sdelay : a.sdelay = b.sdelay
  blkActive : a.blkActive = b.blkActive
  blkCh : a.blkCh = b.blkCh
  blkFrame : a.blkFrame = b.blkFrame
  blkFrames : a.blkFrames = b.blkFrames

theorem Arch.sameStagedAndSequencer.firstFailure_cons_eq (h : a.sameStagedAndSequencer b) (k : Kind) :
    firstFailure p b (.cons k n) = firstFailure p a (.cons k n) := by
  rw [firstFailure_cons, firstFailure_cons, h.sdelay, h.blkActive]

/-- CONS overwrites the active configuration, so only the memories of the old filters could differ, and of those nothing
shows (R176). -/
theorem Arch.sameStagedAndSequencer.sameVisible_construct (h : a.sameStagedAndSequencer b) (k : Kind) :
    (a.construct k n).sameVisible (b.construct k n) := by
  have hconfig : ({ b with dl := a.dl, cur := a.cur } : Arch).construct k n = a.construct k n := by
    simp only [Arch.construct, h.sgain, h.sdelay, h.blkActive, h.blkCh, h.blkFrame, h.blkFrames]
  rw [← hconfig]
  exact Arch.sameVisible_construct rfl k n

/-- The step of a word of CONS that passes its checks. -/
theorem cfcStep_cons_of_pass {k : Kind} (hf : firstFailure p a (.cons k n) = none) :
    cfcStep p a (encode (.cons k n)) = (a.construct k n, responseWord 0x4 .ok a.blkActive true 0) :=
  cfcStep_of_pass (decode_encode_cons k n) hf

end

/-- Settles O20: a failing word leaves the state, and what a passing CONS shows is built from the staged values only. -/
theorem consForgetsTheOldFilter : Obligations.ConsForgetsTheOldFilter := by
  intro p a b k n
  have hd := decode_encode_cons k n
  refine ⟨cfcStep_fst_of_responseCODE_ne_zero hd, fun _ hsgain hsdelay hact hch hframe hframes hok => ?_⟩
  have hsame : a.sameStagedAndSequencer b := ⟨hsgain, hsdelay, hact, hch, hframe, hframes⟩
  have hfa := (responseCODE_cfcStep_eq_zero_iff hd).1 hok
  obtain ⟨-, -, -, hnmax⟩ := (firstFailure_cons_eq_none_iff k).1 hfa
  rw [cfcStep_cons_of_pass hfa, cfcStep_cons_of_pass ((hsame.firstFailure_cons_eq k).trans hfa), hact]
  exact ⟨rfl, hsame.sameVisible_construct k, rfl, rfl, Arch.construct_nch_toNat hnmax k, rfl, rfl,
    fun c i hc hi => ⟨Arch.construct_dl_read_slot hc hi k, Arch.construct_cur_read hc k⟩⟩

/-- Settles O19: each clause fixes the first check of CONS that fails. -/
theorem consChecksInOrder : Obligations.ConsChecksInOrder := by
  intro s k n
  refine ⟨fun hact => ?_, fun hact hdelay => ?_, fun hact hlo hhi hcount => ?_⟩
  · exact failsWith_of_failure (by simp [hact])
  · have hrange : s.arch.sdelay.toNat < 1 ∨ s.part.maxDelay.toNat < s.arch.sdelay.toNat := by omega
    exact failsWith_of_failure (by rw [firstFailure_cons, hact, if_neg Bool.false_ne_true, if_pos hrange])
  · have hrange : ¬(s.arch.sdelay.toNat < 1 ∨ s.part.maxDelay.toNat < s.arch.sdelay.toNat) := by omega
    have hcount' : n.toNat < 1 ∨ s.part.maxCh.toNat < n.toNat := by omega
    exact failsWith_of_failure
      (by rw [firstFailure_cons, hact, if_neg Bool.false_ne_true, if_neg hrange, if_pos hcount'])

end Sys2Proof.Machine
end

section
/-! SUPPORT. The commands that pass in every state: NOP, the staging writes and DSTR (43_config_control.md R170 to R173, R178). -/

namespace Sys2Proof.Machine

/-- Settles O15: NOP has no check and its body is empty. -/
theorem nopChangesNothing : Obligations.NopChangesNothing :=
  ⟨rowDecodes_of_mem (r := ⟨"NOP", 0x00000000, 0xFFFFFFFF⟩) (by decide) (by decide),
    fun _ => exec_of_pass (firstFailure_nop _ _), by decide, by decide, by decide⟩

/-- Settles O16: the staging writes have no check; SETGL and SETGH join the new half to the old other half. -/
theorem stagingWritesComplete : Obligations.StagingWritesComplete := by
  refine ⟨rowDecodes_of_mem (r := ⟨"SETGL", 0x10000000, 0xFFFF0000⟩) (by decide) (by decide),
    rowDecodes_of_mem (r := ⟨"SETGH", 0x20000000, 0xFFFF0000⟩) (by decide) (by decide),
    rowDecodes_of_mem (r := ⟨"SETDLY", 0x30000000, 0xFFFF0000⟩) (by decide) (by decide), fun s d => ⟨?_, ?_, ?_⟩⟩
  · exact ⟨_, exec_of_pass (firstFailure_setgl _ _ d), BitVec.extractLsb'_append_eq_right, BitVec.extractLsb'_append_eq_left⟩
  · exact ⟨_, exec_of_pass (firstFailure_setgh _ _ d), BitVec.extractLsb'_append_eq_left, BitVec.extractLsb'_append_eq_right⟩
  · exact exec_of_pass (firstFailure_setdly _ _ d)

/-- Settles O22: DSTR has no check, and its body is `Arch.destroy`. -/
theorem dstrDestroysTheFilter : Obligations.DstrDestroysTheFilter :=
  ⟨rowDecodes_of_mem (r := ⟨"DSTR", 0x50000000, 0xFFFFFFFF⟩) (by decide) (by decide),
    fun s => ⟨s.arch.destroy, exec_of_pass (firstFailure_dstr _ _), rfl, rfl, rfl, rfl, rfl, rfl, rfl, rfl, rfl, rfl, rfl,
      (by decide : responseWord 0x5 .ok false false 0 = 0x50000000)⟩⟩

end Sys2Proof.Machine
end

section
/-! SUPPORT. The views of RDST as one list in the order of their selectors, and what no step changes of them
(43_config_control.md R180 to R186). -/

namespace Sys2Proof.Machine

/-- The views 0 to 13, in the order of their selectors (R180). -/
def Arch.views (p : Part) (a : Arch) : List Half :=
  [ statusWord a, a.nch.setWidth 16, a.delay, a.gain.extractLsb 15 0, a.gain.extractLsb 31 16, a.sdelay,
    a.sgain.extractLsb 15 0, a.sgain.extractLsb 31 16, a.blkCh.setWidth 16, a.blkFrame, a.blkFrames,
    p.maxCh.setWidth 16, p.maxDelay, Config.ident ]

theorem Arch.view_eq_views (p : Part) (sel : BitVec 4) (a : Arch) : a.view p sel = (a.views p)[sel.toNat]? := by
  unfold Arch.view
  generalize sel.toNat = n
  match n with
  | 0 | 1 | 2 | 3 | 4 | 5 | 6 | 7 | 8 | 9 | 10 | 11 | 12 | 13 | _ + 14 => rfl

/-- The views from 11 on are constants of the part, whatever the state (R186). -/
theorem Arch.view_congr_of_le {sel : BitVec 4} (h : 11 ≤ sel.toNat) (p : Part) (a b : Arch) : a.view p sel = b.view p sel := by
  obtain ⟨j, hj⟩ := Nat.exists_eq_add_of_le h
  rw [Arch.view_eq_views, Arch.view_eq_views, hj, ← List.getElem?_drop, ← List.getElem?_drop]
  rfl

/-- The other views are 0 after reset (R183). -/
theorem Arch.view_afterReset {sel : BitVec 4} (h : sel.toNat ≤ 10) (p : Part) (dl cur : Memory) :
    (Arch.afterReset dl cur).view p sel = some 0 := by
  have hzeros : ((Arch.afterReset dl cur).views p).take 11 = List.replicate 11 0 := by
    simp [Arch.views, Arch.afterReset, statusWord, kindBit]
  have hlt : sel.toNat < 11 := Nat.lt_succ_of_le h
  rw [Arch.view_eq_views, ← List.getElem?_take_of_lt hlt, hzeros, List.getElem?_replicate_of_lt hlt]

/-- RDST with a legal selector answers its view and changes nothing. -/
theorem exec_rdst_of_view {s : State} {sel : BitVec 4} {v : Half} (h : s.arch.view s.part sel = some v) :
    exec (.rdst sel) s = .next (s.answered (.rdst sel) .ok v s.arch) := by
  have hsel : ¬13 < sel.toNat := by rw [← Arch.view_eq_none_iff s.part s.arch, h]; exact Option.some_ne_none v
  rw [exec_of_pass (by rw [firstFailure_rdst, if_neg hsel])]
  simp only [perform, h, Option.getD_some]

/-- Settles O24: the row of RDST with its selector, and the views as a list. -/
theorem rdstReturnsTheView : Obligations.RdstReturnsTheView := by
  have hrow : (⟨"RDST", 0xB0000000, 0xFFFFFFF0⟩ : OpcodeRow) ∈ opcodeMap := by decide
  refine ⟨fun w => ⟨fun h hsel => decode_of_takes hrow ⟨h, fun _ => hsel⟩, fun hop h => ?_⟩, fun s sel hsel => ?_,
    fun _ => BitVec.extractLsb'_append_extractLsb', fun p dl cur _ hsel => Arch.view_afterReset hsel p dl cur⟩
  · refine answersIllegal_of_not_takes_row hrow hop fun ht => ?_
    obtain ⟨hmatch, hle⟩ := ht
    exact h.elim (fun hne => hne hmatch) fun hge => absurd (hle rfl) (Nat.not_le_of_lt hge)
  · have hview : s.arch.view s.part sel ≠ none := by rwa [Ne, Arch.view_eq_none_iff, not_lt]
    obtain ⟨v, hv⟩ := Option.ne_none_iff_exists'.1 hview
    exact ⟨v, exec_rdst_of_view hv, (Arch.view_eq_views s.part sel s.arch).symm.trans hv⟩

/-- No step changes the part (R186): the core waits, answers a word, or is reset. -/
theorem step_part {s t : State} (h : step s = .next t) : t.part = s.part := by
  unfold step State.serve at h
  split at h
  case h_1 => cases h; rfl
  case h_2 host w rest _ =>
    obtain ⟨rop, code, data, a, hend, -⟩ := runWord_ends w { s with inbox := rest, requester := host }
    rw [hend] at h
    cases h
    rfl
  case h_3 => cases h
  case h_4 => cases h; rfl

/-- Settles O53: the views from 11 on read the part, which no step changes. -/
theorem partConstantsNeverChange : Obligations.PartConstantsNeverChange := by
  intro s t h
  have hpart := step_part h
  exact ⟨hpart, fun sel hsel => by rw [hpart, Arch.view_congr_of_le hsel], rfl, rfl, rfl⟩

end Sys2Proof.Machine
end

section
/-! SUPPORT. The step of a command word is `transact` (60_exceptions.md R202), and a word that answers another code than OK changes
nothing (R201). -/

namespace Sys2Proof.Machine

/-! ### The cases of `transact` -/

section
variable {p : Part} {a : Arch} {w : Word}

theorem transact_of_error {e : DecodeError} (hd : decode w = .error e) :
    transact p a w = (a, responseWord (fieldOP w) .illegalCommand a.blkActive a.configured 0) := by
  rw [transact, hd]

theorem transact_of_failure {i : Instr} {code : Code} (hd : decode w = .ok i) (hf : firstFailure p a i = some code) :
    transact p a w = (a, responseWord (fieldOP w) code a.blkActive a.configured 0) := by
  simp only [transact, hd, hf]

theorem transact_of_pass {i : Instr} (hd : decode w = .ok i) (hf : firstFailure p a i = none) :
    transact p a w = ((perform p a i).1,
      responseWord (fieldOP w) .ok (perform p a i).1.blkActive (perform p a i).1.configured (perform p a i).2) := by
  simp only [transact, hd, hf]

/-- Of the three cases, only a command that passes its checks answers code 0; the others leave the state as it was. -/
theorem transact_of_responseCODE_ne_zero (h : responseCODE (transact p a w).2 ≠ 0) :
    ∃ code, transact p a w = (a, responseWord (fieldOP w) code a.blkActive a.configured 0) := by
  cases hd : decode w with
  | error e => exact ⟨_, transact_of_error hd⟩
  | ok i =>
    cases hf : firstFailure p a i with
    | some code => exact ⟨code, transact_of_failure hd hf⟩
    | none =>
      rw [transact_of_pass hd hf, responseCODE_responseWord] at h
      exact absurd rfl h

end

/-! ### The step -/

/-- The state after a word that has been taken from the port, with its one response, as `transact` gives them. -/
def State.transacted (w : Word) (s : State) : State :=
  { s with
    arch := (transact s.part s.arch w).1,
    outbox := s.outbox ++ [{ host := s.requester, word := (transact s.part s.arch w).2 }] }

/-- A word runs as `transact` says: `exec` makes the checks of R202 in their order, and the response echoes the OP of the word. -/
theorem runWord_eq_transacted (w : Word) (s : State) : s.runWord w = .next (s.transacted w) := by
  unfold State.runWord State.transacted
  cases hd : decode w with
  | error e => rw [transact_of_error hd]; rfl
  | ok i =>
    simp only [exec_eq_checked]
    cases hf : firstFailure s.part s.arch i with
    | some code => rw [State.checked_of_failure hf, transact_of_failure hd hf, op_of_decode hd]; rfl
    | none => rw [State.checked_of_pass hf, transact_of_pass hd hf, op_of_decode hd]; rfl

/-- Settles O13: the step takes the word from the port and runs it. -/
theorem stepIsTheListOfChecks : Obligations.StepIsTheListOfChecks :=
  fun _ _ w _ h => (step_of_command h).trans (runWord_eq_transacted w _)

/-- Settles O12: the step is `transact`, whose failing cases answer from the state they leave. -/
theorem failedCommandChangesNothing : Obligations.FailedCommandChangesNothing := by
  intro s t host w r rest h hstep hout hcode
  rw [stepIsTheListOfChecks s host w rest h] at hstep
  cases hstep
  obtain rfl : (transact s.part s.arch w).2 = r := by simpa using hout
  obtain ⟨code, htransact⟩ := transact_of_responseCODE_ne_zero hcode
  rw [htransact]
  exact ⟨rfl, rfl, responseDATA_responseWord _ _ _ _ _, responseRBLK_responseWord _ _ _ _ _, responseRCFG_responseWord _ _ _ _ _⟩

end Sys2Proof.Machine
end

section
/-! SUPPORT. The reset transition and the registers of S0 (70_reset_and_hazards.md R230). -/

namespace Sys2Proof.Machine

/-- A step with a reset at the port takes it, whatever the state is. -/
theorem step_of_reset {s : State} {dl cur : List (Nat × Half)} {rest : List HostInput} (h : s.inbox = .reset dl cur :: rest) :
    step s = .next (State.resetTo dl cur { s with inbox := rest }) := by
  simp only [step, State.serve, h]

/-- S0 meets R34, whatever its memory holds: no filter exists and no block is open, so that clauses (a) and (c) ask nothing. -/
theorem Arch.afterReset_regsOk (p : Part) (dl cur : Memory) : (Arch.afterReset dl cur).regsOk p :=
  ⟨fun hconfigured => absurd hconfigured Bool.false_ne_true, fun _ => ⟨rfl, rfl, rfl, rfl, rfl⟩,
    fun hactive => absurd hactive Bool.false_ne_true, fun _ => ⟨rfl, rfl, rfl⟩⟩

/-- Settles O9: the state after the step is `State.resetTo`, whose registers are those of S0 and whose part is the old one. -/
theorem resetGivesTheResetState : Obligations.ResetGivesTheResetState := by
  intro s dl cur rest h
  exact ⟨_, step_of_reset h, rfl, rfl, rfl, rfl, rfl, rfl, rfl, rfl, rfl, rfl, rfl, rfl, rfl, rfl,
    fun sel hsel => Arch.view_congr_of_le hsel s.part _ _, Arch.afterReset_regsOk s.part _ _⟩

end Sys2Proof.Machine
end

section
/-! SUPPORT. Encoding and decoding are inverse (30_encoding.md section 2): the row of a well-formed command takes its word, and a word
that decodes has the fields that the encoder writes. -/

namespace Sys2Proof

/-! ### The word of a command -/

/-- A selector stands alone in field D of its word. -/
theorem setWidth_sel_and_reserved (sel : BitVec 4) : (sel.setWidth 16 : Half) &&& 0xFFF0 = 0 := by
  revert sel
  decide

/-- The row of a command takes the command's word; for RDST the selector must be legal. -/
theorem Instr.row_takes_encode {i : Instr} (h : i.wf = true) : i.row.takes (encode i) := by
  cases i with
  | rdst sel =>
    have hsel : sel.toNat ≤ 13 := by simpa [Instr.wf] using h
    refine OpcodeRow.takes_rdst_iff.2 ?_
    rw [encode, agrees_formatC, fieldSel_formatC, BitVec.setWidth_setWidth_of_le _ (by decide), BitVec.setWidth_eq,
      decide_eq_true hsel]
    simpa [fieldOP, fieldCH, fieldK, fieldA, fieldD] using setWidth_sel_and_reserved sel
  | nop | setgl | setgh | setdly | cons | dstr | blk | smp | filt | dlrd | dlwr | rdcur =>
    refine (OpcodeRow.takes_iff_agrees _ (by decide)).2 ((agrees_formatC _ _ _ _ _ _ _).trans ?_)
    simp [fieldOP, fieldCH, fieldK, fieldA, fieldD]

/-- The operands that the decoder reads in the word of a command are the operands of the command. -/
theorem commandOf_op_encode (i : Instr) : commandOf i.op (encode i) = i := by
  cases i with
  | rdst sel => simp [commandOf, Instr.op, encode, fieldSel_formatC]
  | nop | setgl | setgh | setdly | cons | dstr | blk | smp | filt | dlrd | dlwr | rdcur =>
    simp [commandOf, Instr.op, encode]

/-- Every well-formed command decodes from its own word. -/
theorem decode_encode {i : Instr} (h : i.wf = true) : decode (encode i) = .ok i := by
  rw [decode_of_takes i.row_mem (Instr.row_takes_encode h), Instr.fieldOP_row_pattern, commandOf_op_encode]

@[simp] theorem decodeBytes_lanesOfWord (w : Word) : decodeBytes (lanesOfWord w) = decode w := by
  rw [decodeBytes, wordOfLanes_lanesOfWord]

/-! ### The command of a word -/

/-- The decoder gives only legal selectors (R80). -/
theorem wf_of_decode {w : Word} {i : Instr} (h : decode w = .ok i) : i.wf = true := by
  cases i with
  | rdst sel =>
    obtain ⟨-, hsel⟩ := row_takes_of_decode h
    obtain rfl : fieldSel w = sel := Instr.rdst.inj (commandOf_op_of_decode h)
    exact decide_eq_true (hsel rfl)
  | nop | setgl | setgh | setdly | cons | dstr | blk | smp | filt | dlrd | dlwr | rdcur => rfl

/-- A full mask leaves a field as it is, in each of the widths of format C. -/
theorem and_full_mask :
    (∀ x : BitVec 4, x &&& 15#4 = x) ∧ (∀ x : BitVec 1, x &&& 1#1 = x) ∧ (∀ x : BitVec 7, x &&& 127#7 = x) ∧
      ∀ x : Half, x &&& 65535#16 = x :=
  ⟨fun _ => BitVec.and_allOnes, fun _ => BitVec.and_allOnes, fun _ => BitVec.and_allOnes, fun _ => BitVec.and_allOnes⟩

/-- The selector is the low four bits of field D. -/
theorem fieldSel_eq (w : Word) : fieldSel w = (fieldD w).setWidth 4 := by
  conv_lhs => rw [← formatC_fields w]
  exact fieldSel_formatC _ _ _ _ _

/-- Field D is its selector when the twelve bits above are 0. -/
theorem setWidth_sel_of_reserved_zero {d : Half} (h : d &&& 65520#16 = 0#16) : ((d.setWidth 4).setWidth 16 : Half) = d := by
  have hsplit : d &&& 65520#16 ||| d &&& 15#16 = d := by
    rw [← BitVec.and_or_distrib_left]
    exact and_full_mask.2.2.2 d
  rw [h, BitVec.zero_or] at hsplit
  have hmod : d.toNat % 2 ^ 4 = d.toNat := by
    rw [← Nat.and_two_pow_sub_one_eq_mod]
    exact congrArg BitVec.toNat hsplit
  apply BitVec.eq_of_toNat_eq
  rw [BitVec.toNat_setWidth, BitVec.toNat_setWidth, hmod, Nat.mod_eq_of_lt d.isLt]

/-- A word is the word of the command it decodes to: the row fixes all but its operand fields. -/
theorem encode_of_decode {w : Word} {i : Instr} (h : decode w = .ok i) : encode i = w := by
  have hfields := (agrees_iff _ _ _).1 (beq_iff_eq.2 (row_takes_of_decode h).1)
  have hi := (commandOf_op_of_decode h).symm
  rw [← formatC_fields w]
  cases i with
  | nop | setgl | setgh | setdly | cons | dstr | blk | smp | filt | dlrd | dlwr | rdcur | rdst =>
    simp [commandOf, Instr.op, fieldSel_eq] at hi
    generalize fieldOP w = op, fieldCH w = ch, fieldK w = k, fieldA w = a, fieldD w = d at hfields hi ⊢
    simp [Instr.row, Instr.op, opcodeMap, fieldOP, fieldCH, fieldK, fieldA, fieldD, and_full_mask] at hfields
    simp [encode, hfields, hi, setWidth_sel_of_reserved_zero]

/-- Settles O1: the command's row takes its word, and the decoder reads back the operands; the byte lanes assemble to the word. -/
theorem decodeOfEncodeIsTheCommand : Obligations.DecodeOfEncodeIsTheCommand := fun _ h =>
  ⟨decode_encode h, (decodeBytes_lanesOfWord _).trans (decode_encode h)⟩

/-- Settles O2: the row of the command fixes all the bits that its operands do not. -/
theorem decodedWordIsTheEncoding : Obligations.DecodedWordIsTheEncoding := fun _ _ h =>
  ⟨wf_of_decode h, encode_of_decode h⟩

/-- Settles O6, by running the decoder on the words. -/
theorem wordsOfTheSpecDecode : Obligations.WordsOfTheSpecDecode := by
  unfold Obligations.WordsOfTheSpecDecode
  decide

end Sys2Proof

namespace Sys2Proof.Machine

/-! ### The word at the port -/

/-- Settles O7: the step runs the word, and the four lanes assemble to it. -/
theorem stepRunsTheDecodedCommand : Obligations.StepRunsTheDecodedCommand := by
  refine ⟨fun s host w rest i h hd => ?_, fun host w => ?_⟩
  · rw [step_of_command h, State.runWord, hd]
  · have hword := wordOfLanes_lanesOfWord w
    rw [lanesOfWord] at hword
    rw [inputOfLanes, hword]

/-- Settles O8: the port is empty, or holds a torn transfer, which is what any number of lanes but four makes. -/
theorem portWithoutACommand : Obligations.PortWithoutACommand := by
  refine ⟨fun s h => ?_, fun s host lanes rest h => ?_, fun host lanes h => ?_⟩
  · simp only [step, State.serve, h]
  · simp only [step, State.serve, h]
  · have htorn : wordOfLanes lanes = none := by
      unfold wordOfLanes
      split
      next => exact absurd rfl h
      next => rfl
    rw [inputOfLanes, htorn]

end Sys2Proof.Machine
end

section
/-! SUPPORT. The whole machine: every step keeps the invariant (10_state.md R34), commands run in order for their hosts
(20_memory.md R61, R66), and what a reset and a step of one core do. -/

namespace Sys2Proof.Machine

/-! ### The step of a word, at the port and as a transaction -/

/-- The transaction that `step` gives for a word is the list of checks (60_exceptions.md R202). -/
theorem cfcStep_eq_transact (p : Part) (a : Arch) (w : Word) : cfcStep p a w = transact p a w := by
  cases hd : decode w with
  | error e => rw [cfcStep_of_error hd, transact_of_error hd]
  | ok i =>
    cases hf : firstFailure p a i with
    | some code => rw [cfcStep_of_failure hd hf, transact_of_failure hd hf, op_of_decode hd]
    | none => rw [cfcStep_of_pass hd hf, transact_of_pass hd hf, op_of_decode hd]

/-- A step on a command word is one transaction, with the response to the host of the word. -/
theorem step_of_command_eq_cfcStep {s : State} {host : Nat} {w : Word} {rest : List HostInput}
    (h : s.inbox = .command host w :: rest) :
    step s = .next { s with
      arch := (cfcStep s.part s.arch w).1, inbox := rest, requester := host,
      outbox := s.outbox ++ [{ host := host, word := (cfcStep s.part s.arch w).2 }] } := by
  rw [cfcStep_eq_transact]
  exact stepIsTheListOfChecks s host w rest h

/-! ### The invariant -/

/-- Every state that a reset gives meets the invariant, whatever the reset input holds. -/
theorem State.resetTo_arch_inv (dl cur : List (Nat × Half)) (s : State) : (s.resetTo dl cur).arch.inv s.part := by
  obtain ⟨hdl, hdlIn⟩ := Memory.ofCells_keeps (lineRegion s.part.maxCh.toNat s.part.maxDelay.toNat) dl
  obtain ⟨hcur, hcurIn⟩ := Memory.ofCells_keeps (cursorRegion s.part.maxCh.toNat) cur
  exact ⟨Arch.afterReset_regsOk _ _ _, hdl, hcur, hdlIn, hcurIn⟩

/-- Settles O48: the core waits, runs one transaction, stops, or is reset. -/
theorem everyStepKeepsTheInvariant : Obligations.EveryStepKeepsTheInvariant := by
  intro s t ⟨hp, ha⟩ hstep
  cases hin : s.inbox with
  | nil =>
    rw [portWithoutACommand.1 s hin] at hstep
    cases hstep
    exact ⟨hp, ha⟩
  | cons input rest =>
    cases input with
    | command host w =>
      rw [step_of_command_eq_cfcStep hin] at hstep
      cases hstep
      exact ⟨hp, cfcStep_keeps_inv hp ha w⟩
    | torn host lanes =>
      rw [portWithoutACommand.2.1 s host lanes rest hin] at hstep
      cases hstep
    | reset dl cur =>
      rw [step_of_reset hin] at hstep
      cases hstep
      exact ⟨hp, State.resetTo_arch_inv dl cur { s with inbox := rest }⟩

/-- Settles O47: S0 meets R34 with any memory, and the empty memory is canonical. -/
theorem resetMeetsTheInvariant : Obligations.ResetMeetsTheInvariant :=
  ⟨by decide, Arch.afterReset_regsOk _ _ _, rfl, rfl, rfl, rfl⟩

/-- Settles O50: two states after reset differ in cells that R39 makes unobservable only. -/
theorem memoryAfterResetNeverShows : Obligations.MemoryAfterResetNeverShows := by
  intro p dl cur dl' cur' ws hp hmem hmem'
  have hvisible : (Arch.afterReset dl cur).sameVisible (Arch.afterReset dl' cur') :=
    ⟨rfl, fun hconfigured => absurd hconfigured Bool.false_ne_true⟩
  exact (unobservableCellsNeverShow p _ _ ws hp ⟨Arch.afterReset_regsOk p dl cur, hmem⟩
    ⟨Arch.afterReset_regsOk p dl' cur', hmem'⟩ hvisible).1

/-! ### The memory after a reset -/

/-- Writing the cells of a canonical store on top of another store: its cells show, and elsewhere the other store. -/
theorem Memory.read_foldl_cells {region : Nat → Bool} {m base : Memory} (hm : m.wf = true) (hr : m.within region = true)
    (hbase : base.wf = true) (a : Nat) :
    Memory.read (m.foldl (fun m cell => if region cell.1 then m.write cell.1 cell.2 else m) base) a =
      if m.read a = Memory.absent then base.read a else m.read a := by
  induction m generalizing base with
  | nil => simp
  | cons cell m ih =>
    obtain ⟨k, v⟩ := cell
    obtain ⟨hv, habove⟩ := (Memory.wf_cons _ _ _).1 hm
    obtain ⟨hk, hrest⟩ := (Memory.within_cons _ _ _ _).1 hr
    rw [List.foldl_cons, if_pos hk, ih (Memory.wf_of_wfAbove habove) hrest (Memory.write_wf hbase _ _), Memory.read_cons]
    by_cases hka : k = a
    · subst hka
      rw [Memory.read_of_wfAbove habove (Nat.le_refl k), if_pos rfl, if_pos rfl, if_neg hv, Memory.read_write_same hbase]
    · rw [Memory.read_write_other _ (Ne.symm hka), if_neg hka]

/-- The cells of a canonical store leave that store. -/
theorem Memory.ofCells_of_wf {region : Nat → Bool} {m : Memory} (hm : m.wf = true) (hr : m.within region = true) :
    Memory.ofCells region m = m := by
  refine Memory.ext_of_read (Memory.ofCells_keeps region m).1 hm fun a => ?_
  rw [Memory.ofCells, Memory.read_foldl_cells hm hr rfl, Memory.read_nil]
  split_ifs with habsent
  · exact habsent.symm
  · rfl

/-- Settles O10: a reset input that lists the cells of a store leaves that store. -/
theorem anyMemoryCanFollowReset : Obligations.AnyMemoryCanFollowReset := fun _ _ _ _ h hdl hcur hdlIn hcurIn =>
  ⟨_, step_of_reset h, Memory.ofCells_of_wf hdl hdlIn, Memory.ofCells_of_wf hcur hcurIn⟩

/-! ### Runs of the machine, and several machines -/

/-- Settles O55, by induction on the commands: each step takes the first of them and is one transaction. -/
theorem commandsRunInOrderForTheirHosts : Obligations.CommandsRunInOrderForTheirHosts := by
  intro s cmds rest h
  induction cmds generalizing s with
  | nil =>
    obtain rfl : s.inbox = rest := h
    simp [Host.Core.run]
  | cons cmd cmds ih =>
    have hstep := step_of_command_eq_cfcStep (s := s) (host := cmd.1) (w := cmd.2) h
    simp only [List.length_cons, Host.Core.run]
    rw [show Sys2Proof.core.step s = _ from hstep]
    refine (ih _ rfl).trans ?_
    simp [List.getLast?_cons]

/-- Settles O56: the core that steps is the only one that the list gets a new state for. -/
theorem instancesShareNothing : Obligations.InstancesShareNothing := by
  intro k cores next h
  unfold stepInstance at h
  split at h
  next hk =>
    cases h
    exact ⟨rfl, fun _ _ => rfl, fun s hs => absurd (hk.symm.trans hs) (by simp)⟩
  next s hk =>
    split at h
    next t hstep =>
      cases h
      obtain ⟨hlt, -⟩ := List.getElem?_eq_some_iff.1 hk
      refine ⟨List.length_set, fun j hj => List.getElem?_set_ne hj.symm, fun s' hs' => ⟨t, ?_, List.getElem?_set_self hlt⟩⟩
      rw [← Option.some.inj (hk.symm.trans hs'), hstep]
    next => cases h
    next => cases h

end Sys2Proof.Machine
end

section
/-! SUPPORT. Claims about one command, in the order of spec/: codes, CONS, DSTR, the reads and writes of delay lines, FILT and SMP. Each
is the list of checks of `firstFailure` and the body `perform`. -/

namespace Sys2Proof.Machine

/-! ### Codes (60_exceptions.md R203) -/

/-- The code of a command's response is that of its first failing check, or OK. -/
theorem responseCODE_cfcStep {p : Part} {a : Arch} {w : Word} {i : Instr} (hd : decode w = .ok i) :
    responseCODE (cfcStep p a w).2 = codeBits ((firstFailure p a i).getD .ok) := by
  cases hf : firstFailure p a i with
  | some code => rw [cfcStep_of_failure hd hf, responseCODE_responseWord, Option.getD_some]
  | none => rw [cfcStep_of_pass hd hf, responseCODE_responseWord, Option.getD_none]

/-- Settles O14: the checks of each command name its codes; RDST has none left after the decoder's. -/
theorem codesOfEachCommand : Obligations.CodesOfEachCommand := by
  intro p a w i hd
  refine ⟨_, responseCODE_cfcStep hd, ?_⟩
  cases i with
  | rdst sel =>
    have hsel : ¬13 < sel.toNat := by simpa [Instr.wf] using wf_of_decode hd
    simp [hsel]
  | nop | setgl | setgh | setdly | dstr => simp
  | cons =>
    rw [firstFailure_cons]
    split_ifs <;> simp
  | blk =>
    rw [firstFailure_blk]
    split_ifs <;> simp
  | smp =>
    rw [firstFailure_smp]
    split_ifs <;> simp
  | filt =>
    rw [firstFailure_filt]
    split_ifs <;> simp
  | dlwr =>
    rw [firstFailure_dlwr]
    split_ifs <;> simp
  | dlrd =>
    rw [firstFailure_dlrd]
    split_ifs <;> simp
  | rdcur =>
    rw [firstFailure_rdcur]
    split_ifs <;> simp

/-! ### CONS and DSTR (43_config_control.md section 2) -/

/-- Settles O17: CONS passes its checks, and its body is `Arch.construct`. -/
theorem consBuildsTheFilter : Obligations.ConsBuildsTheFilter := by
  intro s k n _ hact hd1 hdmax hn1 hnmax
  have hf : firstFailure s.part s.arch (.cons k n) = none :=
    (firstFailure_cons_eq_none_iff k).2 ⟨hact, ⟨hd1, hdmax⟩, hn1, hnmax⟩
  exact ⟨_, exec_of_pass hf, rfl, rfl, Arch.construct_nch_toNat hnmax k, rfl, rfl,
    fun c i hc hi => Arch.construct_dl_read_slot hc hi k, fun c hc => Arch.construct_cur_read hc k, rfl, rfl, hact, rfl, rfl, rfl⟩

/-- A command leaves the state as it was, or as its body makes it. -/
theorem arch_of_exec_next {i : Instr} {s t : State} (h : exec i s = .next t) :
    t.arch = s.arch ∨ t.arch = (perform s.part s.arch i).1 := by
  rw [exec_eq_checked] at h
  cases hf : firstFailure s.part s.arch i with
  | some code =>
    rw [State.checked_of_failure hf] at h
    cases h
    exact .inl rfl
  | none =>
    rw [State.checked_of_pass hf] at h
    cases h
    exact .inr rfl

/-- Settles O18: CONS clears only the lines and cursors of its filter, and DSTR writes no cell. -/
theorem cellsOutsideTheFilterAreLeft : Obligations.CellsOutsideTheFilterAreLeft := by
  refine ⟨fun s t k n h => ?_, fun s t h => ?_⟩
  · rcases arch_of_exec_next h with heq | heq
    · rw [heq]
      exact ⟨fun _ _ _ _ => rfl, fun _ _ => rfl⟩
    · rw [heq]
      refine ⟨fun c i hi hout => ?_, fun c hc => ?_⟩
      · have hslot : ¬lineRegion n.toNat s.arch.sdelay.toNat (slotAddr c i) = true := by
          rw [lineRegion, slotAddr, Bool.and_eq_true, decide_eq_true_iff, decide_eq_true_iff]
          omega
        exact (Memory.read_clear _ _ _).trans (if_neg hslot)
      · have hcell : ¬cursorRegion n.toNat c = true := by
          rw [cursorRegion, decide_eq_true_iff]
          omega
        exact (Memory.read_clear _ _ _).trans (if_neg hcell)
  · rcases arch_of_exec_next h with heq | heq <;> rw [heq] <;> exact ⟨rfl, rfl⟩

/-- Writing 0 at each address of a list. -/
def Memory.zeroAll (addrs : List Nat) (m : Memory) : Memory := addrs.foldl (fun m addr => m.write addr 0) m

theorem Memory.zeroAll_wf {m : Memory} (h : m.wf = true) (addrs : List Nat) : (m.zeroAll addrs).wf = true := by
  induction addrs generalizing m with
  | nil => exact h
  | cons addr addrs ih => exact ih (Memory.write_wf h addr 0)

theorem Memory.read_zeroAll {m : Memory} (h : m.wf = true) (addrs : List Nat) (a : Nat) :
    (m.zeroAll addrs).read a = if a ∈ addrs then 0 else m.read a := by
  induction addrs generalizing m with
  | nil => rfl
  | cons addr addrs ih =>
    rw [Memory.zeroAll, List.foldl_cons, ← Memory.zeroAll, ih (Memory.write_wf h addr 0)]
    by_cases ha : a = addr
    · subst ha
      simp [Memory.read_write_same h]
    · simp [ha, Memory.read_write_other m ha]

/-- Clearing a region is writing 0 at each of its addresses. -/
theorem Memory.clear_eq_zeroAll {m : Memory} (h : m.wf = true) {region : Nat → Bool} {addrs : List Nat}
    (hregion : ∀ a, region a = true ↔ a ∈ addrs) : m.clear region = m.zeroAll addrs := by
  refine Memory.ext_of_read (Memory.clear_wf h region) (Memory.zeroAll_wf h addrs) fun a => ?_
  simp only [Memory.read_clear, Memory.read_zeroAll h, hregion]
  rfl

/-- The two nested loops of CONS visit the slots of each line in turn. -/
theorem zeroSlots_eq_zeroAll (n d : Nat) (m : Memory) :
    zeroSlots n d m = m.zeroAll ((List.range n).flatMap fun c => (List.range d).map (slotAddr c)) := by
  simp only [zeroSlots, Memory.zeroAll, List.foldl_flatMap, List.foldl_map]

/-- Settles O21: the region that CONS clears is the list of addresses that its loops visit. -/
theorem consZeroFillIsTheLoop : Obligations.ConsZeroFillIsTheLoop := by
  intro a k n hdl hcur
  have hdelay := a.sdelay.isLt
  rw [zeroSlots_eq_zeroAll]
  refine ⟨Memory.clear_eq_zeroAll hdl fun addr => ?_, Memory.clear_eq_zeroAll hcur fun addr => ?_⟩
  · simp only [lineRegion, slotAddr, Bool.and_eq_true, decide_eq_true_iff, List.mem_flatMap, List.mem_map, List.mem_range]
    constructor
    · rintro ⟨hc, hi⟩
      exact ⟨addr / 65536, hc, addr % 65536, hi, by omega⟩
    · rintro ⟨c, hc, i, hi, rfl⟩
      omega
  · simp [cursorRegion]

/-- Where no filter exists, all that DSTR would clear is clear already (10_state.md R34 (b), (d)). -/
theorem Arch.destroy_of_unconfigured {p : Part} {a : Arch} (h : a.regsOk p) (hcfg : a.configured = false) : a.destroy = a := by
  obtain ⟨-, huncfg, -, hclosed⟩ := h
  obtain ⟨hact, hkind, hnch, hdelay, hgain⟩ := huncfg hcfg
  obtain ⟨hch, hframe, hframes⟩ := hclosed hact
  cases a
  simp_all [Arch.destroy]

/-- Settles O23: DSTR has no check, and its body changes nothing. -/
theorem dstrWithoutAFilterChangesNothing : Obligations.DstrWithoutAFilterChangesNothing := by
  intro s hinv hcfg
  rw [exec_of_pass (firstFailure_dstr _ _)]
  simp only [perform, Arch.destroy_of_unconfigured hinv.2.1 hcfg]

/-! ### Delay lines (40_delay_line.md section 2) -/

/-- A line write writes no register. -/
theorem Arch.lineWrite_sameRegs (c : Channel) (v : Half) (a : Arch) : (a.lineWrite c v).sameRegs a := by
  rw [Arch.lineWrite, Arch.adv_eq]
  rfl

/-- Settles O26: the rows of DLRD and RDCUR, their checks, and their bodies, which return the slot at the cursor and the cursor. -/
theorem lineReadsComplete : Obligations.LineReadsComplete := by
  refine ⟨rowDecodes_of_mem (r := ⟨"DLRD", 0x90000000, 0xF0FFFFFF⟩) (by decide) (by decide),
    rowDecodes_of_mem (r := ⟨"RDCUR", 0xC0000000, 0xF0FFFFFF⟩) (by decide) (by decide),
    fun s c => ⟨fun hcfg => ⟨?_, ?_⟩, fun hcfg hc => ⟨?_, ?_⟩, fun hcfg hc => ⟨?_, ?_, fun hinv => ?_⟩⟩⟩
  · exact failsWith_of_failure (by simp [hcfg])
  · exact failsWith_of_failure (by simp [hcfg])
  · exact failsWith_of_failure (by simp [hcfg, hc])
  · exact failsWith_of_failure (by simp [hcfg, hc])
  · exact exec_of_pass (by simp [hcfg, hc])
  · exact exec_of_pass (by simp [hcfg, hc])
  · exact hinv.2.cursor_lt hcfg hc

/-- Settles O27: the row of DLWR, its checks, and its body, which is one line write. -/
theorem dlwrWritesAndAdvances : Obligations.DlwrWritesAndAdvances := by
  refine ⟨rowDecodes_of_mem (r := ⟨"DLWR", 0xA0000000, 0xF0FF0000⟩) (by decide) (by decide),
    fun s c v hinv => ⟨fun hact => ?_, fun hact hcfg => ?_, fun hact hcfg hc => ?_, fun hact hcfg hc => ?_⟩⟩
  · exact failsWith_of_failure (by simp [hact])
  · exact failsWith_of_failure (by simp [hact, hcfg])
  · exact failsWith_of_failure (by simp [hact, hcfg, hc])
  · obtain ⟨hdl, hcur⟩ := hinv.2.memory_wf
    refine ⟨s.arch.lineWrite c v, exec_of_pass (by simp [hact, hcfg, hc]), ?slot, fun addr haddr => ?otherSlots, ?cursor,
      fun k hk => ?otherCursors, Arch.lineWrite_sameRegs c v s.arch⟩
    case slot => rw [Arch.lineWrite_dl, Memory.read_write_same hdl]
    case otherSlots => rw [Arch.lineWrite_dl, Memory.read_write_other _ haddr]
    case cursor => rw [Arch.cursor_lineWrite hcur, if_pos rfl, Arch.nextCursor_toNat (hinv.2.cursor_lt hcfg hc)]
    case otherCursors => rw [Arch.lineWrite_cur, Memory.read_write_other _ hk]

/-- The body of a read changes nothing. -/
theorem perform_fst_of_read {i : Instr} (h : mnemonicOf i ∈ ["NOP", "DLRD", "RDST", "RDCUR"]) (p : Part) (a : Arch) :
    (perform p a i).1 = a := by
  cases i with
  | nop | dlrd | rdst | rdcur => rfl
  | setgl | setgh | setdly | cons | dstr | blk | smp | filt | dlwr => exact absurd h (by simp [mnemonicOf])

/-- Settles O28: a read that fails changes nothing, and its body changes nothing. -/
theorem readsAreIdempotent : Obligations.ReadsAreIdempotent := by
  intro p a w i hd hread
  have hsame : (cfcStep p a w).1 = a := by
    cases hf : firstFailure p a i with
    | some code => rw [cfcStep_of_failure hd hf]
    | none => rw [cfcStep_of_pass hd hf, perform_fst_of_read hread]
  exact ⟨hsame, by simp [hsame]⟩

/-! ### FILT and SMP (41_comb_filter.md section 2, 42_block_driver.md section 1) -/

/-- Settles O32: the row of FILT and its checks. -/
theorem filtChecksInOrder : Obligations.FiltChecksInOrder := by
  refine ⟨rowDecodes_of_mem (r := ⟨"FILT", 0x80000000, 0xF0FF0000⟩) (by decide) (by decide),
    fun s c x => ⟨fun hact => ?_, fun hact hcfg => ?_, fun hact hcfg hc => ?_⟩⟩
  · exact failsWith_of_failure (by simp [hact])
  · exact failsWith_of_failure (by simp [hact, hcfg])
  · exact failsWith_of_failure (by simp [hact, hcfg, hc])

/-- A filter has at most the 16 channels that a part can have (00_scope.md R9). -/
theorem Arch.inv.nch_le {p : Part} {a : Arch} (hp : p.ok = true) (h : a.inv p) (hcfg : a.configured = true) :
    a.nch.toNat ≤ 16 := by
  simp only [Part.ok, Bool.and_eq_true, decide_eq_true_eq] at hp
  obtain ⟨⟨hshape, -⟩, -⟩ := h
  obtain ⟨-, -, -, hnmax, -⟩ := hshape hcfg
  omega

section
variable {a : Arch}

/-- Within a channel's samples the sequencer goes to the next frame. -/
theorem Arch.nextInBlock_of_lt (h : a.blkFrame.toNat + 1 < a.blkFrames.toNat) :
    a.nextInBlock = { a with blkFrame := a.blkFrame + 1 } := by
  rw [Arch.nextInBlock, if_neg (Nat.ne_of_lt h)]

/-- After a channel's last frame the sequencer goes to the next channel. -/
theorem Arch.nextInBlock_of_last_frame (h : a.blkFrame.toNat + 1 = a.blkFrames.toNat) (hc : a.blkCh.toNat + 1 < a.nch.toNat) :
    a.nextInBlock = { a with blkCh := a.blkCh + 1, blkFrame := 0 } := by
  rw [Arch.nextInBlock, if_pos h, if_neg (Nat.ne_of_lt hc)]

/-- After the last frame of the last channel the block closes. -/
theorem Arch.nextInBlock_of_last (h : a.blkFrame.toNat + 1 = a.blkFrames.toNat) (hc : a.blkCh.toNat + 1 = a.nch.toNat) :
    a.nextInBlock = { a with blkActive := false, blkCh := 0, blkFrame := 0, blkFrames := 0 } := by
  rw [Arch.nextInBlock, if_pos h, if_pos hc]

end

/-- Settles O43: SMP answers a sample operation on the current channel, and its sequencer move is one of three. -/
theorem smpTakesTheNextSample : Obligations.SmpTakesTheNextSample := by
  refine ⟨rowDecodes_of_mem (r := ⟨"SMP", 0x70000000, 0xFFFF0000⟩) (by decide) (by decide),
    fun s x hinv => ⟨fun hact => failsWith_of_failure (by simp [hact]), fun hact => ?_⟩⟩
  obtain ⟨hexec, heffect⟩ := exec_smp_sampleEffect x hinv hact
  obtain ⟨hp, hinv⟩ := hinv
  have hcfg : s.arch.configured = true := by
    obtain ⟨⟨-, -, hopen, -⟩, -⟩ := hinv
    exact (hopen hact).1
  have hnch := hinv.nch_le hp hcfg
  refine ⟨_, _, hexec, heffect, fun hlt => ?_, fun hlast hc => ?_, fun hlast hc => ?_⟩
  · rw [Arch.nextInBlock_of_lt (by simpa using hlt)]
    exact ⟨by simpa using hact, by simp, by simp; bv_omega, by simp⟩
  · rw [Arch.nextInBlock_of_last_frame (by simpa using hlast) (by simpa using hc)]
    exact ⟨by simpa using hact, by simp; bv_omega, rfl, by simp⟩
  · rw [Arch.nextInBlock_of_last (by simpa using hlast) (by simpa using hc)]
    exact ⟨rfl, rfl, rfl, rfl⟩

end Sys2Proof.Machine
end

section
/-! SUPPORT. The arithmetic of the sample operation for single values: the width of the sum (00_scope.md R11), the rounding (R10), gain
0 and gain -1, and the free response of IIR (41_comb_filter.md R131, R132, R136). -/

namespace Sys2Proof.Machine

/-! ### The sum and its rounding -/

theorem abs_sval16_le (v : Half) : |sval16 v| ≤ 32768 :=
  have ⟨hlo, hhi⟩ := sval16_range v
  abs_le.2 ⟨hlo, by omega⟩

theorem abs_sval32_le (v : Word) : |sval32 v| ≤ 2147483648 :=
  have ⟨hlo, hhi⟩ := sval32_range v
  abs_le.2 ⟨hlo, by omega⟩

/-- Settles O33: a 32-bit gain times a 16-bit tap has at most 46 bits of magnitude, and the aligned input 31. -/
theorem accumulatorFitsIn48Bits : Obligations.AccumulatorFitsIn48Bits := by
  intro gain tap x
  have hproduct : |sval32 gain * sval16 tap| ≤ 2147483648 * 32768 := by
    rw [abs_mul]
    exact mul_le_mul (abs_sval32_le gain) (abs_sval16_le tap) (abs_nonneg _) (by norm_num)
  obtain ⟨hlo, hhi⟩ := abs_le.1 hproduct
  obtain ⟨hxlo, hxhi⟩ := sval16_range x
  unfold combAcc
  omega

/-- An arithmetic shift by 16 is the quotient toward minus infinity. -/
theorem shiftRight_sixteen (n : Int) : n >>> 16 = n / 65536 :=
  (Int.shiftRight_natCast_right n 16).trans (Int.shiftRight_eq_div_pow n 16)

/-- Settles O34: the two branches of R10 are the quotient toward zero, and an arithmetic shift rounds toward minus infinity,
which the added 0xFFFF corrects. -/
theorem roundShiftIsTheHardwareShift : Obligations.RoundShiftIsTheHardwareShift := by
  intro n
  refine ⟨roundShift_eq_tdiv n, ?_⟩
  simp only [roundShift, shiftRight_sixteen]
  split_ifs <;> omega

/-- The output where the products are exact multiples of 65536 is the saturated sum. -/
theorem combValue_of_whole {gain : Word} {tap x : Half} {m : Int} (h : combAcc gain tap x = m * 65536) :
    combValue gain tap x = clamp m (-32768) 32767 := by
  rw [combValue, h, roundShift_whole]

/-- With gain 0 the output is the input. -/
theorem combValue_gain_zero (tap x : Half) : combValue 0 tap x = sval16 x := by
  have ⟨hlo, hhi⟩ := sval16_range x
  rw [combValue_of_whole (m := sval16 x) (by simp [combAcc, sval32]), clamp_of_mem hlo hhi]

/-- With an empty delay line the output is the input. -/
theorem combValue_tap_zero (gain : Word) (x : Half) : combValue gain 0 x = sval16 x := by
  have ⟨hlo, hhi⟩ := sval16_range x
  rw [combValue_of_whole (m := sval16 x) (by simp [combAcc, sval16]), clamp_of_mem hlo hhi]

/-- With gain -1 the tap cancels an equal input. -/
theorem combValue_gain_neg_one_self (x : Half) : combValue 0xFFFF0000 x x = 0 := by
  have hgain : sval32 0xFFFF0000 = -65536 := by decide
  rw [combValue_of_whole (m := 0) (by rw [combAcc, hgain]; ring), clamp_of_mem (by norm_num) (by norm_num)]

/-! ### The free response of IIR (41_comb_filter.md R132) -/

/-- With input 0 the sum is the product of gain and tap. -/
theorem combAcc_input_zero (gain : Word) (v : Half) : combAcc gain v 0 = gain.toInt * v.toInt := by
  simp [combAcc, sval16, sval32]

/-- The free response by the magnitude of the product: the quotient of the magnitudes, with the sign of the product, saturated. -/
theorem combValue_input_zero {gain : Word} {v : Half} {product : Int} (h : gain.toInt * v.toInt = product) :
    combValue gain v 0 = max (-32768) (min 32767 (if 0 ≤ product then product / 65536 else -(-product / 65536))) := by
  rw [combValue, combAcc_input_zero, h, clamp_eq_max_min (by norm_num), roundShift]

/-- Settles O40: the product is compared with 65536 times the stored value, and then rounded and saturated. -/
theorem freeResponseShrinksOrGrows : Obligations.FreeResponseShrinksOrGrows := by
  intro gain v
  obtain ⟨hvlo, hvhi⟩ := sval16_range v
  rw [combValue_input_zero rfl]
  have hmagnitude : |gain.toInt * v.toInt| = |gain.toInt| * |v.toInt| := abs_mul _ _
  have hnonpos : 65536 < gain.toInt → v.toInt ≤ 0 → gain.toInt * v.toInt ≤ 0 := fun hg hv =>
    mul_nonpos_of_nonneg_of_nonpos (by omega) hv
  have hnonneg : gain.toInt < -65536 → v.toInt ≤ 0 → 0 ≤ gain.toInt * v.toInt := fun hg hv =>
    mul_nonneg_of_nonpos_of_nonpos (by omega) hv
  have hsmall : |gain.toInt| < 65536 → |gain.toInt * v.toInt| ≤ 65535 * |v.toInt| := fun hg =>
    hmagnitude ▸ mul_le_mul_of_nonneg_right (by omega) (abs_nonneg _)
  have hlarge : 65536 < |gain.toInt| → 65537 * |v.toInt| ≤ |gain.toInt * v.toInt| := fun hg =>
    hmagnitude ▸ mul_le_mul_of_nonneg_right (by omega) (abs_nonneg _)
  have hzero : v ≠ 0 → v.toInt ≠ 0 := fun hne h0 => hne (BitVec.eq_of_toInt_eq (by simpa using h0))
  have hmin : v = 0x8000 → v.toInt = -32768 := by rintro rfl; decide
  rw [← hmagnitude]
  simp only [sval16, Int.abs_eq_natAbs] at *
  generalize gain.toInt * v.toInt = product at *
  generalize gain.toInt = g at *
  generalize v.toInt = u at *
  refine ⟨fun hg hv => ?_, fun hg hv => ?_, fun hg => ?_, fun hg hv => ?_, fun hg hv hroom => ?_⟩
  · have := hsmall hg
    have := hzero hv
    omega
  · have := hlarge hg
    omega
  · have := hlarge (by omega)
    have := hnonpos hg
    omega
  · have := hlarge (by omega)
    have := hnonneg hg
    have := hmin hv
    omega
  · omega

/-- One period of the free response of IIR: the stored value becomes the output for input 0. -/
def freeResponse (gain : Word) (u : Half) : Half := bits16 (combValue gain u 0)

theorem freeResponse_zero (gain : Word) : freeResponse gain 0 = 0 := by
  rw [freeResponse, combValue_tap_zero, bits16_sval16]

/-- Below gain 1 each period takes at least 1 from the magnitude. -/
theorem freeResponse_iterate {gain : Word} (hgain : |gain.toInt| < 65536) {n : Nat} {v : Half} (h : v.toInt.natAbs ≤ n) :
    (freeResponse gain)^[n] v = 0 := by
  induction n generalizing v with
  | zero => exact BitVec.eq_of_toInt_eq (by simpa using h)
  | succ n ih =>
    rw [Function.iterate_succ_apply]
    by_cases hv : v = 0
    · subst hv
      rw [freeResponse_zero]
      exact ih (by simp)
    · have hshrinks := (freeResponseShrinksOrGrows gain v).1 hgain hv
      have hstored : (freeResponse gain v).toInt = combValue gain v 0 := sval16_bits16_combValue gain v 0
      rw [Int.abs_eq_natAbs, Int.abs_eq_natAbs] at hshrinks
      exact ih (by rw [hstored]; omega)

/-- Settles O41: after as many periods as the magnitude is large nothing is left. -/
theorem freeResponseDiesOut : Obligations.FreeResponseDiesOut := fun _ _ hgain => freeResponse_iterate hgain le_rfl

end Sys2Proof.Machine
end

section
/-! SUPPORT. Which registers a command writes (10_state.md R38), and two noninterference claims: staged values wait for CONS
(70_reset_and_hazards.md R237), and with gain 0 only RDST 0 shows the kind (41_comb_filter.md R136). -/

namespace Sys2Proof.Machine

/-! ### The access table -/

/-- What the access table of R38 says of one command: the registers that it may not write are the same before and after. -/
def Arch.followsTable (i : Instr) (a b : Arch) : Prop :=
  (mnemonicOf i ∉ ["CONS", "DSTR"] →
    b.configured = a.configured ∧ b.kind = a.kind ∧ b.nch = a.nch ∧ b.delay = a.delay ∧ b.gain = a.gain) ∧
  (mnemonicOf i ∉ ["SETGL", "SETGH"] → b.sgain = a.sgain) ∧
  (mnemonicOf i ≠ "SETGH" → b.sgain.extractLsb 31 16 = a.sgain.extractLsb 31 16) ∧
  (mnemonicOf i ≠ "SETGL" → b.sgain.extractLsb 15 0 = a.sgain.extractLsb 15 0) ∧
  (mnemonicOf i ≠ "SETDLY" → b.sdelay = a.sdelay) ∧
  (mnemonicOf i ∉ ["CONS", "SMP", "FILT", "DLWR"] → b.dl = a.dl ∧ b.cur = a.cur) ∧
  (mnemonicOf i ∉ ["BLK", "SMP", "DSTR"] →
    b.blkActive = a.blkActive ∧ b.blkCh = a.blkCh ∧ b.blkFrame = a.blkFrame ∧ b.blkFrames = a.blkFrames)

theorem Arch.followsTable_self (i : Instr) (a : Arch) : a.followsTable i a := by simp [Arch.followsTable]

theorem perform_followsTable (p : Part) (a : Arch) (i : Instr) : a.followsTable i (perform p a i).1 := by
  cases i with
  | nop | dlrd | rdst | rdcur => exact Arch.followsTable_self _ a
  | setgl d =>
    simp [Arch.followsTable, mnemonicOf, perform]
    exact BitVec.extractLsb'_append_eq_left
  | setgh d => 
    simp [Arch.followsTable, mnemonicOf, perform]
    exact BitVec.extractLsb'_append_eq_right
  | setdly | cons | dstr | smp | filt | dlwr => simp [Arch.followsTable, mnemonicOf, perform]
  | blk n f =>
    simp only [perform]
    split_ifs
    · exact Arch.followsTable_self _ a
    · simp [Arch.followsTable, mnemonicOf]

/-- Settles O52: a failing command writes nothing, and the body of each command follows the table. -/
theorem registersAreWrittenOnlyByTheirCommands : Obligations.RegistersAreWrittenOnlyByTheirCommands := by
  rintro p a b w i hd rfl
  cases hf : firstFailure p a i with
  | some code =>
    rw [cfcStep_of_failure hd hf]
    exact Arch.followsTable_self i a
  | none =>
    rw [cfcStep_of_pass hd hf]
    exact perform_followsTable p a i

/-! ### Staged values -/

/-- The two states differ in the staging registers only. -/
abbrev Arch.sameButStaged (a b : Arch) : Prop := { a with sgain := b.sgain, sdelay := b.sdelay } = b

section
variable {p : Part} {a b : Arch} {i : Instr}

theorem Arch.sameButStaged.exists_staged (h : a.sameButStaged b) : ∃ g d, b = { a with sgain := g, sdelay := d } :=
  ⟨b.sgain, b.sdelay, h.symm⟩

theorem firstFailure_congr_of_sameButStaged (h : a.sameButStaged b) (hcons : ∀ k n, i ≠ .cons k n) :
    firstFailure p b i = firstFailure p a i := by
  obtain ⟨g, d, rfl⟩ := h.exists_staged
  cases i with
  | cons k n => exact absurd rfl (hcons k n)
  | nop | setgl | setgh | setdly | dstr | blk | smp | filt | dlrd | dlwr | rdst | rdcur => rfl

theorem Arch.sameButStaged_lineWrite (h : a.sameButStaged b) (c : Channel) (v : Half) :
    (a.lineWrite c v).sameButStaged (b.lineWrite c v) := by
  obtain ⟨g, d, rfl⟩ := h.exists_staged
  simp only [Arch.lineWrite, Arch.adv_eq]
  rfl

theorem Arch.sameButStaged_nextInBlock (h : a.sameButStaged b) : a.nextInBlock.sameButStaged b.nextInBlock := by
  obtain ⟨g, d, rfl⟩ := h.exists_staged
  unfold Arch.nextInBlock
  split_ifs <;> rfl

theorem Arch.sampleOp_sameButStaged (h : a.sameButStaged b) (c : Channel) (x : Half) :
    (a.sampleOp c x).1.sameButStaged (b.sampleOp c x).1 ∧ (a.sampleOp c x).2 = (b.sampleOp c x).2 := by
  obtain ⟨g, d, rfl⟩ := h.exists_staged
  exact ⟨Arch.sameButStaged_lineWrite rfl c _, rfl⟩

/-- The staging registers show in the views 5, 6 and 7 only. -/
theorem Arch.view_congr_of_sameButStaged (h : a.sameButStaged b) {sel : BitVec 4} (h5 : sel ≠ 5) (h6 : sel ≠ 6) (h7 : sel ≠ 7) :
    b.view p sel = a.view p sel := by
  obtain ⟨g, d, rfl⟩ := h.exists_staged
  have hviews : ({ a with sgain := g, sdelay := d } : Arch).views p =
      (((a.views p).set 5 d).set 6 (g.extractLsb 15 0)).set 7 (g.extractLsb 31 16) := rfl
  rw [Arch.view_eq_views, Arch.view_eq_views, hviews, List.getElem?_set_ne (by bv_omega), List.getElem?_set_ne (by bv_omega),
    List.getElem?_set_ne (by bv_omega)]

/-- A body other than that of CONS reads the staging registers only to return them as a view. -/
theorem perform_sameButStaged (h : a.sameButStaged b) (hcons : ∀ k n, i ≠ .cons k n)
    (hview : ∀ sel, i = .rdst sel → sel ≠ 5 ∧ sel ≠ 6 ∧ sel ≠ 7) :
    (perform p a i).1.sameButStaged (perform p b i).1 ∧ (perform p a i).2 = (perform p b i).2 := by
  obtain ⟨g, d, rfl⟩ := h.exists_staged
  cases i with
  | cons k n => exact absurd rfl (hcons k n)
  | nop | setgl | setgh | setdly | dstr | dlrd | rdcur => exact ⟨rfl, rfl⟩
  | dlwr c v => exact ⟨Arch.sameButStaged_lineWrite h c v, rfl⟩
  | filt c x => exact Arch.sampleOp_sameButStaged h c x
  | smp x =>
    obtain ⟨hstate, hdata⟩ := Arch.sampleOp_sameButStaged h a.blkCh x
    exact ⟨Arch.sameButStaged_nextInBlock hstate, hdata⟩
  | blk n f =>
    refine ⟨?_, rfl⟩
    simp only [perform]
    split_ifs <;> rfl
  | rdst sel =>
    obtain ⟨h5, h6, h7⟩ := hview sel rfl
    exact ⟨rfl, congrArg (Option.getD · 0) (Arch.view_congr_of_sameButStaged h h5 h6 h7).symm⟩

end

/-- Settles O54: the checks and the bodies of the commands that are left do not read the staging registers. -/
theorem stagedValuesWaitForCons : Obligations.StagedValuesWaitForCons := by
  intro p a b w h hop h5 h6 h7
  have hact : a.blkActive = b.blkActive := (congrArg Arch.blkActive h :)
  have hcfg : a.configured = b.configured := (congrArg Arch.configured h :)
  cases hd : decode w with
  | error e =>
    rw [cfcStep_of_error hd, cfcStep_of_error hd, hact, hcfg]
    exact ⟨rfl, h⟩
  | ok i =>
    have hcons : ∀ k n, i ≠ .cons k n := by
      rintro k n rfl
      exact hop (op_of_decode hd).symm
    have hview : ∀ sel, i = .rdst sel → sel ≠ 5 ∧ sel ≠ 6 ∧ sel ≠ 7 := by
      rintro sel rfl
      rw [← encode_of_decode hd] at h5 h6 h7
      exact ⟨fun h => h5 (by rw [h]; rfl), fun h => h6 (by rw [h]; rfl), fun h => h7 (by rw [h]; rfl)⟩
    have hchecks := firstFailure_congr_of_sameButStaged (p := p) h hcons
    cases hf : firstFailure p a i with
    | some code =>
      rw [cfcStep_of_failure hd hf, cfcStep_of_failure hd (hchecks.trans hf), hact, hcfg]
      exact ⟨rfl, h⟩
    | none =>
      rw [cfcStep_of_pass hd hf, cfcStep_of_pass hd (hchecks.trans hf)]
      obtain ⟨hstate, hdata⟩ := perform_sameButStaged (p := p) h hcons hview
      have hact' : (perform p a i).1.blkActive = (perform p b i).1.blkActive := (congrArg Arch.blkActive hstate :)
      have hcfg' : (perform p a i).1.configured = (perform p b i).1.configured := (congrArg Arch.configured hstate :)
      exact ⟨by rw [hact', hcfg', hdata], hstate⟩

/-! ### Gain 0 -/

/-- With gain 0 a sample operation of either kind returns the input and writes it back. -/
theorem Arch.sampleOp_gain_zero {a : Arch} (h : a.gain = 0) (c : Channel) (x : Half) :
    a.sampleOp c x = (a.lineWrite c x, x) := by
  rw [Arch.sampleOp_eq, h, combValue_gain_zero, bits16_sval16]
  cases a.kind <;> rfl

/-- The two states differ in the kind only. -/
abbrev Arch.sameButKind (a b : Arch) : Prop := { a with kind := b.kind } = b

section
variable {p : Part} {a b : Arch} {i : Instr}

theorem Arch.sameButKind.exists_kind (h : a.sameButKind b) : ∃ k, b = { a with kind := k } := ⟨b.kind, h.symm⟩

theorem firstFailure_congr_of_sameButKind (h : a.sameButKind b) : firstFailure p b i = firstFailure p a i := by
  obtain ⟨k, rfl⟩ := h.exists_kind
  rfl

theorem Arch.sameButKind_lineWrite (h : a.sameButKind b) (c : Channel) (v : Half) :
    (a.lineWrite c v).sameButKind (b.lineWrite c v) := by
  obtain ⟨k, rfl⟩ := h.exists_kind
  simp only [Arch.lineWrite, Arch.adv_eq]
  rfl

theorem Arch.sameButKind_nextInBlock (h : a.sameButKind b) : a.nextInBlock.sameButKind b.nextInBlock := by
  obtain ⟨k, rfl⟩ := h.exists_kind
  unfold Arch.nextInBlock
  split_ifs <;> rfl

/-- The kind shows in view 0 only. -/
theorem Arch.view_congr_of_sameButKind (h : a.sameButKind b) {sel : BitVec 4} (hsel : sel ≠ 0) : b.view p sel = a.view p sel := by
  obtain ⟨k, rfl⟩ := h.exists_kind
  have hviews : ({ a with kind := k } : Arch).views p = (a.views p).set 0 (statusWord { a with kind := k }) := rfl
  rw [Arch.view_eq_views, Arch.view_eq_views, hviews, List.getElem?_set_ne (by bv_omega)]

/-- With gain 0 no body but that of RDST 0 reads the kind. -/
theorem perform_sameButKind (hgain : a.gain = 0) (h : a.sameButKind b) (hview : i ≠ .rdst 0) :
    (perform p a i).1.sameButKind (perform p b i).1 ∧ (perform p a i).2 = (perform p b i).2 := by
  have hgain' : b.gain = 0 := by obtain ⟨k, rfl⟩ := h.exists_kind; exact hgain
  have hch : a.blkCh = b.blkCh := (congrArg Arch.blkCh h :)
  cases i with
  | filt c x =>
    simp only [perform, Arch.sampleOp_gain_zero hgain, Arch.sampleOp_gain_zero hgain', and_true]
    exact Arch.sameButKind_lineWrite h c x
  | smp x =>
    simp only [perform, Arch.sampleOp_gain_zero hgain, Arch.sampleOp_gain_zero hgain', ← hch, and_true]
    exact Arch.sameButKind_nextInBlock (Arch.sameButKind_lineWrite h a.blkCh x)
  | dlwr c v => exact ⟨Arch.sameButKind_lineWrite h c v, rfl⟩
  | rdst sel =>
    have hsel : sel ≠ 0 := fun hzero => hview (congrArg Instr.rdst hzero)
    exact ⟨h, congrArg (Option.getD · 0) (Arch.view_congr_of_sameButKind h hsel).symm⟩
  | blk n f =>
    obtain ⟨k, rfl⟩ := h.exists_kind
    refine ⟨?_, rfl⟩
    simp only [perform]
    split_ifs <;> rfl
  | nop | setgl | setgh | setdly | cons | dstr | dlrd | rdcur =>
    obtain ⟨k, rfl⟩ := h.exists_kind
    exact ⟨rfl, rfl⟩

/-- A body that leaves another gain than it found is that of CONS or of DSTR, which set the kind as well. -/
theorem perform_gain_or_kind (hgain : a.gain = 0) :
    (perform p a i).1.kind = (perform p b i).1.kind ∨ (perform p a i).1.gain = 0 := by
  by_cases hconfig : mnemonicOf i ∉ ["CONS", "DSTR"]
  · obtain ⟨-, -, -, -, hsame⟩ := (perform_followsTable p a i).1 hconfig
    exact .inr (hsame.trans hgain)
  · cases i with
    | cons | dstr => exact .inl rfl
    | nop | setgl | setgh | setdly | blk | smp | filt | dlrd | dlwr | rdst | rdcur => exact absurd (by simp [mnemonicOf]) hconfig

/-- One step of two states that differ in the kind only, and in that only while the gain is 0: unless the word reads the kind, the
responses are the same, and the states differ so again. -/
theorem cfcStep_sameButKind {w : Word} (h : a.sameButKind b) (hsilent : a.kind = b.kind ∨ a.gain = 0) (hw : w ≠ 0xB0000000) :
    (cfcStep p a w).2 = (cfcStep p b w).2 ∧ (cfcStep p a w).1.sameButKind (cfcStep p b w).1 ∧
      ((cfcStep p a w).1.kind = (cfcStep p b w).1.kind ∨ (cfcStep p a w).1.gain = 0) := by
  rcases hsilent with hkind | hgain
  · obtain rfl : a = b := by rw [← h, ← hkind]
    exact ⟨rfl, rfl, .inl rfl⟩
  have hact : a.blkActive = b.blkActive := (congrArg Arch.blkActive h :)
  have hcfg : a.configured = b.configured := (congrArg Arch.configured h :)
  cases hd : decode w with
  | error e =>
    rw [cfcStep_of_error hd, cfcStep_of_error hd, hact, hcfg]
    exact ⟨rfl, h, .inr hgain⟩
  | ok i =>
    have hchecks : firstFailure p b i = firstFailure p a i := firstFailure_congr_of_sameButKind h
    cases hf : firstFailure p a i with
    | some code =>
      rw [cfcStep_of_failure hd hf, cfcStep_of_failure hd (hchecks.trans hf), hact, hcfg]
      exact ⟨rfl, h, .inr hgain⟩
    | none =>
      have hview : i ≠ .rdst 0 := by
        rintro rfl
        exact hw (encode_of_decode hd).symm
      rw [cfcStep_of_pass hd hf, cfcStep_of_pass hd (hchecks.trans hf)]
      obtain ⟨hstate, hdata⟩ := perform_sameButKind (p := p) hgain h hview
      have hact' : (perform p a i).1.blkActive = (perform p b i).1.blkActive := (congrArg Arch.blkActive hstate :)
      have hcfg' : (perform p a i).1.configured = (perform p b i).1.configured := (congrArg Arch.configured hstate :)
      exact ⟨by rw [hact', hcfg', hdata], hstate, perform_gain_or_kind hgain⟩

/-- Whole runs of such states answer alike. -/
theorem cfcRun_sameButKind {ws : List Word} (h : a.sameButKind b) (hsilent : a.kind = b.kind ∨ a.gain = 0)
    (hws : ∀ w ∈ ws, w ≠ 0xB0000000) : (cfcRun p a ws).2 = (cfcRun p b ws).2 := by
  induction ws generalizing a b with
  | nil => rfl
  | cons w ws ih =>
    obtain ⟨hw, hrest⟩ := List.forall_mem_cons.1 hws
    obtain ⟨hresponse, hstate, hsilent'⟩ := cfcStep_sameButKind (p := p) h hsilent hw
    rw [cfcRun_cons, cfcRun_cons, hresponse, ih hstate hsilent' hrest]

end

/-- Settles O39: with gain 0 both kinds write the input back, and the kind stays out of sight until a CONS or DSTR makes it equal. -/
theorem gainZeroPassesTheInput : Obligations.GainZeroPassesTheInput := by
  intro p a b ws hgain h
  exact ⟨fun c x => by simp only [Arch.sampleOp_gain_zero hgain, and_self], cfcRun_sameButKind h (.inr hgain)⟩

end Sys2Proof.Machine
end

section
/-! SUPPORT. One channel of the filter along a run: each word applies at most one operation to its delay line (40_delay_line.md R105),
and leaves the rest of the filter alone. -/

namespace Sys2Proof.Machine

/-! ### What a word applies to a channel -/

/-- The operation on a delay line of a command that has answered OK with DATA `y`. -/
def opOfCommand (y : Half) : Instr → Option LineOp
  | .dlwr _ v => some (.poke v)
  | .filt _ x => some (.sample x y)
  | .smp x => some (.sample x y)
  | .nop | .setgl _ | .setgh _ | .setdly _ | .cons _ _ | .dstr | .blk _ _ | .dlrd _ | .rdst _ | .rdcur _ => none

section
variable {p : Part} {a b : Arch} {w : Word} {i : Instr} {c : Channel}

theorem lineOp_of_error {e : DecodeError} (hd : decode w = .error e) : lineOp p c a w = none := by
  simp [lineOp, hd]

/-- A command that fails applies no operation (60_exceptions.md R201). -/
theorem lineOp_of_failure {code : Code} (hd : decode w = .ok i) (hf : firstFailure p a i = some code) :
    lineOp p c a w = none := by
  have hcode : responseCODE (cfcStep p a w).2 ≠ 0 := by
    rw [Ne, responseCODE_cfcStep_eq_zero_iff hd, hf]
    exact Option.some_ne_none code
  rw [lineOp, if_pos hcode]

/-- A command that passes applies its operation to the channel it uses. -/
theorem lineOp_of_pass (hd : decode w = .ok i) (hf : firstFailure p a i = none) :
    lineOp p c a w = if a.usedChannel i = some c then opOfCommand (perform p a i).2 i else none := by
  have hcode : ¬responseCODE (cfcStep p a w).2 ≠ 0 := not_not.2 ((responseCODE_cfcStep_eq_zero_iff hd).2 hf)
  have hdata : responseDATA (cfcStep p a w).2 = (perform p a i).2 := by rw [cfcStep_of_pass hd hf, responseDATA_responseWord]
  rw [lineOp, if_neg hcode, hd, hdata]
  cases i <;> simp [opOfCommand, Arch.usedChannel, channelOf]

/-- CONS and DSTR end the filter when they pass, and nothing else does (43_config_control.md R176, R178). -/
theorem endsFilter_eq_false_iff (hd : decode w = .ok i) (hf : firstFailure p a i = none) :
    endsFilter p a w = false ↔ mnemonicOf i ∉ ["CONS", "DSTR"] := by
  have hcode : responseCODE (cfcStep p a w).2 = 0 := (responseCODE_cfcStep_eq_zero_iff hd).2 hf
  rw [endsFilter, hd, hcode]
  cases i <;> simp [mnemonicOf]

/-! ### What a word leaves of the filter -/

/-- The configuration is the same in two states. -/
structure Arch.sameFilter (a b : Arch) : Prop where
  configured : a.configured = b.configured
  kind : a.kind = b.kind
  nch : a.nch = b.nch
  delay : a.delay = b.delay
  gain : a.gain = b.gain

theorem Arch.sameFilter.refl (a : Arch) : a.sameFilter a := ⟨rfl, rfl, rfl, rfl, rfl⟩

theorem Arch.sameFilter.symm (h : a.sameFilter b) : b.sameFilter a :=
  ⟨h.configured.symm, h.kind.symm, h.nch.symm, h.delay.symm, h.gain.symm⟩

theorem Arch.sameFilter.trans {d : Arch} (h : a.sameFilter b) (h' : b.sameFilter d) : a.sameFilter d :=
  ⟨h.configured.trans h'.configured, h.kind.trans h'.kind, h.nch.trans h'.nch, h.delay.trans h'.delay, h.gain.trans h'.gain⟩

theorem Arch.sameFilter_lineWrite (c : Channel) (v : Half) (a : Arch) : a.sameFilter (a.lineWrite c v) := by
  constructor <;> simp

/-- A word that does not end the filter leaves its configuration (10_state.md R38). -/
theorem cfcStep_sameFilter (hkeep : endsFilter p a w = false) : a.sameFilter (cfcStep p a w).1 := by
  cases hd : decode w with
  | error e => rw [cfcStep_of_error hd]; exact .refl a
  | ok i =>
    cases hf : firstFailure p a i with
    | some code => rw [cfcStep_of_failure hd hf]; exact .refl a
    | none =>
      have hconfig := (endsFilter_eq_false_iff hd hf).1 hkeep
      rw [cfcStep_of_pass hd hf]
      obtain ⟨hcfg, hkind, hnch, hdelay, hgain⟩ := (perform_followsTable p a i).1 hconfig
      exact ⟨hcfg.symm, hkind.symm, hnch.symm, hdelay.symm, hgain.symm⟩

/-- The state with an operation applied to a channel's delay line. -/
def Arch.applyOp (c : Channel) (op : Option LineOp) (a : Arch) : Arch :=
  match op with
  | none => a
  | some op => a.lineWrite c (op.written a.kind)

/-- What a sample operation writes back is what the claims say it writes. -/
theorem Arch.sampleOp_fst_eq_lineWrite (c : Channel) (x : Half) (a : Arch) :
    (a.sampleOp c x).1 = a.lineWrite c (LineOp.written a.kind (.sample x (a.sampleOp c x).2)) := by
  rw [Arch.sampleOp_fst, Arch.writtenBack_eq]
  cases a.kind <;> rfl

theorem Arch.sameLine.refl (c : Channel) (a : Arch) : a.sameLine c a := ⟨rfl, fun _ => rfl⟩

theorem Arch.sameLine.symm (h : a.sameLine c b) : b.sameLine c a := ⟨h.1.symm, fun i => (h.2 i).symm⟩

theorem Arch.sameLine.trans {d : Arch} (h : a.sameLine c b) (h' : b.sameLine c d) : a.sameLine c d :=
  ⟨h.1.trans h'.1, fun i => (h.2 i).trans (h'.2 i)⟩

theorem Arch.nextInBlock_sameLine (c : Channel) (a : Arch) : a.nextInBlock.sameLine c a := by
  simp [Arch.sameLine, Arch.cursor, Arch.dlRead]

/-- A channel's delay line after a command that passes is the line with the command's operation applied. -/
theorem perform_sameLine (ha : a.inv p) (hcons : ∀ k n, i ≠ .cons k n) :
    (perform p a i).1.sameLine c
      (a.applyOp c (if a.usedChannel i = some c then opOfCommand (perform p a i).2 i else none)) := by
  split_ifs with hused
  · have hsample (x) : (a.sampleOp c x).1.sameLine c (a.applyOp c (some (.sample x (a.sampleOp c x).2))) := by
      rw [Arch.sampleOp_fst_eq_lineWrite]
      exact .refl c _
    cases i with
    | dlwr c' v =>
      obtain rfl : c' = c := Option.some.inj hused
      exact .refl _ _
    | filt c' x =>
      obtain rfl : c' = c := Option.some.inj hused
      exact hsample x
    | smp x =>
      obtain rfl : a.blkCh = c := Option.some.inj hused
      exact (Arch.nextInBlock_sameLine _ _).trans (hsample x)
    | dlrd | rdcur => exact .refl _ _
    | nop | setgl | setgh | setdly | cons | dstr | blk | rdst => cases hused
  · have hother := perform_sameSlots_other (P := fun _ => True) (p := p) hcons ha.memory_wf hused
    exact ((Arch.sameLine_iff c a _).2 hother).symm

/-- A channel's delay line after a word that does not end the filter is the line with the word's operation applied. -/
theorem cfcStep_sameLine_applyOp (ha : a.inv p) (hkeep : endsFilter p a w = false) (c : Channel) :
    (cfcStep p a w).1.sameLine c (a.applyOp c (lineOp p c a w)) := by
  cases hd : decode w with
  | error e => rw [cfcStep_of_error hd, lineOp_of_error hd]; exact .refl c a
  | ok i =>
    cases hf : firstFailure p a i with
    | some code => rw [cfcStep_of_failure hd hf, lineOp_of_failure hd hf]; exact .refl c a
    | none =>
      have hcons : ∀ k n, i ≠ .cons k n := by
        rintro k n rfl
        exact absurd ((endsFilter_eq_false_iff hd hf).1 hkeep) (by simp [mnemonicOf])
      rw [cfcStep_of_pass hd hf, lineOp_of_pass hd hf]
      exact perform_sameLine ha hcons

/-- The output of a sample operation that a word applies. -/
theorem output_of_lineOp_eq_sample {x y : Half} (h : lineOp p c a w = some (.sample x y)) : y = (a.sampleOp c x).2 := by
  cases hd : decode w with
  | error e => rw [lineOp_of_error hd] at h; cases h
  | ok i =>
    cases hf : firstFailure p a i with
    | some code => rw [lineOp_of_failure hd hf] at h; cases h
    | none =>
      rw [lineOp_of_pass hd hf] at h
      split_ifs at h with hused
      cases i with
      | filt c' x' =>
        obtain rfl : c' = c := Option.some.inj hused
        cases h
        rfl
      | smp x' =>
        obtain rfl : a.blkCh = c := Option.some.inj hused
        cases h
        rfl
      | nop | setgl | setgh | setdly | cons | dstr | blk | dlrd | dlwr | rdst | rdcur => cases h

/-- Only a channel of the filter gets an operation. -/
theorem lt_nch_of_lineOp_eq_some {op : LineOp} (ha : a.inv p) (h : lineOp p c a w = some op) :
    a.configured = true ∧ c.toNat < a.nch.toNat := by
  cases hd : decode w with
  | error e => rw [lineOp_of_error hd] at h; cases h
  | ok i =>
    cases hf : firstFailure p a i with
    | some code => rw [lineOp_of_failure hd hf] at h; cases h
    | none =>
      rw [lineOp_of_pass hd hf] at h
      split_ifs at h with hused
      exact Arch.usedChannel_lt ha hf hused

end

/-! ### What the line holds -/

/-- The write that stands `d` writes before the next one, or 0 if there is none. -/
def delayedWrite (d : Nat) (writes : List Half) : Half :=
  if d ≤ writes.length then writes.getD (writes.length - d) 0 else 0

/-- A delay line to which these values have been written since CONS (40_delay_line.md R106). -/
def Arch.holds (c : Channel) (writes : List Half) (a : Arch) : Prop :=
  (∀ j, j < writes.length → writes.length ≤ j + a.delay.toNat →
      a.dl.read (slotAddr c.toNat (j % a.delay.toNat)) = writes.getD j 0) ∧
    (∀ i, i < a.delay.toNat → writes.length ≤ i → a.dl.read (slotAddr c.toNat i) = 0) ∧
    (a.cursor c).toNat = writes.length % a.delay.toNat

section
variable {p : Part} {a b : Arch} {c : Channel} {writes : List Half}

theorem Arch.sameLine.read_slot (h : a.sameLine c b) {i : Nat} (hi : i < 65536) :
    a.dl.read (slotAddr c.toNat i) = b.dl.read (slotAddr c.toNat i) := by
  have hslot : (BitVec.ofNat 16 i).toNat = i := Nat.mod_eq_of_lt hi
  have hread := h.2 (BitVec.ofNat 16 i)
  rwa [Arch.dlRead, Arch.dlRead, hslot] at hread

/-- What a line holds depends on its slots, its cursor and DELAY only. -/
theorem Arch.holds.congr (h : a.holds c writes) (hdelay : a.delay = b.delay) (hline : a.sameLine c b) : b.holds c writes := by
  have hwidth := b.delay.isLt
  obtain ⟨hwritten, hfresh, hcursor⟩ := h
  rw [hdelay] at hwritten hfresh hcursor
  refine ⟨fun j hj hlate => ?_, fun i hi hnew => ?_, ?_⟩
  · have hslot : j % b.delay.toNat < b.delay.toNat := Nat.mod_lt _ (by omega)
    rw [← hline.read_slot (hslot.trans hwidth)]
    exact hwritten j hj hlate
  · rw [← hline.read_slot (hi.trans hwidth)]
    exact hfresh i hi hnew
  · rw [← hline.1, hcursor]

/-- The tap is the write DELAY writes earlier (40_delay_line.md R107). -/
theorem Arch.holds.tap_eq (h : a.holds c writes) (hd : 0 < a.delay.toNat) : a.tap c = delayedWrite a.delay.toNat writes := by
  obtain ⟨hwritten, hfresh, hcursor⟩ := h
  rw [Arch.tap, Arch.dlRead, hcursor, delayedWrite]
  split_ifs with hlong
  · have hread := hwritten (writes.length - a.delay.toNat) (by omega) (by omega)
    rwa [← Nat.mod_eq_sub_mod hlong] at hread
  · rw [Nat.mod_eq_of_lt (by omega)]
    exact hfresh _ (by omega) (by omega)

/-- Two of any DELAY writes in a row go to different slots. -/
theorem mod_ne_of_lt {d j k : Nat} (hjk : j < k) (hkj : k < j + d) : j % d ≠ k % d := by
  intro heq
  have hdvd : d ∣ k - j := (Nat.modEq_iff_dvd' hjk.le).1 heq
  exact absurd (Nat.le_of_dvd (by omega) hdvd) (by omega)

/-- A line write adds its value to what the line holds. -/
theorem Arch.holds.lineWrite (h : a.holds c writes) (hmem : a.dl.wf = true ∧ a.cur.wf = true) (hd : 0 < a.delay.toNat)
    (v : Half) : (a.lineWrite c v).holds c (writes ++ [v]) := by
  obtain ⟨hdl, hcur⟩ := hmem
  obtain ⟨hwritten, hfresh, hcursor⟩ := h
  have hother {i : Nat} (hi : i ≠ writes.length % a.delay.toNat) :
      (a.lineWrite c v).dl.read (slotAddr c.toNat i) = a.dl.read (slotAddr c.toNat i) := by
    rw [Arch.lineWrite_dl, hcursor]
    exact Memory.read_write_other _ (by unfold slotAddr; omega) v
  simp only [Arch.holds, Arch.lineWrite_delay, List.length_append, List.length_singleton]
  refine ⟨fun j hj hlate => ?_, fun i hi hnew => ?_, ?_⟩
  · rcases Nat.lt_succ_iff_lt_or_eq.1 hj with hlt | rfl
    · rw [hother (mod_ne_of_lt hlt (by omega)), hwritten j hlt (by omega), List.getD_append _ _ _ _ hlt]
    · rw [Arch.lineWrite_dl, hcursor, Memory.read_write_same hdl]
      simp
  · have hslot : writes.length % a.delay.toNat = writes.length := Nat.mod_eq_of_lt (by omega)
    rw [hother (by omega), hfresh i hi (by omega)]
  · have hbefore : (a.cursor c).toNat < a.delay.toNat := hcursor ▸ Nat.mod_lt _ hd
    rw [Arch.cursor_lineWrite hcur, if_pos rfl, Arch.nextCursor_toNat hbefore, hcursor, Nat.mod_add_mod]

theorem Arch.inv.delay_pos (h : a.inv p) (hcfg : a.configured = true) : 0 < a.delay.toNat := by
  obtain ⟨⟨hshape, -⟩, -⟩ := h
  exact (hshape hcfg).1

/-! ### Along a run -/

section
variable {w : Word} {ws : List Word}

theorem keepsFilter_cons : keepsFilter p a (w :: ws) = true ↔
    endsFilter p a w = false ∧ keepsFilter p (cfcStep p a w).1 ws = true := by
  simp [keepsFilter]

/-- A word that does not end the filter adds what it writes to what the line holds. -/
theorem Arch.holds.cfcStep (h : a.holds c writes) (ha : a.inv p) (hkeep : endsFilter p a w = false) :
    (cfcStep p a w).1.holds c (writes ++ (lineOp p c a w).toList.map (LineOp.written a.kind)) := by
  have hline := cfcStep_sameLine_applyOp ha hkeep c
  have hdelay := (cfcStep_sameFilter hkeep).delay
  cases hop : lineOp p c a w with
  | none =>
    rw [hop] at hline
    simpa using h.congr hdelay hline.symm
  | some op =>
    rw [hop] at hline
    obtain ⟨hcfg, -⟩ := lt_nch_of_lineOp_eq_some ha hop
    exact (h.lineWrite ha.memory_wf (ha.delay_pos hcfg) _).congr ((Arch.lineWrite_delay c _ a).trans hdelay) hline.symm

/-- A run keeps the invariant. -/
theorem cfcRun_keeps_inv (hp : p.ok = true) (ha : a.inv p) (ws : List Word) : (cfcRun p a ws).1.inv p := by
  induction ws generalizing a with
  | nil => exact ha
  | cons w ws ih => exact ih (cfcStep_keeps_inv hp ha w)

/-- A run that keeps the filter leaves its configuration. -/
theorem cfcRun_sameFilter (hkeep : keepsFilter p a ws = true) : a.sameFilter (cfcRun p a ws).1 := by
  induction ws generalizing a with
  | nil => exact .refl a
  | cons w ws ih =>
    obtain ⟨hw, hws⟩ := keepsFilter_cons.1 hkeep
    exact (cfcStep_sameFilter hw).trans (ih hws)

/-- A run that keeps the filter adds all that it writes to what the line holds. -/
theorem Arch.holds.cfcRun (h : a.holds c writes) (hp : p.ok = true) (ha : a.inv p) (hkeep : keepsFilter p a ws = true) :
    (cfcRun p a ws).1.holds c (writes ++ (lineOps p c a ws).map (LineOp.written a.kind)) := by
  induction ws generalizing a writes with
  | nil => simpa using h
  | cons w ws ih =>
    obtain ⟨hw, hws⟩ := keepsFilter_cons.1 hkeep
    have hrest := ih (h.cfcStep ha hw) (cfcStep_keeps_inv hp ha w) hws
    rw [← (cfcStep_sameFilter hw).kind] at hrest
    simpa using hrest

/-- Each sample operation of a run that keeps the filter gives the output of its input and of the write DELAY writes earlier
(41_comb_filter.md R129). -/
theorem Arch.holds.outputs (h : a.holds c writes) (hp : p.ok = true) (ha : a.inv p) (hkeep : keepsFilter p a ws = true)
    {m : Nat} {x y : Half} (hm : (lineOps p c a ws)[m]? = some (.sample x y)) :
    y.toInt = outputOf a.gain
      (delayedWrite a.delay.toNat (writes ++ ((lineOps p c a ws).take m).map (LineOp.written a.kind))) x := by
  induction ws generalizing a writes m with
  | nil => simp at hm
  | cons w ws ih =>
    obtain ⟨hw, hws⟩ := keepsFilter_cons.1 hkeep
    have hfilter := cfcStep_sameFilter hw
    have hrest := fun m => ih (m := m) (h.cfcStep ha hw) (cfcStep_keeps_inv hp ha w) hws
    rw [← hfilter.kind, ← hfilter.gain, ← hfilter.delay] at hrest
    cases hop : lineOp p c a w with
    | none => simpa [hop] using hrest m (by simpa [hop] using hm)
    | some op =>
      cases m with
      | zero =>
        obtain rfl : op = .sample x y := by simpa [hop] using hm
        obtain ⟨hcfg, -⟩ := lt_nch_of_lineOp_eq_some ha hop
        rw [output_of_lineOp_eq_sample hop, Arch.sampleOp_output_toInt, h.tap_eq (ha.delay_pos hcfg)]
        simp
      | succ m => simpa [hop] using hrest m (by simpa [hop] using hm)

end

end

end Sys2Proof.Machine
end

section
/-! SUPPORT. A run after CONS that keeps the filter: what its delay lines hold (40_delay_line.md R105 to R107), and the recurrences that
its outputs follow (41_comb_filter.md R129 to R134). -/

namespace Sys2Proof.Machine

section
variable {p : Part} {a b : Arch} {k : Kind} {n : Half} {ws : List Word} {c : Channel}

/-! ### The filter that CONS leaves -/

/-- A successful CONS leaves the filter of its operands and the staged values, with nothing written to its lines. -/
structure Arch.isFresh (p : Part) (k : Kind) (n : Half) (b : Arch) : Prop where
  inv : b.inv p
  configured : b.configured = true
  kind : b.kind = k
  nch : b.nch.toNat = n.toNat
  holds : ∀ {c : Channel}, c.toNat < n.toNat → b.holds c []

theorem isFresh_of_cons (hp : p.ok = true) (ha : a.inv p) (hok : responseCODE (cfcStep p a (encode (.cons k n))).2 = 0) :
    (cfcStep p a (encode (.cons k n))).1.isFresh p k n ∧ (cfcStep p a (encode (.cons k n))).1.gain = a.sgain := by
  have hf := (responseCODE_cfcStep_eq_zero_iff (decode_encode_cons k n)).1 hok
  obtain ⟨-, -, -, hnmax⟩ := (firstFailure_cons_eq_none_iff k).1 hf
  have hinv := cfcStep_keeps_inv hp ha (encode (.cons k n))
  rw [cfcStep_cons_of_pass hf] at hinv ⊢
  refine ⟨⟨hinv, rfl, rfl, Arch.construct_nch_toNat hnmax k, fun hc => ⟨fun j hj => absurd hj (Nat.not_lt_zero j),
    fun i hi _ => Arch.construct_dl_read_slot hc hi k, ?_⟩⟩, rfl⟩
  rw [Arch.cursor, Arch.construct_cur_read hc k, List.length_nil, Nat.zero_mod]
  rfl

/-- After a run that keeps the fresh filter, its lines hold what the run has written. -/
theorem Arch.isFresh.holds_cfcRun (h : b.isFresh p k n) (hp : p.ok = true) (hkeep : keepsFilter p b ws = true)
    (hc : c.toNat < n.toNat) : (cfcRun p b ws).1.holds c ((lineOps p c b ws).map (LineOp.written k)) := by
  simpa [h.kind] using (h.holds hc).cfcRun hp h.inv hkeep

/-- Each output of a run that keeps the fresh filter is that of its input and of the write DELAY writes earlier in the run. -/
theorem Arch.isFresh.outputs (h : b.isFresh p k n) (hp : p.ok = true) (hkeep : keepsFilter p b ws = true)
    (hc : c.toNat < n.toNat) {m : Nat} {x y : Half} (hm : (lineOps p c b ws)[m]? = some (.sample x y)) :
    y.toInt = outputOf b.gain (delayedWrite b.delay.toNat (((lineOps p c b ws).map (LineOp.written k)).take m)) x := by
  simpa [h.kind, List.map_take] using (h.holds hc).outputs hp h.inv hkeep hm

/-- DLRD on a channel of a filter returns its tap. -/
theorem cfcStep_dlrd (hcfg : b.configured = true) (hc : c.toNat < b.nch.toNat) :
    cfcStep p b (encode (.dlrd c)) = (b, responseWord 0x9 .ok b.blkActive b.configured (b.tap c)) :=
  cfcStep_of_pass (decode_encode rfl) (by simp [hcfg, hc])

end

/-- Settles O30: the lines of the fresh filter hold nothing, and each word adds what it writes. -/
theorem delayLineHoldsTheLatestWrites : Obligations.DelayLineHoldsTheLatestWrites := by
  rintro p a b k n ws c hp ha hok rfl hkeep hc writes d
  obtain ⟨hfresh, -⟩ := isFresh_of_cons hp ha hok
  have hdelay : d.delay = (cfcStep p a (encode (.cons k n))).1.delay := (cfcRun_sameFilter hkeep).delay.symm
  rw [← hdelay]
  exact hfresh.holds_cfcRun hp hkeep hc

/-- Settles O29: the tap is read in what the line holds, and DLRD returns it. -/
theorem tapIsTheWriteDelayWritesEarlier : Obligations.TapIsTheWriteDelayWritesEarlier := by
  rintro p a b k n ws c hp ha hok rfl hkeep hc writes d
  obtain ⟨hfresh, -⟩ := isFresh_of_cons hp ha hok
  have hfilter := cfcRun_sameFilter hkeep
  have hcfg : d.configured = true := hfilter.configured.symm.trans hfresh.configured
  have hch : c.toNat < d.nch.toNat := by rwa [← hfilter.nch, hfresh.nch]
  have hdelay : 0 < d.delay.toNat := (cfcRun_keeps_inv hp hfresh.inv ws).delay_pos hcfg
  refine ⟨?_, ?_⟩
  · rw [(hfresh.holds_cfcRun hp hkeep hc).tap_eq hdelay, ← hfilter.delay]
    rfl
  · rw [cfcStep_dlrd hcfg hch]
    exact ⟨responseCODE_responseWord _ _ _ _ _, responseDATA_responseWord _ _ _ _ _⟩

/-! ### The recurrences -/

section
variable {ops : List LineOp} {xs : List Half}

theorem sampleInputs_cons_sample {x y : Half} :
    sampleInputs (.sample x y :: ops) = some xs ↔ ∃ xs', sampleInputs ops = some xs' ∧ xs = x :: xs' := by
  simp [sampleInputs, eq_comm]

/-- Operations that are all sample operations are the pairs of their inputs and outputs. -/
theorem eq_zipWith_of_sampleInputs (h : sampleInputs ops = some xs) :
    (sampleOutputs ops).length = xs.length ∧ ops = List.zipWith .sample xs (sampleOutputs ops) := by
  induction ops generalizing xs with
  | nil =>
    obtain rfl : [] = xs := Option.some.inj h
    exact ⟨rfl, rfl⟩
  | cons op ops ih =>
    cases op with
    | poke v => cases h
    | sample x y =>
      obtain ⟨xs', hxs', rfl⟩ := sampleInputs_cons_sample.1 h
      obtain ⟨hlength, hops⟩ := ih hxs'
      exact ⟨congrArg Nat.succ hlength, congrArg (LineOp.sample x y :: ·) hops⟩

/-- FIR writes its inputs, IIR its outputs. -/
theorem written_of_sampleInputs (h : sampleInputs ops = some xs) (k : Kind) :
    ops.map (LineOp.written k) = if k = .fir then xs else sampleOutputs ops := by
  induction ops generalizing xs with
  | nil =>
    obtain rfl : [] = xs := Option.some.inj h
    simp [sampleOutputs]
  | cons op ops ih =>
    cases op with
    | poke v => cases h
    | sample x y =>
      obtain ⟨xs', hxs', rfl⟩ := sampleInputs_cons_sample.1 h
      cases k <;> simpa [LineOp.written, sampleOutputs] using ih hxs'

/-- The m-th sample operation is the m-th input with the m-th output. -/
theorem getElem?_of_sampleInputs (h : sampleInputs ops = some xs) {m : Nat} (hm : m < xs.length) :
    ops[m]? = some (.sample (xs.getD m 0) ((sampleOutputs ops).getD m 0)) := by
  obtain ⟨hlength, hops⟩ := eq_zipWith_of_sampleInputs h
  conv_lhs => rw [hops]
  rw [List.getElem?_zipWith, List.getElem?_eq_getElem hm, List.getElem?_eq_getElem (hlength ▸ hm), List.getD_eq_getElem _ _ hm,
    List.getD_eq_getElem _ _ (hlength ▸ hm)]

theorem delayedWrite_take {d m : Nat} (hd : 0 < d) {writes : List Half} (hm : m ≤ writes.length) :
    delayedWrite d (writes.take m) = if d ≤ m then writes.getD (m - d) 0 else 0 := by
  rw [delayedWrite, List.length_take, Nat.min_eq_left hm]
  split_ifs with hdm
  · rw [List.getD_eq_getElem?_getD, List.getD_eq_getElem?_getD, List.getElem?_take_of_lt (by omega)]
  · rfl

end

/-- Settles O36: the operations of the run are sample operations, whose taps are the writes DELAY writes earlier, and the writes are
the inputs or the outputs. -/
theorem outputsFollowTheRecurrence : Obligations.OutputsFollowTheRecurrence := by
  rintro p a b k n ws c xs hp ha hok rfl hkeep hc hxs ys past
  obtain ⟨hfresh, -⟩ := isFresh_of_cons hp ha hok
  obtain ⟨hlength, -⟩ := eq_zipWith_of_sampleInputs hxs
  refine ⟨hlength, fun m hm => ?_⟩
  have hpast : past.length = xs.length := by
    unfold past
    split_ifs
    · rfl
    · exact hlength
  rw [hfresh.outputs hp hkeep hc (getElem?_of_sampleInputs hxs hm), written_of_sampleInputs hxs k,
    delayedWrite_take (hfresh.inv.delay_pos hfresh.configured) (hpast ▸ hm.le)]

/-- Settles O37: the tap is the input DELAY inputs earlier, which cancels the input, or the 0 of the fresh line. -/
theorem firCancelsPeriodicInput : Obligations.FirCancelsPeriodicInput := by
  intro p a b n ws c xs hp ha hgain hok hb hkeep hc hxs hperiod m hm
  obtain ⟨-, hrecurrence⟩ := outputsFollowTheRecurrence p a b .fir n ws c xs hp ha hok hb hkeep hc hxs
  have hgain' : b.gain = 0xFFFF0000 := by rw [hb, (isFresh_of_cons hp ha hok).2, hgain]
  have houtput := hrecurrence m hm
  rw [if_pos rfl, hgain', ← combValue_eq_outputOf] at houtput
  apply BitVec.eq_of_toInt_eq
  rw [houtput]
  by_cases hlate : b.delay.toNat ≤ m
  · rw [if_pos hlate, if_neg (by omega), ← hperiod m hlate hm, combValue_gain_neg_one_self]
    rfl
  · rw [if_neg hlate, if_pos (by omega), combValue_tap_zero]
    rfl

/-! ### Silence -/

section
variable {p : Part} {b : Arch} {k : Kind} {n : Half} {ws : List Word} {c : Channel}

/-- An operation with input 0, or the DLWR of 0. -/
def LineOp.isSilent (op : LineOp) : Prop := op = .poke 0 ∨ ∃ y, op = .sample 0 y

theorem getD_of_zeros {l : List Half} (h : ∀ v ∈ l, v = 0) (j : Nat) : l.getD j 0 = 0 := by
  rcases Nat.lt_or_ge j l.length with hj | hj
  · rw [List.getD_eq_getElem _ _ hj]
    exact h _ (List.getElem_mem hj)
  · exact List.getD_eq_default _ _ hj

theorem delayedWrite_of_zeros {d : Nat} {writes : List Half} (h : ∀ v ∈ writes, v = 0) : delayedWrite d writes = 0 := by
  rw [delayedWrite, getD_of_zeros h, ite_self]

/-- A line to which only 0 has been written holds 0 everywhere. -/
theorem Arch.holds.read_of_zeros {writes : List Half} (h : b.holds c writes) (hzeros : ∀ v ∈ writes, v = 0) {i : Nat}
    (hi : i < b.delay.toNat) : b.dl.read (slotAddr c.toNat i) = 0 := by
  obtain ⟨hwritten, hfresh, -⟩ := h
  rcases Nat.lt_or_ge i writes.length with hold | hnew
  · -- the write that slot `i` holds stands `(length - 1 - i) % DELAY` before the last one
    have hback : (writes.length - 1 - i) % b.delay.toNat < b.delay.toNat := Nat.mod_lt _ (by omega)
    have hdiv := Nat.mod_add_div (writes.length - 1 - i) b.delay.toNat
    have hlatest : writes.length - 1 - (writes.length - 1 - i) % b.delay.toNat =
        i + b.delay.toNat * ((writes.length - 1 - i) / b.delay.toNat) := by omega
    have hslot : (writes.length - 1 - (writes.length - 1 - i) % b.delay.toNat) % b.delay.toNat = i := by
      rw [hlatest, Nat.add_mul_mod_self_left, Nat.mod_eq_of_lt hi]
    have hread := hwritten (writes.length - 1 - (writes.length - 1 - i) % b.delay.toNat) (by omega) (by omega)
    rwa [hslot, getD_of_zeros hzeros] at hread
  · exact hfresh i hi hnew

/-- On a fresh filter silent operations have output 0 and write 0: each has input 0, and a tap that is 0 too. -/
theorem Arch.isFresh.silent (h : b.isFresh p k n) (hp : p.ok = true) (hkeep : keepsFilter p b ws = true)
    (hc : c.toNat < n.toNat) (hsilent : ∀ op ∈ lineOps p c b ws, op.isSilent) (m : Nat) :
    ∀ op ∈ (lineOps p c b ws).take m, op = .poke 0 ∨ op = .sample 0 0 := by
  induction m with
  | zero => simp
  | succ m ih =>
    intro op hop
    rw [List.take_add_one, List.mem_append] at hop
    rcases hop with hbefore | hlast
    · exact ih op hbefore
    have hm : (lineOps p c b ws)[m]? = some op := by simpa using hlast
    rcases hsilent op (List.mem_of_getElem? hm) with rfl | ⟨y, rfl⟩
    · exact .inl rfl
    · have hzeros : ∀ v ∈ ((lineOps p c b ws).map (LineOp.written k)).take m, v = 0 := by
        rw [← List.map_take, List.forall_mem_map]
        intro op hop
        rcases ih op hop with rfl | rfl
        · rfl
        · cases k <;> rfl
      have houtput := h.outputs hp hkeep hc hm
      rw [delayedWrite_of_zeros hzeros, ← combValue_eq_outputOf, combValue_tap_zero] at houtput
      exact .inr (congrArg _ (BitVec.eq_of_toInt_eq houtput))

theorem exists_sample_of_mem_sampleOutputs {ops : List LineOp} {y : Half} (h : y ∈ sampleOutputs ops) :
    ∃ x, .sample x y ∈ ops := by
  induction ops with
  | nil => cases h
  | cons op ops ih =>
    cases op with
    | poke v =>
      obtain ⟨x, hx⟩ := ih h
      exact ⟨x, List.mem_cons_of_mem _ hx⟩
    | sample x' y' =>
      rcases List.mem_cons.1 h with rfl | hrest
      · exact ⟨x', List.mem_cons_self⟩
      · obtain ⟨x, hx⟩ := ih hrest
        exact ⟨x, List.mem_cons_of_mem _ hx⟩

end

/-- Settles O38: the operations of the run all write 0, so that the lines hold 0 throughout. -/
theorem zeroInputGivesZeroOutput : Obligations.ZeroInputGivesZeroOutput := by
  rintro p a b k n ws c hp ha hok rfl hkeep hc hsilent
  obtain ⟨hfresh, -⟩ := isFresh_of_cons hp ha hok
  have hops : ∀ op ∈ lineOps p c _ ws, op = .poke 0 ∨ op = .sample 0 0 := fun op hop =>
    hfresh.silent hp hkeep hc hsilent _ op ((List.take_length (l := lineOps p c _ ws)).symm ▸ hop)
  have hdelay := (cfcRun_sameFilter hkeep).delay
  refine ⟨fun y hy => ?_, fun i hi => (hfresh.holds_cfcRun hp hkeep hc).read_of_zeros ?_ (hdelay ▸ hi)⟩
  · obtain ⟨x, hx⟩ := exists_sample_of_mem_sampleOutputs hy
    rcases hops _ hx with hpoke | hsample
    · cases hpoke
    · exact (LineOp.sample.inj hsample).2
  · rw [List.forall_mem_map]
    intro op hop
    rcases hops op hop with rfl | rfl
    · rfl
    · cases k <;> rfl

end Sys2Proof.Machine
end

section
/-! SUPPORT. The block sequencer along a run (42_block_driver.md section 2): a block of `f` frames on `n` channels takes its samples
channel by channel, and closes with the last of them. -/

namespace Sys2Proof.Machine

/-- The sequencer after `k` samples of a block of `f` frames on `n` channels (R150, R153). -/
structure Arch.inBlockAt (n : Nat) (f : Half) (k : Nat) (a : Arch) : Prop where
  nch : a.nch.toNat = n
  open_of_lt : k < n * f.toNat →
    a.blkActive = true ∧ a.blkCh.toNat = k / f.toNat ∧ a.blkFrame.toNat = k % f.toNat ∧ a.blkFrames = f
  closed_of_eq : k = n * f.toNat → a.blkActive = false

section
variable {p : Part} {a b : Arch} {n : Nat} {f : Half} {k : Nat} {w : Word} {i : Instr}

/-- Quotient and remainder of the next number, when the remainder does not wrap. -/
theorem div_mod_succ_of_lt {k f : Nat} (h : k % f + 1 < f) : (k + 1) / f = k / f ∧ (k + 1) % f = k % f + 1 := by
  have hk := Nat.div_add_mod k f
  exact (Nat.div_mod_unique (by omega)).2 ⟨by omega, h⟩

/-- Quotient and remainder of the next number, when the remainder wraps. -/
theorem div_mod_succ_of_eq {k f : Nat} (h : k % f + 1 = f) : (k + 1) / f = k / f + 1 ∧ (k + 1) % f = 0 := by
  have hk := Nat.div_add_mod k f
  exact (Nat.div_mod_unique (by omega)).2 ⟨by rw [Nat.mul_add]; omega, by omega⟩

/-- One sample moves the sequencer on by one. -/
theorem Arch.inBlockAt.nextInBlock (h : a.inBlockAt n f k) (hn : n ≤ 16) (hk : k < n * f.toNat) :
    a.nextInBlock.inBlockAt n f (k + 1) := by
  obtain ⟨hact, hch, hframe, hframes⟩ := h.open_of_lt hk
  have hnch := h.nch
  have hf : 0 < f.toNat := Nat.pos_of_ne_zero fun h0 => by simp [h0] at hk
  have hmod := Nat.mod_lt k hf
  have hdiv := Nat.div_add_mod k f.toNat
  have hch_lt : k / f.toNat < n := Nat.div_lt_of_lt_mul (by rwa [Nat.mul_comm])
  rcases Nat.lt_or_eq_of_le (Nat.succ_le_of_lt hmod) with hsame | hlast
  · obtain ⟨hdiv', hmod'⟩ := div_mod_succ_of_lt hsame
    rw [Arch.nextInBlock_of_lt (by rw [hframe, hframes]; exact hsame)]
    refine ⟨hnch, fun _ => ⟨hact, hdiv' ▸ hch, ?_, hframes⟩, fun heq => ?_⟩
    · rw [hmod', ← hframe]
      bv_omega
    · rw [heq, Nat.mul_mod_left] at hmod'
      omega
  · obtain ⟨hdiv', hmod'⟩ := div_mod_succ_of_eq hlast
    have hnext : k + 1 = (k / f.toNat + 1) * f.toNat := by rw [Nat.add_mul, Nat.mul_comm]; omega
    have hframe' : a.blkFrame.toNat + 1 = a.blkFrames.toNat := by rw [hframe, hframes]; exact hlast
    rcases Nat.lt_or_eq_of_le (Nat.succ_le_of_lt hch_lt) with hmore | hdone
    · rw [Arch.nextInBlock_of_last_frame hframe' (by rw [hch, hnch]; exact hmore)]
      refine ⟨hnch, fun _ => ⟨hact, ?_, hmod'.symm ▸ rfl, hframes⟩, fun heq => ?_⟩
      · rw [hdiv', ← hch]
        bv_omega
      · exact absurd (Nat.eq_of_mul_eq_mul_right hf (hnext.symm.trans heq)) (Nat.ne_of_lt hmore)
    · rw [Arch.nextInBlock_of_last hframe' (by rw [hch, hnch]; exact hdone)]
      exact ⟨hnch, fun hlt => absurd (hnext.trans (congrArg (· * f.toNat) hdone)) (Nat.ne_of_lt hlt), fun _ => rfl⟩

/-- The position of the sequencer is in its registers and NCH only. -/
theorem Arch.inBlockAt.congr (h : a.inBlockAt n f k) (hnch : b.nch = a.nch) (hact : b.blkActive = a.blkActive)
    (hch : b.blkCh = a.blkCh) (hframe : b.blkFrame = a.blkFrame) (hframes : b.blkFrames = a.blkFrames) : b.inBlockAt n f k := by
  constructor
  · rw [hnch, h.nch]
  · rw [hact, hch, hframe, hframes]
    exact h.open_of_lt
  · rw [hact]
    exact h.closed_of_eq

/-- SMP with samples owed passes: the sample operation on the channel of its position, and the next position. -/
theorem Arch.inBlockAt.cfcStep_smp (h : a.inBlockAt n f k) (hk : k < n * f.toNat) {x : Half} (hd : decode w = .ok (.smp x)) :
    firstFailure p a (.smp x) = none ∧ (cfcStep p a w).1 = (a.sampleOp a.blkCh x).1.nextInBlock := by
  have hf : firstFailure p a (.smp x) = none := by simp [(h.open_of_lt hk).1]
  exact ⟨hf, by rw [cfcStep_of_pass hd hf]; rfl⟩

theorem Arch.inBlockAt.smp (h : a.inBlockAt n f k) (hn : n ≤ 16) (hk : k < n * f.toNat) {x : Half}
    (hd : decode w = .ok (.smp x)) : (cfcStep p a w).1.inBlockAt n f (k + 1) := by
  rw [(h.cfcStep_smp hk hd).2]
  exact (h.congr (b := (a.sampleOp a.blkCh x).1) (by simp) (by simp) (by simp) (by simp) (by simp)).nextInBlock hn hk

/-- The reads and the staging writes, which may stand between the samples of a block. -/
def mnemonicsBetweenSamples : List String := ["NOP", "RDST", "RDCUR", "DLRD", "SETGL", "SETGH", "SETDLY"]

theorem Arch.inBlockAt.between (h : a.inBlockAt n f k) (hd : decode w = .ok i) (hi : mnemonicOf i ∈ mnemonicsBetweenSamples) :
    (cfcStep p a w).1.inBlockAt n f k := by
  have htable := registersAreWrittenOnlyByTheirCommands p a _ w i hd rfl
  obtain ⟨hconfig, -, -, -, -, -, hsequencer⟩ := htable
  have hnot : mnemonicOf i ∉ ["CONS", "DSTR"] ∧ mnemonicOf i ∉ ["BLK", "SMP", "DSTR"] := by
    revert hi
    cases i <;> simp [mnemonicOf, mnemonicsBetweenSamples]
  obtain ⟨-, -, hnch, -⟩ := hconfig hnot.1
  obtain ⟨hact, hch, hframe, hframes⟩ := hsequencer hnot.2
  exact h.congr hnch hact hch hframe hframes

theorem fieldOP_eq_seven_iff (hd : decode w = .ok i) : fieldOP w = 0x7 ↔ ∃ x, i = .smp x := by
  rw [← op_of_decode hd]
  cases i <;> simp [Instr.op]

/-- The position after a run is the number of its samples further on. -/
theorem Arch.inBlockAt.cfcRun {ws : List Word} (h : a.inBlockAt n f k) (hn : n ≤ 16)
    (hws : ∀ w ∈ ws, ∃ i, decode w = .ok i ∧ mnemonicOf i ∈ "SMP" :: mnemonicsBetweenSamples)
    (hk : k + ws.countP (fun w => fieldOP w == 0x7) ≤ n * f.toNat) :
    (cfcRun p a ws).1.inBlockAt n f (k + ws.countP (fun w => fieldOP w == 0x7)) := by
  induction ws generalizing a k with
  | nil => exact h
  | cons w ws ih =>
    obtain ⟨⟨i, hd, hi⟩, hrest⟩ := List.forall_mem_cons.1 hws
    rw [List.countP_cons] at hk ⊢
    by_cases hsmp : fieldOP w = 0x7
    · obtain ⟨x, rfl⟩ := (fieldOP_eq_seven_iff hd).1 hsmp
      simp only [hsmp, beq_self_eq_true, if_true] at hk ⊢
      rw [← Nat.add_assoc, Nat.add_right_comm] at hk ⊢
      exact ih (h.smp hn (by omega) hd) hrest hk
    · simp only [beq_iff_eq, hsmp, if_false, Nat.add_zero] at hk ⊢
      refine ih (h.between hd ((List.mem_cons.1 hi).resolve_left fun hm => hsmp ?_)) hrest hk
      refine (fieldOP_eq_seven_iff hd).2 ?_
      revert hm
      cases i <;> simp [mnemonicOf]

/-- A BLK that passes on a filter of `n` channels is at the start of its block, or of none if it has no frames. -/
theorem cfcStep_blk {m : BitVec 7} (hact : a.blkActive = false) (hcfg : a.configured = true) (hm : m.toNat = a.nch.toNat) (f : Half) :
    cfcStep p a (encode (.blk m f)) =
      (if f.toNat = 0 then a else a.openBlock f, responseWord 0x6 .ok (!decide (f.toNat = 0)) true 0) := by
  rw [cfcStep_of_pass (decode_encode rfl) (by simp [hact, hcfg, hm])]
  simp only [perform]
  split_ifs with hf <;> simp [hact, hcfg, hf, Instr.op]

theorem Arch.openBlock_inBlockAt (hf : f.toNat ≠ 0) (hn : n ≠ 0) (hnch : a.nch.toNat = n) : (a.openBlock f).inBlockAt n f 0 :=
  ⟨hnch, fun _ => ⟨rfl, (Nat.zero_div _).symm, (Nat.zero_mod _).symm, rfl⟩, fun h0 => absurd h0.symm (Nat.mul_ne_zero hn hf)⟩

theorem Arch.inv.nch_pos (h : a.inv p) (hcfg : a.configured = true) : 0 < a.nch.toNat := by
  obtain ⟨⟨hshape, -⟩, -⟩ := h
  obtain ⟨-, -, hnch, -⟩ := hshape hcfg
  exact hnch

end

/-- Settles O44: the position of the sequencer counts the samples, and its quotient and remainder by F are channel and frame. -/
theorem blocksAreChannelMajor : Obligations.BlocksAreChannelMajor := by
  intro p a n f ws hp ha hact hcfg hn hf hws j b hj
  have hf' : f.toNat ≠ 0 := Nat.ne_of_gt hf
  have hfirst : (cfcStep p a (encode (.blk n f))).1 = a.openBlock f := by rw [cfcStep_blk hact hcfg hn, if_neg hf']
  have hstart := Arch.openBlock_inBlockAt hf' (Nat.ne_of_gt (ha.nch_pos hcfg)) rfl
  rw [← hn] at hstart
  have hpos : b.inBlockAt n.toNat f j := by
    have hrun := hstart.cfcRun (p := p) (hn ▸ ha.nch_le hp hcfg) hws (by rwa [Nat.zero_add])
    rwa [Nat.zero_add, ← hfirst] at hrun
  have hinv : b.inv p := cfcRun_keeps_inv hp (cfcStep_keeps_inv hp ha _) ws
  refine ⟨hpos.open_of_lt, hpos.closed_of_eq, ?_⟩
  rcases Nat.lt_or_eq_of_le hj with hlt | heq
  · obtain ⟨-, hch, hframe, hframes⟩ := hpos.open_of_lt hlt
    have hdiv := Nat.div_add_mod j f.toNat
    rw [hpos.nch, hch, hframe, hframes, Nat.sub_mul, Nat.mul_comm (j / f.toNat)]
    omega
  · obtain ⟨⟨-, -, -, hclosed⟩, -⟩ := hinv
    obtain ⟨-, hframe, hframes⟩ := hclosed (hpos.closed_of_eq heq)
    rw [hframe, hframes, heq]
    simp

end Sys2Proof.Machine
end

section
/-! SUPPORT. A channel is fed its samples, in whatever commands they come (42_block_driver.md R157): outputs and line depend on the
inputs of the channel only, and two idle states with the same lines are the same. -/

namespace Sys2Proof.Machine

/-- A channel takes the samples of a stream one after another: the state after them and the outputs. -/
def Arch.feed (c : Channel) : List Half → Arch → Arch × List Half
  | [], a => (a, [])
  | x :: xs, a => ((Arch.feed c xs (a.sampleOp c x).1).1, (a.sampleOp c x).2 :: (Arch.feed c xs (a.sampleOp c x).1).2)

section
variable {p : Part} {a b d : Arch} {w : Word} {ws : List Word} {i : Instr} {c : Channel}

/-! ### Feeding a channel -/

/-- Two states whose memories are canonical, with the same configuration and the same line on a channel. -/
structure Arch.sameChannel (c : Channel) (a b : Arch) : Prop where
  filter : a.sameFilter b
  line : a.sameLine c b
  left_wf : a.dl.wf = true ∧ a.cur.wf = true
  right_wf : b.dl.wf = true ∧ b.cur.wf = true

theorem Arch.lineWrite_memory_wf (h : a.dl.wf = true ∧ a.cur.wf = true) (c : Channel) (v : Half) :
    (a.lineWrite c v).dl.wf = true ∧ (a.lineWrite c v).cur.wf = true := by
  rw [Arch.lineWrite_dl, Arch.lineWrite_cur]
  exact ⟨Memory.write_wf h.1 _ _, Memory.write_wf h.2 _ _⟩

/-- A sample operation sees and changes no more than the configuration and the line. -/
theorem Arch.sameChannel.sampleOp (h : a.sameChannel c b) (x : Half) :
    (a.sampleOp c x).2 = (b.sampleOp c x).2 ∧ (a.sampleOp c x).1.sameChannel c (b.sampleOp c x).1 := by
  have hline := (Arch.sameLine_iff c a b).1 h.line
  have houtput : (a.sampleOp c x).2 = (b.sampleOp c x).2 := by
    rw [Arch.sampleOp_output, Arch.sampleOp_output, h.filter.gain, hline.tap_eq trivial]
  refine ⟨houtput, ?_⟩
  rw [Arch.sampleOp_fst_eq_lineWrite, Arch.sampleOp_fst_eq_lineWrite, houtput, h.filter.kind]
  exact ⟨(Arch.sameFilter_lineWrite c _ a).symm.trans (h.filter.trans (Arch.sameFilter_lineWrite c _ b)),
    (Arch.sameLine_iff c _ _).2 (Arch.sameSlots_lineWrite h.left_wf h.right_wf h.filter.delay hline fun _ => rfl),
    Arch.lineWrite_memory_wf h.left_wf c _, Arch.lineWrite_memory_wf h.right_wf c _⟩

/-- A run that applies sample operations only to a channel feeds it their inputs. -/
theorem cfcRun_eq_feed {xs : List Half} (hp : p.ok = true) (ha : a.inv p) (hkeep : keepsFilter p a ws = true)
    (hxs : sampleInputs (lineOps p c a ws) = some xs) (h : a.sameChannel c b) :
    sampleOutputs (lineOps p c a ws) = (b.feed c xs).2 ∧ (cfcRun p a ws).1.sameChannel c (b.feed c xs).1 := by
  induction ws generalizing a b xs with
  | nil =>
    obtain rfl : [] = xs := Option.some.inj hxs
    exact ⟨rfl, h⟩
  | cons w ws ih =>
    obtain ⟨hw, hws⟩ := keepsFilter_cons.1 hkeep
    have hinv := cfcStep_keeps_inv hp ha w
    have hline := cfcStep_sameLine_applyOp ha hw c
    have hfilter := cfcStep_sameFilter hw
    rw [lineOps_cons] at hxs ⊢
    cases hop : lineOp p c a w with
    | none =>
      rw [hop] at hxs hline
      exact ih hinv hws hxs ⟨hfilter.symm.trans h.filter, hline.trans h.line, hinv.memory_wf, h.right_wf⟩
    | some op =>
      rw [hop] at hxs hline
      cases op with
      | poke v => cases hxs
      | sample x y =>
        obtain ⟨xs', hxs', rfl⟩ := sampleInputs_cons_sample.1 hxs
        obtain rfl := output_of_lineOp_eq_sample hop
        obtain ⟨houtput, hnext⟩ := h.sampleOp x
        have hstep : (cfcStep p a w).1.sameLine c (a.sampleOp c x).1 := by
          rw [Arch.sampleOp_fst_eq_lineWrite]
          exact hline
        have hsame : a.sameFilter (a.sampleOp c x).1 := by
          rw [Arch.sampleOp_fst_eq_lineWrite]
          exact Arch.sameFilter_lineWrite c _ a
        obtain ⟨houtputs, hend⟩ := ih hinv hws hxs'
          ⟨hfilter.symm.trans (hsame.trans hnext.filter), hstep.trans hnext.line, hinv.memory_wf, hnext.right_wf⟩
        refine ⟨?_, hend⟩
        simp only [Option.toList_some, List.singleton_append, sampleOutputs, Arch.feed, houtput, houtputs]

/-! ### Equal lines are equal states -/

theorem Memory.read_of_not_region {region : Nat → Bool} {m : Memory} (h : m.within region = true) {addr : Nat}
    (hout : region addr = false) : m.read addr = Memory.absent := by
  induction m with
  | nil => rfl
  | cons cell m ih =>
    obtain ⟨k, v⟩ := cell
    obtain ⟨hk, hm⟩ := (Memory.within_cons _ _ _ _).1 h
    have hne : k ≠ addr := by
      rintro rfl
      rw [hk] at hout
      cases hout
    rw [Memory.read_cons, if_neg hne, ih hm]

/-- Two states that meet the invariant and have the same registers and the same lines are the same: the part has no other cells. -/
theorem Arch.eq_of_sameLines (hp : p.ok = true) (ha : a.inv p) (hb : b.inv p) (hregs : a.sameRegs b)
    (hlines : ∀ c, a.sameLine c b) : a = b := by
  simp only [Part.ok, Bool.and_eq_true, decide_eq_true_eq] at hp
  obtain ⟨-, hdla, hcura, hdlaIn, hcuraIn⟩ := ha
  obtain ⟨-, hdlb, hcurb, hdlbIn, hcurbIn⟩ := hb
  have hdl : a.dl = b.dl := by
    refine Memory.ext_of_read hdla hdlb fun addr => ?_
    by_cases hin : lineRegion p.maxCh.toNat p.maxDelay.toNat addr = true
    · simp only [lineRegion, Bool.and_eq_true, decide_eq_true_eq] at hin
      have hch : (BitVec.ofNat 4 (addr / 65536)).toNat = addr / 65536 := Nat.mod_eq_of_lt (by omega)
      have haddr : slotAddr (addr / 65536) (addr % 65536) = addr := by rw [slotAddr]; omega
      have hread := (hlines (BitVec.ofNat 4 (addr / 65536))).read_slot (i := addr % 65536) (by omega)
      rwa [hch, haddr] at hread
    · rw [Memory.read_of_not_region hdlaIn (by simpa using hin), Memory.read_of_not_region hdlbIn (by simpa using hin)]
  have hcur : a.cur = b.cur := by
    refine Memory.ext_of_read hcura hcurb fun addr => ?_
    by_cases hin : cursorRegion p.maxCh.toNat addr = true
    · simp only [cursorRegion, decide_eq_true_eq] at hin
      have hch : (BitVec.ofNat 4 addr).toNat = addr := Nat.mod_eq_of_lt (by omega)
      have hread := (hlines (BitVec.ofNat 4 addr)).1
      rwa [Arch.cursor, Arch.cursor, hch] at hread
    · rw [Memory.read_of_not_region hcuraIn (by simpa using hin), Memory.read_of_not_region hcurbIn (by simpa using hin)]
  rw [← hregs, ← hdl, ← hcur]

/-- Two idle states with the same configuration and the same staged values have the same registers. -/
theorem Arch.sameRegs_of_idle (ha : a.inv p) (hb : b.inv p) (hfilter : a.sameFilter b) (hsgain : a.sgain = b.sgain)
    (hsdelay : a.sdelay = b.sdelay) (hacta : a.blkActive = false) (hactb : b.blkActive = false) : a.sameRegs b := by
  obtain ⟨⟨-, -, -, hclosed⟩, -⟩ := ha
  obtain ⟨hch, hframe, hframes⟩ := hclosed hacta
  obtain ⟨⟨-, -, -, hclosed'⟩, -⟩ := hb
  obtain ⟨hch', hframe', hframes'⟩ := hclosed' hactb
  obtain ⟨hcfg, hkind, hnch, hdelay, hgain⟩ := hfilter
  rw [Arch.sameRegs, hcfg, hkind, hnch, hdelay, hgain, hsgain, hsdelay, hacta.trans hactb.symm, hch.trans hch'.symm,
    hframe.trans hframe'.symm, hframes.trans hframes'.symm]

/-! ### Runs of BLK, SMP and FILT -/

/-- The words of blocks and single samples. -/
def isSampleWord (w : Word) : Prop := ∃ i, decode w = .ok i ∧ mnemonicOf i ∈ ["BLK", "SMP", "FILT"]

theorem endsFilter_eq_false_of_mnemonic (hd : decode w = .ok i) (hi : mnemonicOf i ∉ ["CONS", "DSTR"]) :
    endsFilter p a w = false := by
  rw [endsFilter, hd]
  revert hi
  cases i <;> simp [mnemonicOf]

theorem isSampleWord.registers (h : isSampleWord w) (p : Part) (a : Arch) :
    endsFilter p a w = false ∧ (cfcStep p a w).1.sgain = a.sgain ∧ (cfcStep p a w).1.sdelay = a.sdelay := by
  obtain ⟨i, hd, hi⟩ := h
  have hnot : mnemonicOf i ∉ ["CONS", "DSTR"] ∧ mnemonicOf i ∉ ["SETGL", "SETGH"] ∧ mnemonicOf i ≠ "SETDLY" := by
    revert hi
    cases i <;> simp [mnemonicOf]
  obtain ⟨hconfig, hstage, hdelay⟩ := hnot
  obtain ⟨-, hsgain, -, -, hsdelay, -⟩ := registersAreWrittenOnlyByTheirCommands p a _ w i hd rfl
  exact ⟨endsFilter_eq_false_of_mnemonic hd hconfig, hsgain hstage, hsdelay hdelay⟩

/-- A run of such words keeps the filter and the staged values. -/
theorem cfcRun_registers_of_sampleWords (h : ∀ w ∈ ws, isSampleWord w) (p : Part) (a : Arch) :
    keepsFilter p a ws = true ∧ (cfcRun p a ws).1.sgain = a.sgain ∧ (cfcRun p a ws).1.sdelay = a.sdelay := by
  induction ws generalizing a with
  | nil => exact ⟨rfl, rfl, rfl⟩
  | cons w ws ih =>
    obtain ⟨hw, hws⟩ := List.forall_mem_cons.1 h
    obtain ⟨hkeep, hsgain, hsdelay⟩ := hw.registers p a
    obtain ⟨hkeeps, hsgains, hsdelays⟩ := ih hws (cfcStep p a w).1
    exact ⟨keepsFilter_cons.2 ⟨hkeep, hkeeps⟩, hsgains.trans hsgain, hsdelays.trans hsdelay⟩

/-- A word of a block or a single sample applies a sample operation or none. -/
theorem isSampleWord.lineOp (h : isSampleWord w) (p : Part) (a : Arch) (c : Channel) :
    lineOp p c a w = none ∨ ∃ x y, lineOp p c a w = some (.sample x y) := by
  obtain ⟨i, hd, hi⟩ := h
  cases hf : firstFailure p a i with
  | some code => exact .inl (lineOp_of_failure hd hf)
  | none =>
    rw [lineOp_of_pass hd hf]
    split_ifs
    · revert hi
      cases i <;> simp [mnemonicOf, opOfCommand]
    · exact .inl rfl

/-- All that such a run applies to a channel are sample operations. -/
theorem exists_sampleInputs_of_sampleWords (h : ∀ w ∈ ws, isSampleWord w) (p : Part) (a : Arch) (c : Channel) :
    ∃ xs, sampleInputs (lineOps p c a ws) = some xs := by
  induction ws generalizing a with
  | nil => exact ⟨[], rfl⟩
  | cons w ws ih =>
    obtain ⟨hw, hws⟩ := List.forall_mem_cons.1 h
    obtain ⟨xs, hxs⟩ := ih hws (cfcStep p a w).1
    rw [lineOps_cons]
    rcases hw.lineOp p a c with hnone | ⟨x, y, hsome⟩
    · exact ⟨xs, by rw [hnone]; exact hxs⟩
    · exact ⟨x :: xs, by rw [hsome]; exact sampleInputs_cons_sample.2 ⟨xs, hxs, rfl⟩⟩

/-- Channels outside the filter get no operations. -/
theorem lineOps_eq_nil_of_nch_le (hp : p.ok = true) (ha : a.inv p) (hkeep : keepsFilter p a ws = true)
    (hc : a.nch.toNat ≤ c.toNat) : lineOps p c a ws = [] := by
  induction ws generalizing a with
  | nil => rfl
  | cons w ws ih =>
    obtain ⟨hw, hws⟩ := keepsFilter_cons.1 hkeep
    have hnone : lineOp p c a w = none := by
      by_contra hsome
      obtain ⟨op, hop⟩ := Option.ne_none_iff_exists'.1 hsome
      exact absurd (lt_nch_of_lineOp_eq_some ha hop).2 (Nat.not_lt_of_le hc)
    rw [lineOps_cons, hnone, ih (cfcStep_keeps_inv hp ha w) hws ((cfcStep_sameFilter hw).nch ▸ hc)]
    rfl

/-- Two such runs that feed each channel the same inputs give the same outputs, and the same state if they end with no block
open. -/
theorem cfcRun_congr_of_sampleInputs {us vs : List Word} (hp : p.ok = true) (ha : a.inv p) (hus : ∀ w ∈ us, isSampleWord w)
    (hvs : ∀ w ∈ vs, isSampleWord w)
    (hinputs : ∀ c : Channel, c.toNat < a.nch.toNat → sampleInputs (lineOps p c a us) = sampleInputs (lineOps p c a vs)) :
    (∀ c : Channel, sampleOutputs (lineOps p c a us) = sampleOutputs (lineOps p c a vs)) ∧
      ((cfcRun p a us).1.blkActive = false → (cfcRun p a vs).1.blkActive = false → (cfcRun p a us).1 = (cfcRun p a vs).1) := by
  obtain ⟨hkeepu, hsgainu, hsdelayu⟩ := cfcRun_registers_of_sampleWords hus p a
  obtain ⟨hkeepv, hsgainv, hsdelayv⟩ := cfcRun_registers_of_sampleWords hvs p a
  have hchannel (c : Channel) : sampleOutputs (lineOps p c a us) = sampleOutputs (lineOps p c a vs) ∧
      (cfcRun p a us).1.sameLine c (cfcRun p a vs).1 := by
    have hsame : sampleInputs (lineOps p c a us) = sampleInputs (lineOps p c a vs) := by
      rcases Nat.lt_or_ge c.toNat a.nch.toNat with hlt | hge
      · exact hinputs c hlt
      · rw [lineOps_eq_nil_of_nch_le hp ha hkeepu hge, lineOps_eq_nil_of_nch_le hp ha hkeepv hge]
    obtain ⟨xs, hxs⟩ := exists_sampleInputs_of_sampleWords hus p a c
    have hself : a.sameChannel c a := ⟨.refl a, .refl c a, ha.memory_wf, ha.memory_wf⟩
    obtain ⟨houtu, hendu⟩ := cfcRun_eq_feed hp ha hkeepu hxs hself
    obtain ⟨houtv, hendv⟩ := cfcRun_eq_feed hp ha hkeepv (hsame ▸ hxs) hself
    exact ⟨houtu.trans houtv.symm, hendu.line.trans hendv.line.symm⟩
  refine ⟨fun c => (hchannel c).1, fun hactu hactv => ?_⟩
  have hinvu := cfcRun_keeps_inv hp ha us
  have hinvv := cfcRun_keeps_inv hp ha vs
  exact Arch.eq_of_sameLines hp hinvu hinvv
    (Arch.sameRegs_of_idle hinvu hinvv ((cfcRun_sameFilter hkeepu).symm.trans (cfcRun_sameFilter hkeepv))
      (hsgainu.trans hsgainv.symm) (hsdelayu.trans hsdelayv.symm) hactu hactv) fun c => (hchannel c).2

end

end Sys2Proof.Machine
end

section
/-! SUPPORT. Blocks (42_block_driver.md R153 to R157): a block gives each channel its frames of the channel-major buffer and returns the
outputs in the same order, and so do several blocks one after another. -/

namespace Sys2Proof.Machine

section
variable {p : Part} {a : Arch} {n : Nat} {f : Half} {k : Nat}

/-! ### The samples of an open block -/

/-- The SMP words of a list of samples. -/
abbrev smpWords (xs : List Half) : List Word := xs.map fun x => encode (.smp x)

theorem smpWords_append (xs ys : List Half) : smpWords (xs ++ ys) = smpWords xs ++ smpWords ys := List.map_append

theorem decode_encode_smp (x : Half) : decode (encode (.smp x)) = .ok (.smp x) := decode_encode rfl

/-- SMP with samples owed answers OK and samples the channel of its position. -/
theorem Arch.inBlockAt.lineOp_smp (h : a.inBlockAt n f k) (hk : k < n * f.toNat) (x : Half) (c : Channel) :
    responseCODE (cfcStep p a (encode (.smp x))).2 = 0 ∧
      lineOp p c a (encode (.smp x)) =
        if c.toNat = k / f.toNat then some (.sample x (responseDATA (cfcStep p a (encode (.smp x))).2)) else none := by
  have hd := decode_encode_smp x
  obtain ⟨hf, -⟩ := h.cfcStep_smp (p := p) hk hd
  obtain ⟨-, hch, -⟩ := h.open_of_lt hk
  have hused : a.usedChannel (.smp x) = some c ↔ c.toNat = k / f.toNat := by
    rw [← hch, BitVec.toNat_inj, eq_comm]
    exact Option.some_inj
  refine ⟨(responseCODE_cfcStep_eq_zero_iff hd).2 hf, ?_⟩
  simp only [lineOp_of_pass hd hf, cfcStep_of_pass hd hf, responseDATA_responseWord, hused, opOfCommand]

/-- Samples that stay within one channel go to that channel, and are answered with its outputs. -/
theorem cfcRun_smpWords_of_inBlockAt {ch r : Nat} {xs : List Half} (h : a.inBlockAt n f (ch * f.toNat + r)) (hn : n ≤ 16)
    (hch : ch < n) (hr : r + xs.length ≤ f.toNat) :
    (cfcRun p a (smpWords xs)).1.inBlockAt n f (ch * f.toNat + (r + xs.length)) ∧
      (∀ q ∈ (cfcRun p a (smpWords xs)).2, responseCODE q = 0) ∧
      ∀ c : Channel, lineOps p c a (smpWords xs) =
        if c.toNat = ch then List.zipWith .sample xs ((cfcRun p a (smpWords xs)).2.map responseDATA) else [] := by
  induction xs generalizing a r with
  | nil => exact ⟨h, by simp, by simp⟩
  | cons x xs ih =>
    rw [List.length_cons] at hr ⊢
    have hlt : r < f.toNat := by omega
    have hk : ch * f.toNat + r < n * f.toNat :=
      calc ch * f.toNat + r < (ch + 1) * f.toNat := by rw [Nat.add_mul]; omega
        _ ≤ n * f.toNat := Nat.mul_le_mul_right _ hch
    have hdiv : (ch * f.toNat + r) / f.toNat = ch := by
      rw [Nat.mul_comm, Nat.mul_add_div (by omega), Nat.div_eq_of_lt hlt, Nat.add_zero]
    have hnext := h.smp (p := p) hn hk (decode_encode_smp x)
    obtain ⟨hend, hok, hops⟩ := ih (r := r + 1) hnext (by omega)
    simp only [smpWords, List.map_cons, cfcRun_cons, lineOps_cons, List.forall_mem_cons] at hend hok hops ⊢
    refine ⟨?_, ⟨(h.lineOp_smp hk x 0).1, hok⟩, fun c => ?_⟩
    · rwa [Nat.add_assoc, Nat.add_comm 1] at hend
    · rw [(h.lineOp_smp hk x c).2, hops c, hdiv]
      split_ifs <;> rfl

/-- Samples in whole channels go to the channels in order, and are answered with their outputs in the same order. -/
theorem cfcRun_flatten_of_inBlockAt {ch : Nat} {L : List (List Half)} (h : a.inBlockAt n f (ch * f.toNat)) (hn : n ≤ 16)
    (hL : ∀ l ∈ L, l.length = f.toNat) (hch : ch + L.length ≤ n) :
    (cfcRun p a (smpWords L.flatten)).1.inBlockAt n f ((ch + L.length) * f.toNat) ∧
      (∀ q ∈ (cfcRun p a (smpWords L.flatten)).2, responseCODE q = 0) ∧
      (∀ c : Channel, c.toNat < ch → lineOps p c a (smpWords L.flatten) = []) ∧
      ∀ (c : Channel) (j : Nat), c.toNat = ch + j → j < L.length → lineOps p c a (smpWords L.flatten) =
        List.zipWith .sample (L.getD j [])
          ((((cfcRun p a (smpWords L.flatten)).2.map responseDATA).drop (j * f.toNat)).take f.toNat) := by
  induction L generalizing a ch with
  | nil => exact ⟨h, by simp, by simp, by simp⟩
  | cons l L ih =>
    obtain ⟨hl, hrest⟩ := List.forall_mem_cons.1 hL
    rw [List.length_cons] at hch ⊢
    obtain ⟨hend, hok, hops⟩ := cfcRun_smpWords_of_inBlockAt (p := p) (r := 0) (xs := l) h hn (by omega) (by omega)
    rw [hl, Nat.zero_add, ← Nat.succ_mul] at hend
    obtain ⟨hend', hok', hbefore, hops'⟩ := ih hend hrest (by omega)
    have hlen : ((cfcRun p a (smpWords l)).2.map responseDATA).length = f.toNat := by simp [hl]
    rw [List.flatten_cons, smpWords_append, cfcRun_append]
    refine ⟨?_, ?_, fun c hc => ?_, fun c j hc hj => ?_⟩
    · rwa [Nat.succ_add_eq_add_succ] at hend'
    · exact List.forall_mem_append.2 ⟨hok, hok'⟩
    · rw [lineOps_append, hops c, if_neg (Nat.ne_of_lt hc), hbefore c (by omega)]
      rfl
    · rw [lineOps_append, hops c, List.map_append]
      cases j with
      | zero =>
        rw [if_pos (by omega), hbefore c (by omega)]
        simp [List.take_append_of_le_length (Nat.le_of_eq hlen.symm), List.take_of_length_le (Nat.le_of_eq hlen)]
      | succ j =>
        rw [if_neg (by omega), hops' c j (by omega) (by omega), Nat.succ_mul, Nat.add_comm (j * _), ← List.drop_drop,
          List.drop_left' hlen]
        rfl

theorem length_flatten_of_length_eq {L : List (List Half)} {len : Nat} (h : ∀ l ∈ L, l.length = len) :
    L.flatten.length = L.length * len := by
  rw [List.length_flatten, List.map_congr_left h, List.map_const', List.sum_replicate, smul_eq_mul]

/-- Samples paired with as many outputs are the operations of a stream. -/
theorem sampleInputs_zipWith {xs ys : List Half} (h : xs.length = ys.length) :
    sampleInputs (List.zipWith .sample xs ys) = some xs ∧ sampleOutputs (List.zipWith .sample xs ys) = ys := by
  induction xs generalizing ys with
  | nil =>
    obtain rfl : ys = [] := List.length_eq_zero_iff.1 h.symm
    exact ⟨rfl, rfl⟩
  | cons x xs ih =>
    cases ys with
    | nil => cases h
    | cons y ys =>
      obtain ⟨hin, hout⟩ := ih (Nat.succ.inj h)
      exact ⟨sampleInputs_cons_sample.2 ⟨xs, hin, rfl⟩, congrArg (y :: ·) hout⟩

/-! ### One block -/

theorem blockWords_eq (m : BitVec 7) (f : Half) (samples : List Half) :
    (blockCommands m f samples).map encode = encode (.blk m f) :: if f.toNat = 0 then [] else smpWords samples := by
  rw [blockCommands, List.map_cons]
  split_ifs
  · rfl
  · rw [List.map_map]
    rfl

/-- A BLK that passes answers OK and applies nothing to any line. -/
theorem cfcStep_blk_of_idle {m : BitVec 7} (hact : a.blkActive = false) (hcfg : a.configured = true)
    (hm : m.toNat = a.nch.toNat) (f : Half) :
    (cfcStep p a (encode (.blk m f))).1 = (if f.toNat = 0 then a else a.openBlock f) ∧
      responseCODE (cfcStep p a (encode (.blk m f))).2 = 0 ∧ ∀ c, lineOp p c a (encode (.blk m f)) = none := by
  have hd : decode (encode (.blk m f)) = .ok (.blk m f) := decode_encode rfl
  have hf : firstFailure p a (.blk m f) = none := by simp [hact, hcfg, hm]
  refine ⟨by rw [cfcStep_blk hact hcfg hm], (responseCODE_cfcStep_eq_zero_iff hd).2 hf, fun c => ?_⟩
  rw [lineOp_of_pass hd hf, if_neg]
  rintro ⟨⟩

/-- A block on an idle filter: it ends, all its responses are OK, each channel gets its part of the channel-major buffer, and the
responses to the samples carry the outputs of each channel in its part. -/
theorem processBlock_of_idle {m : BitVec 7} {L : List (List Half)} (hp : p.ok = true) (ha : a.inv p) (hcfg : a.configured = true)
    (hact : a.blkActive = false) (hm : m.toNat = a.nch.toNat) (hlen : L.length = m.toNat) (hL : ∀ l ∈ L, l.length = f.toNat) :
    (cfcRun p a ((blockCommands m f L.flatten).map encode)).1.blkActive = false ∧
      (∀ q ∈ (cfcRun p a ((blockCommands m f L.flatten).map encode)).2, responseCODE q = 0) ∧
      ∃ ys, processBlock p a m f L.flatten = ((cfcRun p a ((blockCommands m f L.flatten).map encode)).1, .ok ys) ∧
        ∀ c : Channel, c.toNat < m.toNat →
          sampleInputs (lineOps p c a ((blockCommands m f L.flatten).map encode)) = some (L.getD c.toNat []) ∧
          sampleOutputs (lineOps p c a ((blockCommands m f L.flatten).map encode)) =
            (ys.drop (c.toNat * f.toNat)).take f.toNat := by
  obtain ⟨hstate, hcode, hnone⟩ := cfcStep_blk_of_idle (p := p) hact hcfg hm f
  have hprocess (samples) : processBlock p a m f samples =
      ((cfcRun p a ((blockCommands m f samples).map encode)).1,
        .ok ((cfcRun p (cfcStep p a (encode (.blk m f))).1 (if f.toNat = 0 then [] else smpWords samples)).2.map responseDATA)) := by
    rw [blockWords_eq, processBlock, if_neg (not_not.2 hcode)]
    rfl
  rw [hprocess, blockWords_eq, hstate]
  simp only [cfcRun_cons, lineOps_cons, hstate, hnone, List.forall_mem_cons, hcode]
  by_cases hf : f.toNat = 0
  · simp only [if_pos hf]
    refine ⟨hact, by simp, _, rfl, fun c hc => ?_⟩
    have hempty : L.getD c.toNat [] = [] := by
      rw [List.getD_eq_getElem _ _ (hlen ▸ hc)]
      exact List.length_eq_zero_iff.1 ((hL _ (List.getElem_mem _)).trans hf)
    rw [hempty]
    simp [sampleInputs, sampleOutputs]
  · simp only [if_neg hf]
    have hstart := Arch.openBlock_inBlockAt hf (Nat.ne_of_gt (ha.nch_pos hcfg)) (a := a) rfl
    rw [← hm, ← Nat.zero_mul f.toNat] at hstart
    obtain ⟨hend, hok, -, hops⟩ := cfcRun_flatten_of_inBlockAt (p := p) hstart (hm ▸ ha.nch_le hp hcfg) hL (by omega)
    refine ⟨hend.closed_of_eq (by rw [hlen, Nat.zero_add]), ⟨trivial, hok⟩, _, rfl, fun c hc => ?_⟩
    have hops' := hops c c.toNat (by omega) (by omega)
    have hpart : c.toNat * f.toNat + f.toNat ≤ L.flatten.length := by
      rw [length_flatten_of_length_eq hL, hlen, ← Nat.succ_mul]
      exact Nat.mul_le_mul_right _ hc
    have hsame : (L.getD c.toNat []).length =
        ((((cfcRun p (a.openBlock f) (smpWords L.flatten)).2.map responseDATA).drop (c.toNat * f.toNat)).take f.toNat).length := by
      rw [List.getD_eq_getElem _ _ (hlen ▸ hc), hL _ (List.getElem_mem _)]
      simp only [List.length_take, List.length_drop, List.length_map, cfcRun_responses_length]
      omega
    rw [Option.toList_none, List.nil_append, hops']
    exact sampleInputs_zipWith hsame

end

end Sys2Proof.Machine
end

section
/-! SUPPORT. Several blocks one after another (42_block_driver.md R157) and the host's Process (43_config_control.md R193). -/

namespace Sys2Proof.Machine

/-! ### The words of blocks -/

theorem isSampleWord_of_mem_blockCommands {m : BitVec 7} {f : Half} {samples : List Half} :
    ∀ w ∈ (blockCommands m f samples).map encode, isSampleWord w := by
  intro w hw
  rw [blockWords_eq] at hw
  rcases List.mem_cons.1 hw with rfl | hsmp
  · exact ⟨.blk m f, decode_encode rfl, by simp [mnemonicOf]⟩
  · split_ifs at hsmp
    · cases hsmp
    · obtain ⟨x, -, rfl⟩ := List.mem_map.1 hsmp
      exact ⟨.smp x, decode_encode_smp x, by simp [mnemonicOf]⟩

theorem isSampleWord_of_mem_splitCommands {m : BitVec 7} {streams : List (List Half)} {start : Nat} {fs : List Nat} :
    ∀ w ∈ (splitCommands m streams start fs).map encode, isSampleWord w := by
  induction fs generalizing start with
  | nil => simp [splitCommands]
  | cons f fs ih =>
    rw [splitCommands, List.map_append]
    exact List.forall_mem_append.2 ⟨isSampleWord_of_mem_blockCommands, ih⟩

theorem sampleInputs_append {ops ops' : List LineOp} {xs xs' : List Half} (h : sampleInputs ops = some xs)
    (h' : sampleInputs ops' = some xs') : sampleInputs (ops ++ ops') = some (xs ++ xs') := by
  induction ops generalizing xs with
  | nil =>
    obtain rfl : [] = xs := Option.some.inj h
    exact h'
  | cons op ops ih =>
    cases op with
    | poke v => cases h
    | sample x y =>
      obtain ⟨rest, hrest, rfl⟩ := sampleInputs_cons_sample.1 h
      exact sampleInputs_cons_sample.2 ⟨rest ++ xs', ih hrest, rfl⟩

/-! ### Several blocks -/

section
variable {p : Part} {a : Arch} {m : BitVec 7} {streams : List (List Half)}

theorem channel_toNat_ofNat {c : Nat} (h : c < 16) : (BitVec.ofNat 4 c).toNat = c := Nat.mod_eq_of_lt h

/-- Blocks on an idle filter: they end, all their responses are OK, each channel gets its stream, and Process returns the outputs of
each channel. -/
theorem processBlocks_of_idle {start : Nat} {fs : List Nat} (hp : p.ok = true) (ha : a.inv p) (hcfg : a.configured = true)
    (hact : a.blkActive = false) (hm : m.toNat = a.nch.toNat) (hlen : streams.length = m.toNat) (hfs : ∀ f ∈ fs, f ≤ 65535)
    (htotal : ∀ x ∈ streams, start + fs.sum ≤ x.length) :
    (cfcRun p a ((splitCommands m streams start fs).map encode)).1.blkActive = false ∧
      (∀ q ∈ (cfcRun p a ((splitCommands m streams start fs).map encode)).2, responseCODE q = 0) ∧
      (∀ c : Channel, c.toNat < m.toNat → sampleInputs (lineOps p c a ((splitCommands m streams start fs).map encode)) =
        some (((streams.getD c.toNat []).drop start).take fs.sum)) ∧
      processBlocks p m streams a start fs = ((cfcRun p a ((splitCommands m streams start fs).map encode)).1,
        .ok ((List.range m.toNat).map fun c =>
          sampleOutputs (lineOps p (BitVec.ofNat 4 c) a ((splitCommands m streams start fs).map encode)))) := by
  induction fs generalizing a start with
  | nil => exact ⟨hact, by simp [splitCommands], by simp [splitCommands, sampleInputs], by simp [splitCommands, sampleOutputs]⟩
  | cons f fs ih =>
    obtain ⟨hf, hfs⟩ := List.forall_mem_cons.1 hfs
    rw [List.sum_cons] at htotal ⊢
    have hf16 : (BitVec.ofNat 16 f).toNat = f := Nat.mod_eq_of_lt (by omega)
    have hL : ∀ l ∈ streams.map fun x => (x.drop start).take f, l.length = (BitVec.ofNat 16 f).toNat := by
      rw [List.forall_mem_map, hf16]
      intro x hx
      have hx' := htotal x hx
      rw [List.length_take, List.length_drop]
      omega
    have hblock := processBlock_of_idle hp ha hcfg hact hm ((List.length_map _).trans hlen) hL
    rw [← channelMajor, hf16] at hblock
    obtain ⟨hact1, hok1, ys, hprocess, hops1⟩ := hblock
    have hwords : ∀ w ∈ (blockCommands m (BitVec.ofNat 16 f) (channelMajor streams start f)).map encode, isSampleWord w :=
      isSampleWord_of_mem_blockCommands
    have hfilter := cfcRun_sameFilter (cfcRun_registers_of_sampleWords hwords p a).1
    obtain ⟨hact2, hok2, hin2, hprocess2⟩ := ih (start := start + f) (cfcRun_keeps_inv hp ha _)
      (hfilter.configured.symm.trans hcfg) hact1 (hm.trans (congrArg BitVec.toNat hfilter.nch)) hfs
      fun x hx => by rw [Nat.add_assoc]; exact htotal x hx
    rw [splitCommands, List.map_append, cfcRun_append]
    refine ⟨hact2, List.forall_mem_append.2 ⟨hok1, hok2⟩, fun c hc => ?_, ?_⟩
    · have hpart : (streams.map fun x => (x.drop start).take f).getD c.toNat [] = ((streams.getD c.toNat []).drop start).take f := by
        simpa using List.getD_map (l := streams) (d := []) (n := c.toNat) (fun x => (x.drop start).take f)
      rw [lineOps_append, sampleInputs_append (hops1 c hc).1 (hin2 c hc), hpart, List.take_add, List.drop_drop]
    · have houtputs : streamsOf m.toNat f ys = (List.range m.toNat).map fun c => sampleOutputs (lineOps p (BitVec.ofNat 4 c) a
          ((blockCommands m (BitVec.ofNat 16 f) (channelMajor streams start f)).map encode)) := by
        refine List.map_congr_left fun c hc => ?_
        have hc' : c < m.toNat := List.mem_range.1 hc
        have hch : (BitVec.ofNat 4 c).toNat = c := channel_toNat_ofNat (by have := ha.nch_le hp hcfg; omega)
        rw [(hops1 (BitVec.ofNat 4 c) (hch.symm ▸ hc')).2, hch]
      simp only [processBlocks, hprocess, hprocess2, houtputs, Except.map, List.zipWith_map, List.zipWith_self, lineOps_append,
        sampleOutputs_append]

end

/-- Settles O45: however the samples are sent, each channel is fed the same stream. -/
theorem outputsDoNotDependOnBlockSizes : Obligations.OutputsDoNotDependOnBlockSizes := by
  refine fun p a hp ha hcfg hact => ⟨?_, fun us vs hwords hinputs => ?_⟩
  · intro m streams total fs gs hm hlen hstreams hfs hfsum hgs hgsum us vs
    have htotal {len : Nat} (hsum : len = total) : ∀ x ∈ streams, 0 + len ≤ x.length := fun x hx => by
      rw [Nat.zero_add, hstreams x hx, hsum]
    obtain ⟨hactu, hok, hinu, -⟩ := processBlocks_of_idle hp ha hcfg hact hm hlen hfs (htotal hfsum)
    obtain ⟨hactv, -, hinv, -⟩ := processBlocks_of_idle hp ha hcfg hact hm hlen hgs (htotal hgsum)
    rw [hfsum] at hinu
    rw [hgsum] at hinv
    obtain ⟨houtputs, hstate⟩ := cfcRun_congr_of_sampleInputs hp ha isSampleWord_of_mem_splitCommands
      isSampleWord_of_mem_splitCommands fun c hc => (hinu c (hm ▸ hc)).trans (hinv c (hm ▸ hc)).symm
    refine ⟨hstate hactu hactv, hok, fun c hc => ⟨(hinu c hc).trans ?_, houtputs c⟩⟩
    have hstream : (streams.getD c.toNat []).length = total := by
      rw [List.getD_eq_getElem _ _ (hlen ▸ hc)]
      exact hstreams _ (List.getElem_mem _)
    rw [List.drop_zero, List.take_of_length_le hstream.le]
  · obtain ⟨hus, hvs⟩ := List.forall_mem_append.1 hwords
    obtain ⟨houtputs, hstate⟩ := cfcRun_congr_of_sampleInputs hp ha hus hvs hinputs
    exact ⟨fun c _ => houtputs c, hstate⟩

/-! ### The host's Process -/

/-- Up to 65535 frames are one block; more are full blocks and a rest. -/
theorem blockSizes_spec (t : Nat) :
    (blockSizes t).sum = t ∧ (∀ f ∈ blockSizes t, f ≤ 65535) ∧ (t ≤ 65535 → blockSizes t = [t]) ∧
      ∃ fs, blockSizes t = min t 65535 :: fs := by
  unfold blockSizes
  split_ifs with hone hrest
  · exact ⟨by simp, by simpa using hone, fun _ => rfl, [], by rw [Nat.min_eq_left hone]⟩
  all_goals
    obtain ⟨k, hk⟩ : ∃ k, t / 65535 = k + 1 := Nat.exists_eq_succ_of_ne_zero (by omega)
    rw [hk, List.replicate_succ, Nat.min_eq_right (by omega)]
    refine ⟨?_, ?_, fun h => absurd h hone, _, rfl⟩
  · simp [List.sum_replicate]
    omega
  · simp
  · simp [List.sum_replicate]
    omega
  · simp
    omega

section
variable {n frames : Nat} {xs : List Half}

/-- The streams of a whole buffer have one sample for each frame. -/
theorem length_of_mem_streamsOf (h : xs.length = n * frames) : ∀ x ∈ streamsOf n frames xs, x.length = frames := by
  unfold streamsOf
  rw [List.forall_mem_map]
  intro c hc
  have hpart : (c + 1) * frames ≤ n * frames := Nat.mul_le_mul_right _ (List.mem_range.1 hc)
  rw [Nat.succ_mul] at hpart
  rw [List.length_take, List.length_drop]
  omega

theorem streamsOf_getD {c : Nat} (hc : c < n) : (streamsOf n frames xs).getD c [] = (xs.drop (c * frames)).take frames := by
  rw [List.getD_eq_getElem _ _ (by simpa using hc)]
  simp [streamsOf]

/-- The streams one after another are the buffer. -/
theorem flatten_streamsOf (n frames : Nat) (xs : List Half) : (streamsOf n frames xs).flatten = xs.take (n * frames) := by
  induction n with
  | zero => simp [streamsOf]
  | succ n ih =>
    rw [streamsOf] at ih ⊢
    rw [List.range_succ, List.map_append, List.flatten_append, ih, Nat.succ_mul, List.take_add]
    simp

/-- All frames of the streams in channel-major order are the buffer. -/
theorem channelMajor_streamsOf (h : xs.length = n * frames) : channelMajor (streamsOf n frames xs) 0 frames = xs := by
  have hwhole : (streamsOf n frames xs).map (fun x => (x.drop 0).take frames) = streamsOf n frames xs :=
    (List.map_congr_left fun x hx => List.take_of_length_le (length_of_mem_streamsOf h x hx).le).trans (List.map_id _)
  rw [channelMajor, hwhole, flatten_streamsOf, List.take_of_length_le h.le]

end

/-- Settles O46: Process sends the blocks one after another, and its first BLK decides whether it sends any. -/
theorem processReturnsTheOutputsInOrder : Obligations.ProcessReturnsTheOutputsInOrder := by
  refine ⟨fun t => ?_, fun p a n frames xs hp ha => ?_⟩
  · obtain ⟨hsum, hle, hone, -⟩ := blockSizes_spec t
    exact ⟨hsum, hle, hone⟩
  obtain ⟨hsum, hle, hone, fs, hfs⟩ := blockSizes_spec frames
  refine ⟨fun hcfg hact hn hlen => ?_, fun hn hcode => ?_, fun hn => ?_⟩
  · have hn16 : n ≤ 16 := hn ▸ ha.nch_le hp hcfg
    have hm : (BitVec.ofNat 7 n).toNat = n := Nat.mod_eq_of_lt (by omega)
    have htotal : ∀ x ∈ streamsOf n frames xs, 0 + (blockSizes frames).sum ≤ x.length := fun x hx => by
      rw [Nat.zero_add, hsum, length_of_mem_streamsOf hlen x hx]
    obtain ⟨-, -, hinputs, hprocess⟩ := processBlocks_of_idle hp ha hcfg hact (hm.trans hn)
      ((streamsOf_length n frames xs).trans hm.symm) hle htotal
    rw [hm] at hinputs hprocess
    refine ⟨fun hframes => ?_, fun c hc => (hinputs c hc).trans ?_, ?_, ?_⟩
    · have hframes16 : (BitVec.ofNat 16 frames).toNat = frames := Nat.mod_eq_of_lt (by omega)
      rw [hone hframes, splitCommands, splitCommands, List.append_nil, blockWords_eq, channelMajor_streamsOf hlen, hframes16]
      split_ifs with hzero
      · obtain rfl : xs = [] := List.length_eq_zero_iff.1 (by rw [hlen, hzero, Nat.mul_zero])
        rfl
      · rfl
    · rw [hsum, streamsOf_getD hc, List.drop_zero, List.take_take, Nat.min_self]
    · rw [hostProcess, if_neg (by omega), hprocess]
    · rw [hostProcess, if_neg (by omega), hprocess]
      rfl
  · rw [hostProcess, if_neg (by omega), hfs, processBlocks, processBlock, if_pos hcode,
      cfcStep_fst_of_responseCODE_ne_zero (decode_encode rfl) hcode]
    rfl
  · rw [hostProcess, if_pos hn]

end Sys2Proof.Machine
end

section
/-! SUPPORT. The host's arithmetic (43_config_control.md R190, R191): the delay rounds half up, the gain word is the nearest one. -/

namespace Sys2Proof.Machine

/-! ### The delay -/

theorem roundHalfUp_eq_floor (v : Rat) : roundHalfUp v = ⌊v + 1 / 2⌋ := rfl

/-- A number from 0 to 65535 is the value of the 16-bit vector it is narrowed to. -/
theorem toNat_ofInt_of_range {q : Int} (hlo : 0 ≤ q) (hhi : q ≤ 65535) : ((BitVec.ofInt 16 q).toNat : Int) = q := by
  rw [BitVec.toNat_ofInt]
  omega

/-- The delay is derived exactly when rate and frequency are positive and the rounded quotient is in range. -/
theorem deriveDelay_eq_ok_iff (rate : Int) (frequency : Rat) (d : Half) :
    deriveDelay rate frequency = .ok d ↔
      0 < rate ∧ 0 < frequency ∧ 1 ≤ d.toNat ∧ (d.toNat : Int) = roundHalfUp (rate / frequency) := by
  have hd := d.isLt
  unfold deriveDelay
  split_ifs with hsign hlow hhigh
  · simp only [false_iff]
    rintro ⟨hrate, hfrequency, -⟩
    rcases hsign with h | h
    · omega
    · exact absurd hfrequency (not_lt.2 h)
  · simp only [false_iff]
    omega
  · simp only [false_iff]
    omega
  · obtain ⟨hrate, hfrequency⟩ := not_or.1 hsign
    have hvalue := toNat_ofInt_of_range (q := roundHalfUp (rate / frequency)) (by omega) (by omega)
    constructor
    · rintro ⟨⟩
      exact ⟨by omega, not_le.1 hfrequency, by omega, hvalue⟩
    · rintro ⟨-, -, -, hd⟩
      exact congrArg Except.ok (BitVec.eq_of_toNat_eq (by omega))

/-- A refused delay is reported as the source's `InvalidDelay`. -/
theorem deriveDelay_eq_error {rate : Int} {frequency : Rat} (h : ∀ d, deriveDelay rate frequency ≠ .ok d) :
    deriveDelay rate frequency = .error .invalidDelay := by
  unfold deriveDelay at h ⊢
  split_ifs at h ⊢
  · rfl
  · rfl
  · rfl
  · exact absurd rfl (h _)

/-- Settles O58: above twice the rate the quotient is below a half, which rounds to 0. -/
theorem delayDerivationRoundsHalfUp : Obligations.DelayDerivationRoundsHalfUp := by
  refine fun rate frequency => ⟨fun d => deriveDelay_eq_ok_iff rate frequency d, fun hrate hfrequency => ?_⟩
  have hrate' : (0 : Rat) < rate := by exact_mod_cast hrate
  refine deriveDelay_eq_error fun d hd => ?_
  obtain ⟨-, hpos, hone, hvalue⟩ := (deriveDelay_eq_ok_iff rate frequency d).1 hd
  have hhalf : (rate : Rat) / frequency < 1 / 2 := by
    rw [div_lt_iff₀ hpos]
    linarith
  have hzero : ⌊(rate : Rat) / frequency + 1 / 2⌋ < 1 := Int.floor_lt.2 (by push_cast; linarith)
  rw [roundHalfUp_eq_floor] at hvalue
  omega

/-! ### The gain word -/

theorem roundHalfAway_of_nonneg {v : Rat} (h : 0 ≤ v) : roundHalfAway v = ⌊v + 1 / 2⌋ := if_pos h

theorem roundHalfAway_of_neg {v : Rat} (h : v < 0) : roundHalfAway v = -⌊-v + 1 / 2⌋ := if_neg (not_le.2 h)

/-- From 0 on a number is rounded to the nearest integer, halves up. -/
theorem roundHalfAway_nearest_of_nonneg {v : Rat} (h : 0 ≤ v) :
    |(roundHalfAway v : Rat) - v| ≤ 1 / 2 ∧ (|(roundHalfAway v : Rat) - v| = 1 / 2 → |v| < |(roundHalfAway v : Rat)|) := by
  rw [roundHalfAway_of_nonneg h]
  have hle := Int.floor_le (v + 1 / 2)
  have hlt := Int.lt_floor_add_one (v + 1 / 2)
  refine ⟨abs_le.2 ⟨by linarith, by linarith⟩, fun htie => ?_⟩
  rcases (abs_eq (by norm_num)).1 htie with hup | hdown
  · rw [abs_of_nonneg h, abs_of_nonneg (by linarith)]
    linarith
  · linarith

/-- Below 0 the rounding mirrors that of the magnitude. -/
theorem roundHalfAway_neg {v : Rat} (h : 0 < v) : roundHalfAway (-v) = -roundHalfAway v := by
  rw [roundHalfAway_of_nonneg h.le, roundHalfAway_of_neg (neg_neg_of_pos h), neg_neg]

/-- A number is rounded to the nearest integer, from a half away from 0. -/
theorem roundHalfAway_nearest (v : Rat) :
    |(roundHalfAway v : Rat) - v| ≤ 1 / 2 ∧ (|(roundHalfAway v : Rat) - v| = 1 / 2 → |v| < |(roundHalfAway v : Rat)|) := by
  rcases le_or_gt 0 v with h | h
  · exact roundHalfAway_nearest_of_nonneg h
  · obtain ⟨u, rfl⟩ : ∃ u, v = -u := ⟨-v, (neg_neg v).symm⟩
    have hu : 0 < u := neg_neg_iff_pos.1 h
    have hmirror := roundHalfAway_nearest_of_nonneg hu.le
    rwa [roundHalfAway_neg hu, Int.cast_neg, neg_sub_neg, abs_sub_comm, abs_neg, abs_neg]

/-- A number above -2^31 is rounded to no less than -2^31. -/
theorem roundHalfAway_ge {v : Rat} (h : -2147483648 < v) : -2147483648 ≤ roundHalfAway v := by
  rcases le_or_gt 0 v with hv | hv
  · have hnonneg : 0 ≤ ⌊v + 1 / 2⌋ := Int.floor_nonneg.2 (by linarith)
    rw [roundHalfAway_of_nonneg hv]
    omega
  · have hlt : ⌊-v + 1 / 2⌋ < 2147483649 := Int.floor_lt.2 (by push_cast; linarith)
    rw [roundHalfAway_of_neg hv]
    omega

/-- Exactly from 2^31 - 1/2 on a number is rounded to 2^31 or more. -/
theorem lt_roundHalfAway_iff (v : Rat) : 2147483647 < roundHalfAway v ↔ 4294967295 / 2 ≤ v := by
  rcases le_or_gt 0 v with hv | hv
  · rw [roundHalfAway_of_nonneg hv, ← Int.add_one_le_iff, Int.le_floor]
    push_cast
    constructor <;> intro h <;> linarith
  · have hnonneg : 0 ≤ ⌊-v + 1 / 2⌋ := Int.floor_nonneg.2 (by linarith)
    rw [roundHalfAway_of_neg hv]
    constructor <;> intro h
    · omega
    · linarith

/-- A number that fits 32 bits is the value of the vector it is narrowed to. -/
theorem toInt_ofInt_of_range {q : Int} (hlo : -2147483648 ≤ q) (hhi : q ≤ 2147483647) : (BitVec.ofInt 32 q).toInt = q := by
  rw [BitVec.toInt_ofInt]
  exact Int.bmod_eq_of_le (by norm_num; omega) (by norm_num; omega)

/-- Settles O59: between -32768 and 32768 only the rounding up to 2^31 does not fit, and a word that fits is the rounded product. -/
theorem gainConversionIsNearest : Obligations.GainConversionIsNearest := by
  intro g
  have hiff : gainWordOf g = .error .gainRange ↔ g ≤ -32768 ∨ 4294967295 / 2 ≤ g * 65536 := by
    rw [← lt_roundHalfAway_iff]
    unfold gainWordOf
    split_ifs with hbound hword
    · refine iff_of_true rfl (hbound.imp_right fun h => ?_)
      rw [lt_roundHalfAway_iff]
      linarith
    · refine iff_of_true rfl (.inr (hword.resolve_left fun hlow => ?_))
      have hge := roundHalfAway_ge (v := g * 65536) (by linarith [not_le.1 (not_or.1 hbound).1])
      omega
    · simp only [false_iff, not_or]
      exact ⟨(not_or.1 hbound).1, (not_or.1 hword).2⟩
  refine ⟨fun G hG => ?_, hiff, fun h => hiff.2 ?_⟩
  · unfold gainWordOf at hG
    split_ifs at hG with hbound hword
    cases hG
    rw [toInt_ofInt_of_range (by omega) (by omega)]
    exact roundHalfAway_nearest (g * 65536)
  · rcases le_abs.1 h with h | h
    · exact .inr (by linarith)
    · exact .inl (by linarith)

end Sys2Proof.Machine
end

section
/-! SUPPORT. Boot (70_reset_and_hazards.md R234): the staging writes in any order, CONS after them, and the host's Construction
(43_config_control.md R192). -/

namespace Sys2Proof.Machine

/-- Different commands have different words. -/
theorem encode_inj {i j : Instr} (hi : i.wf = true) (hj : j.wf = true) (h : encode i = encode j) : i = j :=
  Except.ok.inj ((decode_encode hi).symm.trans ((congrArg decode h).trans (decode_encode hj)))

section
variable {p : Part} {a b : Arch} {delay lo hi : Half} {ws : List Word}

/-! ### The staging writes -/

theorem Arch.sameButStaged.trans {d : Arch} (h : a.sameButStaged b) (h' : b.sameButStaged d) : a.sameButStaged d := by
  obtain ⟨g, s, rfl⟩ := h.exists_staged
  exact h'

/-- The staging writes of a boot. -/
def stagings (delay lo hi : Half) : List Instr := [.setdly delay, .setgl lo, .setgh hi]

/-- The words are staging writes of a boot, in any order and number. -/
def areStagings (delay lo hi : Half) (ws : List Word) : Prop := ∀ w ∈ ws, ∃ i ∈ stagings delay lo hi, w = encode i

theorem areStagings_of_subset (h : ws ⊆ (stagings delay lo hi).map encode) : areStagings delay lo hi ws := by
  intro w hw
  obtain ⟨i, hi, rfl⟩ := List.mem_map.1 (h hw)
  exact ⟨i, hi, rfl⟩

theorem low_half_append (hi lo : Half) : (hi ++ lo : BitVec (16 + 16)).extractLsb 15 0 = lo := BitVec.extractLsb'_append_eq_right

theorem high_half_append (hi lo : Half) : (hi ++ lo : BitVec (16 + 16)).extractLsb 31 16 = hi := BitVec.extractLsb'_append_eq_left

/-- A gain word is its two halves. -/
theorem append_halves (g : Word) : (g.extractLsb 31 16 ++ g.extractLsb 15 0 : BitVec (16 + 16)) = g :=
  BitVec.extractLsb'_append_extractLsb'

/-- What one staging write of a boot does: it stages its value and leaves the others. -/
theorem cfcStep_staging {i : Instr} (hi' : i ∈ stagings delay lo hi) :
    a.sameButStaged (cfcStep p a (encode i)).1 ∧
      (i = .setdly delay ∨ a.sdelay = delay → (cfcStep p a (encode i)).1.sdelay = delay) ∧
      (i = .setgl lo ∨ a.sgain.extractLsb 15 0 = lo → (cfcStep p a (encode i)).1.sgain.extractLsb 15 0 = lo) ∧
      (i = .setgh hi ∨ a.sgain.extractLsb 31 16 = hi → (cfcStep p a (encode i)).1.sgain.extractLsb 31 16 = hi) := by
  simp only [stagings, List.mem_cons, List.not_mem_nil, or_false] at hi'
  rcases hi' with rfl | rfl | rfl
  · rw [cfcStep_of_pass (decode_encode rfl) (firstFailure_setdly p a _)]
    simp [perform]
  · rw [cfcStep_of_pass (decode_encode rfl) (firstFailure_setgl p a _)]
    simp [perform, low_half_append, high_half_append]
  · rw [cfcStep_of_pass (decode_encode rfl) (firstFailure_setgh p a _)]
    simp [perform, low_half_append, high_half_append]

/-- What a run of staging writes of a boot does: each value that is among them stands in its place, in whatever order they come. -/
theorem cfcRun_stagings (h : areStagings delay lo hi ws) :
    a.sameButStaged (cfcRun p a ws).1 ∧
      (encode (.setdly delay) ∈ ws ∨ a.sdelay = delay → (cfcRun p a ws).1.sdelay = delay) ∧
      (encode (.setgl lo) ∈ ws ∨ a.sgain.extractLsb 15 0 = lo → (cfcRun p a ws).1.sgain.extractLsb 15 0 = lo) ∧
      (encode (.setgh hi) ∈ ws ∨ a.sgain.extractLsb 31 16 = hi → (cfcRun p a ws).1.sgain.extractLsb 31 16 = hi) := by
  induction ws generalizing a with
  | nil => simp
  | cons w ws ih =>
    obtain ⟨⟨i, hi', rfl⟩, hrest⟩ := List.forall_mem_cons.1 h
    obtain ⟨hstate, hdelay, hlo, hhi⟩ := cfcStep_staging (p := p) (a := a) hi'
    obtain ⟨hstate', hdelay', hlo', hhi'⟩ := ih (a := (cfcStep p a (encode i)).1) hrest
    have hwf : i.wf = true := by
      revert hi'
      cases i <;> simp [stagings, Instr.wf]
    have hfirst {j : Instr} (hj : j.wf = true) {P : Prop} (hP : encode j ∈ encode i :: ws ∨ P) : (i = j ∨ P) ∨ encode j ∈ ws := by
      rcases hP with hmem | hP
      · exact (List.mem_cons.1 hmem).imp (fun heq => .inl (encode_inj hwf hj heq.symm)) id
      · exact .inl (.inr hP)
    exact ⟨hstate.trans hstate', fun h => hdelay' ((hfirst rfl h).symm.imp_right hdelay),
      fun h => hlo' ((hfirst rfl h).symm.imp_right hlo), fun h => hhi' ((hfirst rfl h).symm.imp_right hhi)⟩

/-- All three staging writes, in any order, stage all of the delay and the gain. -/
theorem cfcRun_of_perm_stagings (h : ws.Perm ((stagings delay lo hi).map encode)) (p : Part) (a : Arch) :
    (cfcRun p a ws).1 = { a with sdelay := delay, sgain := (hi ++ lo : BitVec (16 + 16)) } := by
  have hmem {i : Instr} (hi' : i ∈ stagings delay lo hi) : encode i ∈ ws := h.mem_iff.2 (List.mem_map_of_mem hi')
  obtain ⟨hstate, hdelay, hlo, hhi⟩ := cfcRun_stagings (p := p) (a := a) (areStagings_of_subset h.subset)
  rw [← hstate, hdelay (.inl (hmem (by simp [stagings]))), ← hlo (.inl (hmem (by simp [stagings]))),
    ← hhi (.inl (hmem (by simp [stagings]))), append_halves]

/-! ### Before CONS -/

/-- With no filter the filtering commands fail. -/
theorem codes_of_unconfigured (hcfg : a.configured = false) (hact : a.blkActive = false) (c : Channel) (x : Half) (m : BitVec 7) :
    responseCODE (cfcStep p a (encode (.filt c x))).2 = 4 ∧ responseCODE (cfcStep p a (encode (.dlrd c))).2 = 4 ∧
      responseCODE (cfcStep p a (encode (.dlwr c x))).2 = 4 ∧ responseCODE (cfcStep p a (encode (.rdcur c))).2 = 4 ∧
      responseCODE (cfcStep p a (encode (.blk m x))).2 = 4 ∧ responseCODE (cfcStep p a (encode (.smp x))).2 = 7 := by
  have hcode {i : Instr} (hi : i.wf = true) := responseCODE_cfcStep (p := p) (a := a) (decode_encode hi)
  refine ⟨?_, ?_, ?_, ?_, ?_, ?_⟩
  all_goals
    rw [hcode rfl]
    simp [hcfg, hact, codeBits]

/-- A boot starts with no filter and no block. -/
theorem idle_of_boot (h : (∃ dl cur, a = Arch.afterReset dl cur) ∨ ∃ b, a = (cfcStep p b (encode .dstr)).1) :
    a.configured = false ∧ a.blkActive = false := by
  rcases h with ⟨dl, cur, rfl⟩ | ⟨b, rfl⟩
  · exact ⟨rfl, rfl⟩
  · rw [cfcStep_of_pass (decode_encode rfl) (firstFailure_dstr p b)]
    exact ⟨rfl, rfl⟩

/-! ### The host's Construction -/

/-- Construction with a delay, a gain word and a channel count that has a word stages the two and sends CONS, whose response is the
outcome. -/
theorem hostConstruct_eq {rate : Int} {frequency gain : Rat} {n : Nat} {d : Half} {g : Word}
    (hd : deriveDelay rate frequency = .ok d) (hg : gainWordOf gain = .ok g) (hn : n ≤ 65535) (k : Kind) :
    hostConstruct p a rate frequency gain n k =
      ((cfcStep p { a with sdelay := d, sgain := g } (encode (.cons k (BitVec.ofNat 16 n)))).1,
        if responseCODE (cfcStep p { a with sdelay := d, sgain := g } (encode (.cons k (BitVec.ofNat 16 n)))).2 = 0 then .ok ()
        else .error (hostErrorOf
          (responseCODE (cfcStep p { a with sdelay := d, sgain := g } (encode (.cons k (BitVec.ofNat 16 n)))).2))) := by
  have hstaged := cfcRun_of_perm_stagings (List.Perm.refl ((stagings d (g.extractLsb 15 0) (g.extractLsb 31 16)).map encode)) p a
  rw [append_halves] at hstaged
  have hwords : (configCommands k (BitVec.ofNat 16 n) d g).map encode =
      (stagings d (g.extractLsb 15 0) (g.extractLsb 31 16)).map encode ++ [encode (.cons k (BitVec.ofNat 16 n))] := rfl
  simp only [hostConstruct, constructionCommands, hd, hg, if_neg (Nat.not_lt_of_le hn), hwords, cfcRun_append, hstaged, cfcRun_cons,
    cfcRun_nil, List.getLastD_concat]

/-- A Construction whose CONS fails leaves the staged values, and reports the code. -/
theorem hostConstruct_of_failure {rate : Int} {frequency gain : Rat} {n : Nat} {d : Half} {g : Word} {k : Kind} {code : Code}
    (hd : deriveDelay rate frequency = .ok d) (hg : gainWordOf gain = .ok g) (hn : n ≤ 65535)
    (hf : firstFailure p { a with sdelay := d, sgain := g } (.cons k (BitVec.ofNat 16 n)) = some code) :
    hostConstruct p a rate frequency gain n k = ({ a with sdelay := d, sgain := g }, .error (hostErrorOf (codeBits code))) := by
  have hcode : codeBits code ≠ 0 := fun h => firstFailure_ne_ok p _ _ (hf.trans (congrArg some ((codeBits_eq_zero_iff code).1 h)))
  rw [hostConstruct_eq hd hg hn k, cfcStep_of_failure (decode_encode_cons k _) hf, responseCODE_responseWord, if_neg hcode]

end

/-- Settles O57: the staging writes touch no register that the checks of the filtering commands read, and stage what CONS takes. -/
theorem bootSequenceBuildsTheFilter : Obligations.BootSequenceBuildsTheFilter := by
  refine ⟨?boot, ?unstaged, ?construction⟩
  case boot =>
    intro p a delay lo hi n k ws hp hstart hd1 hdmax hn1 hnmax hperm
    obtain ⟨hcfg, hact⟩ := idle_of_boot hstart
    refine ⟨fun pre hpre c x m => ?_, ?_⟩
    · obtain ⟨hstate, -⟩ := cfcRun_stagings (p := p) (a := a) (areStagings_of_subset fun w hw => hperm.subset (hpre.subset hw))
      have hcfg' : a.configured = (cfcRun p a pre).1.configured := (congrArg Arch.configured hstate :)
      have hact' : a.blkActive = (cfcRun p a pre).1.blkActive := (congrArg Arch.blkActive hstate :)
      exact codes_of_unconfigured (hcfg'.symm.trans hcfg) (hact'.symm.trans hact) c x m
    · have hpass : firstFailure p { a with sdelay := delay, sgain := (hi ++ lo : BitVec (16 + 16)) } (.cons k n) = none :=
        (firstFailure_cons_eq_none_iff k).2 ⟨hact, ⟨hd1, hdmax⟩, hn1, hnmax⟩
      rw [cfcRun_of_perm_stagings hperm, cfcStep_cons_of_pass hpass, hact]
      have hresponse : responseWord 0x4 .ok false true 0 = 0x40400000 := by decide
      exact ⟨hresponse, rfl, rfl, Arch.construct_nch_toNat hnmax k, rfl, rfl⟩
  case unstaged =>
    intro p dl cur k n
    rw [responseCODE_cfcStep (decode_encode_cons k n)]
    rfl
  case construction =>
    intro p a rate frequency gain n k hp
    refine ⟨fun e he => ?_, fun d hd => ⟨fun e he => ?_, fun g hg => ?_⟩⟩
    · simp only [hostConstruct, constructionCommands, he]
    · simp only [hostConstruct, constructionCommands, hd, he]
    · refine ⟨fun hn => ?large, fun hn hact => ?blockActive, fun hn hact hdelay => ?delay, fun hn hact hdelay hcount => ?count,
        fun hact hdelay hn1 hnmax => ?success⟩
      case large => simp only [hostConstruct, constructionCommands, hd, hg, if_pos hn]
      case blockActive => exact hostConstruct_of_failure hd hg hn (code := .blockActive) (by simp [hact])
      case delay =>
        refine hostConstruct_of_failure hd hg hn (code := .invalidDelay) ?_
        rw [firstFailure_cons, hact, if_neg Bool.false_ne_true, if_pos (.inr hdelay)]
      case count =>
        have hd1 : 1 ≤ d.toNat := ((deriveDelay_eq_ok_iff rate frequency d).1 hd).2.2.1
        have hn16 : (BitVec.ofNat 16 n).toNat = n := Nat.mod_eq_of_lt (by omega)
        refine hostConstruct_of_failure hd hg hn (code := .invalidChannelCount) ?_
        rw [firstFailure_cons, hact, if_neg Bool.false_ne_true, if_neg (by simp only; omega), if_pos (by omega)]
      case success =>
        have hmax := p.maxCh.isLt
        have hd1 : 1 ≤ d.toNat := ((deriveDelay_eq_ok_iff rate frequency d).1 hd).2.2.1
        have hn16 : (BitVec.ofNat 16 n).toNat = n := Nat.mod_eq_of_lt (by omega)
        have hpass : firstFailure p { a with sdelay := d, sgain := g } (.cons k (BitVec.ofNat 16 n)) = none :=
          (firstFailure_cons_eq_none_iff k).2 ⟨hact, ⟨hd1, hdelay⟩, by omega, by omega⟩
        have hnch := Arch.construct_nch_toNat (a := { a with sdelay := d, sgain := g }) (hn16.le.trans hnmax) k
        rw [hostConstruct_eq hd hg (by omega) k, cfcStep_cons_of_pass hpass, responseCODE_responseWord]
        refine ⟨rfl, rfl, rfl, hnch.trans hn16, rfl, rfl, rfl, rfl, fun ws hperm => ?_⟩
        have hstaged := cfcRun_of_perm_stagings hperm p a
        rw [append_halves] at hstaged
        rw [cfcRun_append, hstaged, cfcRun_cons, cfcStep_cons_of_pass hpass]
        rfl

end Sys2Proof.Machine
end

section
/-! SUPPORT. The lexis of the assembler (30_encoding.md R85): a line of a mnemonic and operands reads as that mnemonic with those
operands, and an operand text reads as its value. -/

namespace Sys2Proof.Machine

/-! ### Lines -/

/-- A character that stands for itself in a mnemonic or an operand. -/
def isPlain (c : Char) : Bool := !isBlank c && c != ',' && c != ';'

/-- A mnemonic or an operand: plain characters, at least one. -/
structure isToken (l : List Char) : Prop where
  ne_nil : l ≠ []
  plain : ∀ c ∈ l, isPlain c = true

/-- The operands after the first one, a comma and a space before each. -/
def moreOperands : List (List Char) → List Char
  | [] => []
  | op :: ops => ',' :: ' ' :: (op ++ moreOperands ops)

/-- The line of a mnemonic and operands. -/
def lineWith (mnemonic : List Char) : List (List Char) → List Char
  | [] => mnemonic
  | op :: ops => mnemonic ++ ' ' :: (op ++ moreOperands ops)

/-- A text that neither begins nor ends with a blank. -/
structure isSolid (l : List Char) : Prop where
  first : ∃ c t, l = c :: t ∧ isBlank c = false
  last : ∃ t c, l = t ++ [c] ∧ isBlank c = false

section
variable {l m : List Char}

theorem isPlain_iff {c : Char} : isPlain c = true ↔ isBlank c = false ∧ c ≠ ',' ∧ c ≠ ';' := by
  simp [isPlain, and_assoc]

theorem isToken.isSolid (h : isToken l) : isSolid l := by
  have hblank : ∀ c ∈ l, isBlank c = false := fun c hc => (isPlain_iff.1 (h.plain c hc)).1
  refine ⟨?_, ?_⟩
  · obtain ⟨c, t, rfl⟩ := List.exists_cons_of_ne_nil h.ne_nil
    exact ⟨c, t, rfl, hblank c List.mem_cons_self⟩
  · obtain ⟨t, c, rfl⟩ := (List.eq_nil_or_concat l).resolve_left h.ne_nil
    exact ⟨t, c, by simp, hblank c (by simp)⟩

/-- What stands between two solid texts does not matter. -/
theorem isSolid.append (h : isSolid l) (h' : isSolid m) (between : List Char) : isSolid (l ++ (between ++ m)) := by
  obtain ⟨c, t, rfl, hc⟩ := h.first
  obtain ⟨t', c', rfl, hc'⟩ := h'.last
  exact ⟨⟨c, _, rfl, hc⟩, ⟨c :: t ++ (between ++ t'), c', by simp, hc'⟩⟩

theorem trimBlanks_of_isSolid (h : isSolid l) : trimBlanks l = l := by
  obtain ⟨⟨c, t, hfirst, hc⟩, ⟨t', c', hlast, hc'⟩⟩ := h
  have hfront : l.dropWhile isBlank = l := by rw [hfirst, List.dropWhile_cons_of_neg (by simp [hc])]
  have hback : l.reverse.dropWhile isBlank = l.reverse := by
    rw [hlast, List.reverse_append, List.reverse_singleton, List.singleton_append, List.dropWhile_cons_of_neg (by simp [hc'])]
  rw [trimBlanks, hfront, hback, List.reverse_reverse]

/-- A space before a solid text is trimmed. -/
theorem trimBlanks_space (h : isSolid l) : trimBlanks (' ' :: l) = l := by
  rw [trimBlanks, List.dropWhile_cons_of_pos (by decide), ← trimBlanks, trimBlanks_of_isSolid h]

/-- A text without commas is one piece. -/
theorem splitCommas_append (hl : ',' ∉ l) : splitCommas (l ++ ',' :: m) = l :: splitCommas m := by
  induction l with
  | nil => simp [splitCommas]
  | cons c l ih =>
    obtain ⟨hc, hl⟩ := not_or.1 (List.mem_cons.not.1 hl)
    rw [List.cons_append, splitCommas, if_neg (Ne.symm hc), ih hl]

theorem splitCommas_of_not_mem (hl : ',' ∉ l) : splitCommas l = [l] := by
  induction l with
  | nil => rfl
  | cons c l ih =>
    obtain ⟨hc, hl⟩ := not_or.1 (List.mem_cons.not.1 hl)
    rw [splitCommas, if_neg (Ne.symm hc), ih hl]

theorem isToken.comma_not_mem (h : isToken l) : ',' ∉ l := fun hc => (isPlain_iff.1 (h.plain _ hc)).2.1 rfl

theorem isToken.semicolon_not_mem (h : isToken l) : ';' ∉ l := fun hc => (isPlain_iff.1 (h.plain _ hc)).2.2 rfl

end

section
variable {mnemonic op : List Char} {ops : List (List Char)}

theorem isSolid_operands (hop : isSolid op) (hops : ∀ l ∈ ops, isToken l) : isSolid (op ++ moreOperands ops) := by
  induction ops generalizing op with
  | nil => simpa [moreOperands] using hop
  | cons l ops ih =>
    obtain ⟨hl, hrest⟩ := List.forall_mem_cons.1 hops
    simpa [moreOperands] using ih (hop.append hl.isSolid [',', ' ']) hrest

/-- The operands come apart at the commas, the first as it is and each other one after its space. -/
theorem splitCommas_operands (hop : ',' ∉ op) (hops : ∀ l ∈ ops, isToken l) :
    splitCommas (op ++ moreOperands ops) = op :: ops.map (' ' :: ·) := by
  induction ops generalizing op with
  | nil => simpa [moreOperands] using splitCommas_of_not_mem hop
  | cons l ops ih =>
    obtain ⟨hl, hrest⟩ := List.forall_mem_cons.1 hops
    have hspace : ',' ∉ ' ' :: l := by simpa using hl.comma_not_mem
    simpa [moreOperands] using (splitCommas_append hop).trans (congrArg (op :: ·) (ih hspace hrest))

theorem semicolon_not_mem_moreOperands (hops : ∀ l ∈ ops, isToken l) : ';' ∉ moreOperands ops := by
  induction ops with
  | nil => simp [moreOperands]
  | cons l ops ih =>
    obtain ⟨hl, hrest⟩ := List.forall_mem_cons.1 hops
    simp [moreOperands, hl.semicolon_not_mem, ih hrest]

theorem semicolon_not_mem_lineWith (hmn : isToken mnemonic) (hops : ∀ l ∈ ops, isToken l) : ';' ∉ lineWith mnemonic ops := by
  cases ops with
  | nil => exact hmn.semicolon_not_mem
  | cons op ops =>
    obtain ⟨hop, hops⟩ := List.forall_mem_cons.1 hops
    simp [lineWith, hmn.semicolon_not_mem, hop.semicolon_not_mem, semicolon_not_mem_moreOperands hops]

theorem isSolid_lineWith (hmn : isToken mnemonic) (hops : ∀ l ∈ ops, isToken l) : isSolid (lineWith mnemonic ops) := by
  cases ops with
  | nil => exact hmn.isSolid
  | cons op ops =>
    obtain ⟨hop, hops⟩ := List.forall_mem_cons.1 hops
    exact hmn.isSolid.append (isSolid_operands hop.isSolid hops) [' ']

/-- A line reads as its mnemonic with its operands. -/
theorem assembleLine_lineWith (hmn : isToken mnemonic) (hops : ∀ l ∈ ops, isToken l) :
    assembleLine (lineWith mnemonic ops) = assembleCommand mnemonic ops := by
  have htext : trimBlanks ((lineWith mnemonic ops).takeWhile (· ≠ ';')) = lineWith mnemonic ops := by
    rw [List.takeWhile_eq_self_iff.2 fun c hc => by
      simpa using fun h : c = ';' => semicolon_not_mem_lineWith hmn hops (h ▸ hc)]
    exact trimBlanks_of_isSolid (isSolid_lineWith hmn hops)
  have hne : lineWith mnemonic ops ≠ [] := by
    obtain ⟨c, t, h, -⟩ := (isSolid_lineWith hmn hops).first
    simp [h]
  have hword : ∀ c ∈ mnemonic, (!isBlank c) = true := fun c hc => by simpa using (isPlain_iff.1 (hmn.plain c hc)).1
  simp only [assembleLine, htext, if_neg hne]
  cases ops with
  | nil =>
    have htake : mnemonic.takeWhile (fun c => !isBlank c) = mnemonic := List.takeWhile_eq_self_iff.2 hword
    have hdrop : mnemonic.dropWhile (fun c => !isBlank c) = [] := List.dropWhile_eq_nil_iff.2 hword
    simp [lineWith, htake, hdrop, trimBlanks]
  | cons op ops =>
    obtain ⟨hop, hops⟩ := List.forall_mem_cons.1 hops
    have hsolid := isSolid_operands hop.isSolid hops
    have hrest : op ++ moreOperands ops ≠ [] := by simp [hop.ne_nil]
    have hpieces : (ops.map (' ' :: ·)).map trimBlanks = ops := by
      rw [List.map_map]
      exact (List.map_congr_left fun l hl => trimBlanks_space (hops l hl).isSolid).trans (List.map_id _)
    have htake : (lineWith mnemonic (op :: ops)).takeWhile (fun c => !isBlank c) = mnemonic := by
      rw [lineWith, List.takeWhile_append_of_pos hword, List.takeWhile_cons_of_neg (by decide), List.append_nil]
    have hdrop : (lineWith mnemonic (op :: ops)).dropWhile (fun c => !isBlank c) = ' ' :: (op ++ moreOperands ops) := by
      rw [lineWith, List.dropWhile_append_of_pos hword, List.dropWhile_cons_of_neg (by decide)]
    rw [htake, hdrop, trimBlanks_space hsolid, if_neg hrest, splitCommas_operands hop.comma_not_mem hops, List.map_cons, hpieces,
      trimBlanks_of_isSolid hop.isSolid]

/-- A comment is not read. -/
theorem assembleLine_comment (line comment : List Char) : assembleLine (line ++ ';' :: comment) = assembleLine line := by
  have htake : (line ++ ';' :: comment).takeWhile (· ≠ ';') = line.takeWhile (· ≠ ';') := by
    induction line with
    | nil => simp
    | cons c line ih =>
      by_cases hc : c = ';'
      · simp [hc]
      · simpa [hc] using ih
  simp only [assembleLine, htake]

end

end Sys2Proof.Machine
end

section
/-! SUPPORT. The operands of the assembler (30_encoding.md R85, R86): each text that the claims write reads as the value it
stands for. -/

namespace Sys2Proof.Machine

/-! ### Digits -/

theorem hexDigit_hexChar : ∀ v < 16, hexDigit (hexChar v) = some v := by decide

theorem decDigit_hexChar : ∀ v < 10, decDigit (hexChar v) = some v := by decide

theorem isPlain_hexChar : ∀ v < 16, isPlain (hexChar v) = true := by decide

/-- A digit is neither the `x` of a hexadecimal number, nor a sign, nor a point. -/
theorem hexChar_ne : ∀ v < 16, hexChar v ≠ 'x' ∧ hexChar v ≠ '-' ∧ hexChar v ≠ '.' := by decide

theorem readDigits_append (base : Nat) (digit : Char → Option Nat) (l m : List Char) (acc : Nat) :
    readDigits base digit acc (l ++ m) = (readDigits base digit acc l).bind fun acc => readDigits base digit acc m := by
  induction l generalizing acc with
  | nil => rfl
  | cons c l ih =>
    simp only [List.cons_append, readDigits]
    cases digit c with
    | none => rfl
    | some d => exact ih _

theorem readHex_of_not_mem {l : List Char} (h : 'x' ∉ l) : readHex l = none := by
  unfold readHex
  split
  · simp at h
  · rfl

/-! ### Hexadecimal fields -/

/-- The digits of a 16-bit field. -/
def hexDigits (v : Half) : List Char := (hexField v).drop 2

theorem hexField_eq (v : Half) : hexField v = '0' :: 'x' :: hexDigits v := rfl

theorem readDigits_hexDigits (v : Half) (acc : Nat) :
    readDigits 16 hexDigit acc (hexDigits v) = some (acc * 65536 + v.toNat) := by
  have hv := v.isLt
  simp only [hexDigits, hexField, List.drop_succ_cons, List.drop_zero, readDigits, hexDigit_hexChar _ (Nat.mod_lt _ (by decide)),
    hexDigit_hexChar (v.toNat / 4096) (by omega), Option.some.injEq]
  omega

theorem exists_of_mem_hexDigits {v : Half} {c : Char} (h : c ∈ hexDigits v) : ∃ d < 16, c = hexChar d := by
  have hv := v.isLt
  simp only [hexDigits, hexField, List.drop_succ_cons, List.drop_zero, List.mem_cons, List.not_mem_nil, or_false] at h
  rcases h with rfl | rfl | rfl | rfl
  · exact ⟨_, by omega, rfl⟩
  · exact ⟨_, Nat.mod_lt _ (by decide), rfl⟩
  · exact ⟨_, Nat.mod_lt _ (by decide), rfl⟩
  · exact ⟨_, Nat.mod_lt _ (by decide), rfl⟩

theorem isPlain_of_mem_hexDigits (v : Half) : ∀ c ∈ hexDigits v, isPlain c = true := by
  intro c hc
  obtain ⟨d, hd, rfl⟩ := exists_of_mem_hexDigits hc
  exact isPlain_hexChar d hd

theorem point_not_mem_hexDigits (v : Half) : '.' ∉ hexDigits v := fun h => by
  obtain ⟨d, hd, heq⟩ := exists_of_mem_hexDigits h
  exact (hexChar_ne d hd).2.2 heq.symm

theorem isToken_hexField (v : Half) : isToken (hexField v) := by
  rw [hexField_eq]
  refine ⟨List.cons_ne_nil _ _, ?_⟩
  simp only [List.forall_mem_cons]
  exact ⟨by decide, by decide, isPlain_of_mem_hexDigits v⟩

theorem readHex_hexField (v : Half) : readHex (hexField v) = some v.toNat := by
  have hread := readDigits_hexDigits v 0
  rw [Nat.zero_mul, Nat.zero_add] at hread
  exact hread

theorem readUnsigned_hexField (v : Half) : readUnsigned (hexField v) = some v.toNat := by
  rw [readUnsigned, readHex_hexField]

theorem sampleOperand_hexField (v : Half) : sampleOperand (hexField v) = some v := by
  simp only [sampleOperand, readHex_hexField]
  simp [v.isLt]

theorem countOperand_hexField (v : Half) : countOperand 16 (hexField v) = some v := by
  rw [countOperand, readUnsigned_hexField]
  simp [v.isLt]

/-- A field of 7 bits, written with four digits. -/
theorem countOperand_hexField_setWidth (n : BitVec 7) : countOperand 7 (hexField (n.setWidth 16)) = some n := by
  have hn := n.isLt
  have hvalue : (n.setWidth 16 : Half).toNat = n.toNat := by rw [BitVec.toNat_setWidth]; omega
  rw [countOperand, readUnsigned_hexField, hvalue]
  simp [hn]

theorem selectorOperand_hexField {sel : BitVec 4} (h : sel.toNat ≤ 13) :
    selectorOperand (hexField (sel.setWidth 16)) = some sel := by
  have hvalue : (sel.setWidth 16 : Half).toNat = sel.toNat := by rw [BitVec.toNat_setWidth]; omega
  rw [selectorOperand, readUnsigned_hexField, hvalue]
  simp [h]

/-- A gain word is written as its two halves. -/
theorem hexWord_eq (g : Word) : hexWord g = '0' :: 'x' :: (hexDigits (g.extractLsb 31 16) ++ hexDigits (g.extractLsb 15 0)) := rfl

theorem isPlain_of_mem_hexWord (g : Word) : ∀ c ∈ hexWord g, isPlain c = true := by
  rw [hexWord_eq]
  simp only [List.forall_mem_cons, List.forall_mem_append]
  exact ⟨by decide, by decide, isPlain_of_mem_hexDigits _, isPlain_of_mem_hexDigits _⟩

theorem isToken_hexWord (g : Word) : isToken (hexWord g) := ⟨List.cons_ne_nil _ _, isPlain_of_mem_hexWord g⟩

theorem readHex_hexWord (g : Word) : readHex (hexWord g) = some g.toNat := by
  have hread : readHex (hexWord g) =
      readDigits 16 hexDigit 0 (hexDigits (g.extractLsb 31 16) ++ hexDigits (g.extractLsb 15 0)) := rfl
  rw [hread, readDigits_append, readDigits_hexDigits, Option.bind_some, readDigits_hexDigits]
  simp only [BitVec.extractLsb_toNat, Nat.shiftRight_eq_div_pow, Option.some.injEq]
  omega

theorem gainOperand_hexWord (g : Word) : gainOperand (hexWord g) = some g := by
  have hpoint : '.' ∉ hexWord g := by simp [hexWord_eq, point_not_mem_hexDigits]
  simp only [gainOperand, if_neg hpoint, countOperand, readUnsigned, readHex_hexWord]
  simp [g.isLt]

/-! ### Kinds and channels -/

theorem kindOperand_kindText (k : Kind) : kindOperand (kindText k) = some k := by cases k <;> decide

theorem isToken_kindText (k : Kind) : isToken (kindText k) := by
  have hplain : ∀ k, (kindText k).all isPlain = true ∧ kindText k ≠ [] := by
    intro k
    cases k <;> decide
  exact ⟨(hplain k).2, List.all_eq_true.1 (hplain k).1⟩

theorem channelOperand_channelText : ∀ c : Channel, channelOperand (channelText c) = some c := by decide

theorem isToken_channelText (c : Channel) : isToken (channelText c) := by
  have hplain : ∀ c : Channel, (channelText c).all isPlain = true ∧ channelText c ≠ [] := by decide
  exact ⟨(hplain c).2, List.all_eq_true.1 (hplain c).1⟩

/-! ### Decimal numbers -/

section
variable {ds : List (Fin 10)}

theorem readDigits_digitsText (ds : List (Fin 10)) (acc : Nat) :
    readDigits 10 decDigit acc (digitsText ds) = some (ds.foldl (fun v d => v * 10 + d.val) acc) := by
  induction ds generalizing acc with
  | nil => rfl
  | cons d ds ih =>
    rw [digitsText, List.map_cons, readDigits, decDigit_hexChar d.val d.isLt]
    exact ih _

theorem isToken_digitsText (h : ds ≠ []) : isToken (digitsText ds) := by
  refine ⟨by simpa [digitsText] using h, ?_⟩
  rw [digitsText, List.forall_mem_map]
  exact fun d _ => isPlain_hexChar d.val (by omega)

theorem readDec_digitsText (h : ds ≠ []) : readDec (digitsText ds) = some (digitsValue ds) := by
  rw [readDec, if_neg (isToken_digitsText h).ne_nil]
  exact readDigits_digitsText ds 0

/-- Decimal digits are none of the other characters of numbers. -/
theorem not_mem_digitsText (ds : List (Fin 10)) : 'x' ∉ digitsText ds ∧ '-' ∉ digitsText ds ∧ '.' ∉ digitsText ds := by
  simp only [digitsText, List.mem_map, not_exists, not_and]
  exact ⟨fun d _ => (hexChar_ne d.val (by omega)).1, fun d _ => (hexChar_ne d.val (by omega)).2.1,
    fun d _ => (hexChar_ne d.val (by omega)).2.2⟩

theorem readUnsigned_digitsText (h : ds ≠ []) : readUnsigned (digitsText ds) = some (digitsValue ds) := by
  rw [readUnsigned, readHex_of_not_mem (not_mem_digitsText ds).1]
  exact readDec_digitsText h

theorem countOperand_digitsText (h : ds ≠ []) (bits : Nat) :
    countOperand bits (digitsText ds) = if digitsValue ds < 2 ^ bits then some (BitVec.ofNat bits (digitsValue ds)) else none := by
  rw [countOperand, readUnsigned_digitsText h]

theorem selectorOperand_digitsText (h : ds ≠ []) :
    selectorOperand (digitsText ds) = if digitsValue ds ≤ 13 then some (BitVec.ofNat 4 (digitsValue ds)) else none := by
  rw [selectorOperand, readUnsigned_digitsText h]

theorem channelOperand_digitsText (h : ds ≠ []) :
    channelOperand ('c' :: 'h' :: digitsText ds) =
      if digitsValue ds < 16 then some (BitVec.ofNat 4 (digitsValue ds)) else none := by
  rw [channelOperand, readDec_digitsText h]

theorem sampleOperand_digitsText (h : ds ≠ []) :
    sampleOperand (digitsText ds) = if digitsValue ds ≤ 32767 then some (BitVec.ofNat 16 (digitsValue ds)) else none := by
  obtain ⟨hx, hminus, -⟩ := not_mem_digitsText ds
  have hread := readDec_digitsText h
  unfold sampleOperand
  rw [readHex_of_not_mem hx]
  generalize digitsText ds = l at hminus hread
  simp only
  split
  · simp at hminus
  · rw [hread]
    simp [bits16]

theorem sampleOperand_minus_digitsText (h : ds ≠ []) :
    sampleOperand ('-' :: digitsText ds) =
      if digitsValue ds ≤ 32768 then some (BitVec.ofInt 16 (-(digitsValue ds : Int))) else none := by
  have hx : 'x' ∉ '-' :: digitsText ds := by simpa using (not_mem_digitsText ds).1
  simp only [sampleOperand, readHex_of_not_mem hx, readDec_digitsText h]
  rfl

/-! ### Reals -/

section
variable {whole fraction : List (Fin 10)}

theorem takeWhile_point (whole : List (Fin 10)) (rest : List Char) :
    (digitsText whole ++ '.' :: rest).takeWhile (· ≠ '.') = digitsText whole ∧
      (digitsText whole ++ '.' :: rest).dropWhile (· ≠ '.') = '.' :: rest := by
  have hdigits : ∀ c ∈ digitsText whole, decide (c ≠ '.') = true := fun c hc => by
    simpa using fun h : c = '.' => (not_mem_digitsText whole).2.2 (h ▸ hc)
  rw [List.takeWhile_append_of_pos hdigits, List.dropWhile_append_of_pos hdigits]
  simp

theorem readReal_realText (hw : whole ≠ []) (hf : fraction ≠ []) :
    readReal (digitsText whole ++ '.' :: digitsText fraction) = some (realValue false whole fraction) := by
  obtain ⟨htake, hdrop⟩ := takeWhile_point whole (digitsText fraction)
  have hlength : (digitsText fraction).length = fraction.length := List.length_map _
  simp only [readReal, htake, hdrop, List.drop_succ_cons, List.drop_zero, readDec_digitsText hw, readDec_digitsText hf, hlength]
  rfl

theorem isToken_realText (negative : Bool) (hw : whole ≠ []) (hf : fraction ≠ []) :
    isToken (realText negative whole fraction) := by
  refine ⟨by simp [realText], ?_⟩
  simp only [realText, List.forall_mem_append, List.forall_mem_cons]
  have hminus : isPlain '-' = true := by decide
  have hsign : ∀ c ∈ (if negative then ['-'] else []), isPlain c = true := by cases negative <;> simp [hminus]
  exact ⟨⟨hsign, (isToken_digitsText hw).plain⟩, by decide, (isToken_digitsText hf).plain⟩

/-- A real with a sign is the negated one of the rest. -/
theorem gainOperand_minus {l : List Char} {v : Rat} (hpoint : '.' ∈ l) (hread : readReal l = some v) :
    gainOperand ('-' :: l) = (gainWordOf (-v)).toOption := by
  simp only [gainOperand, List.mem_cons_of_mem _ hpoint, if_true, hread, Option.map_some]

theorem gainOperand_of_not_minus {l : List Char} {v : Rat} (hminus : ∀ t, l ≠ '-' :: t) (hpoint : '.' ∈ l)
    (hread : readReal l = some v) : gainOperand l = (gainWordOf v).toOption := by
  unfold gainOperand
  split
  · split
    next t _ => exact absurd rfl (hminus t)
    next => rw [hread]
  · contradiction

/-- A real reads as the gain word of its value, if it has one. -/
theorem gainOperand_realText (negative : Bool) (hw : whole ≠ []) (hf : fraction ≠ []) :
    gainOperand (realText negative whole fraction) = (gainWordOf (realValue negative whole fraction)).toOption := by
  have hpoint : '.' ∈ digitsText whole ++ '.' :: digitsText fraction := by simp
  have hreal := readReal_realText hw hf
  cases negative with
  | true => exact gainOperand_minus hpoint hreal
  | false =>
    have hminus : ∀ t, digitsText whole ++ '.' :: digitsText fraction ≠ '-' :: t := by
      intro t ht
      have hmem : '-' ∈ digitsText whole ++ '.' :: digitsText fraction := ht ▸ List.mem_cons_self
      simp [(not_mem_digitsText whole).2.1, (not_mem_digitsText fraction).2.1] at hmem
    exact gainOperand_of_not_minus hminus hpoint hreal

end

end

/-! ### Lists of samples -/

theorem allOperands_map_hexField (xs : List Half) : allOperands sampleOperand (xs.map hexField) = some xs := by
  induction xs with
  | nil => rfl
  | cons x xs ih => rw [List.map_cons, allOperands, sampleOperand_hexField, ih]

end Sys2Proof.Machine
end

section
/-! SUPPORT. Each command of the assembler (30_encoding.md R85, R86): how a line of it reads, and what it assembles to when its
operand is a decimal number. -/

namespace Sys2Proof.Machine

/-! ### A line of each command -/

section
variable {mnemonic c d k n f x : List Char} {line : List Char}

theorem isToken_of_all {l : List Char} (h : l.all isPlain = true ∧ l ≠ []) : isToken l := ⟨h.2, List.all_eq_true.1 h.1⟩

theorem assembleLine_one (hmn : mnemonic.all isPlain = true ∧ mnemonic ≠ []) (hd : isToken d)
    (hline : line = mnemonic ++ ' ' :: d) :
    assembleLine line = assembleCommand mnemonic [d] := by
  have h := assembleLine_lineWith (isToken_of_all hmn) (ops := [d]) (by simpa using hd)
  rwa [lineWith, moreOperands, List.append_nil, ← hline] at h

theorem assembleLine_two (hmn : mnemonic.all isPlain = true ∧ mnemonic ≠ []) (hc : isToken c) (hd : isToken d)
    (hline : line = mnemonic ++ ' ' :: (c ++ ',' :: ' ' :: d)) : assembleLine line = assembleCommand mnemonic [c, d] := by
  have h := assembleLine_lineWith (isToken_of_all hmn) (ops := [c, d]) (by simp [hc, hd])
  rwa [lineWith, moreOperands, moreOperands, List.append_nil, ← hline] at h

theorem assembleLine_nop : assembleLine "NOP".toList = some [.nop] := by decide

theorem assembleLine_dstr : assembleLine "DSTR".toList = some [.dstr] := by decide

theorem assembleLine_setgl (hd : isToken d) :
    assembleLine ("SETGL ".toList ++ d) = (countOperand 16 d).map fun d => [Instr.setgl d] :=
  (assembleLine_one (mnemonic := "SETGL".toList) (by decide) hd (by simp)).trans (by simp [assembleCommand])

theorem assembleLine_setgh (hd : isToken d) :
    assembleLine ("SETGH ".toList ++ d) = (countOperand 16 d).map fun d => [Instr.setgh d] :=
  (assembleLine_one (mnemonic := "SETGH".toList) (by decide) hd (by simp)).trans (by simp [assembleCommand])

theorem assembleLine_setdly (hd : isToken d) :
    assembleLine ("SETDLY ".toList ++ d) = (countOperand 16 d).map fun d => [Instr.setdly d] :=
  (assembleLine_one (mnemonic := "SETDLY".toList) (by decide) hd (by simp)).trans (by simp [assembleCommand])

theorem assembleLine_cons (hk : isToken k) (hn : isToken n) :
    assembleLine ("CONS ".toList ++ k ++ ", ".toList ++ n) =
      (kindOperand k).bind fun k => (countOperand 16 n).map fun n => [Instr.cons k n] :=
  (assembleLine_two (mnemonic := "CONS".toList) (by decide) hk hn (by simp)).trans (by simp [assembleCommand])

theorem assembleLine_blk (hn : isToken n) (hf : isToken f) :
    assembleLine ("BLK ".toList ++ n ++ ", ".toList ++ f) =
      (countOperand 7 n).bind fun n => (countOperand 16 f).map fun f => [Instr.blk n f] :=
  (assembleLine_two (mnemonic := "BLK".toList) (by decide) hn hf (by simp)).trans (by simp [assembleCommand])

theorem assembleLine_smp (hx : isToken x) : assembleLine ("SMP ".toList ++ x) = (sampleOperand x).map fun x => [Instr.smp x] :=
  (assembleLine_one (mnemonic := "SMP".toList) (by decide) hx (by simp)).trans (by simp [assembleCommand])

theorem assembleLine_filt (hc : isToken c) (hx : isToken x) :
    assembleLine ("FILT ".toList ++ c ++ ", ".toList ++ x) =
      (channelOperand c).bind fun c => (sampleOperand x).map fun x => [Instr.filt c x] :=
  (assembleLine_two (mnemonic := "FILT".toList) (by decide) hc hx (by simp)).trans (by simp [assembleCommand])

theorem assembleLine_dlrd (hc : isToken c) : assembleLine ("DLRD ".toList ++ c) = (channelOperand c).map fun c => [Instr.dlrd c] :=
  (assembleLine_one (mnemonic := "DLRD".toList) (by decide) hc (by simp)).trans (by simp [assembleCommand])

theorem assembleLine_dlwr (hc : isToken c) (hx : isToken x) :
    assembleLine ("DLWR ".toList ++ c ++ ", ".toList ++ x) =
      (channelOperand c).bind fun c => (sampleOperand x).map fun x => [Instr.dlwr c x] :=
  (assembleLine_two (mnemonic := "DLWR".toList) (by decide) hc hx (by simp)).trans (by simp [assembleCommand])

theorem assembleLine_rdst (hd : isToken d) : assembleLine ("RDST ".toList ++ d) = (selectorOperand d).map fun s => [Instr.rdst s] :=
  (assembleLine_one (mnemonic := "RDST".toList) (by decide) hd (by simp)).trans (by simp [assembleCommand])

theorem assembleLine_rdcur (hc : isToken c) :
    assembleLine ("RDCUR ".toList ++ c) = (channelOperand c).map fun c => [Instr.rdcur c] :=
  (assembleLine_one (mnemonic := "RDCUR".toList) (by decide) hc (by simp)).trans (by simp [assembleCommand])

theorem assembleLine_setgain (hd : isToken d) :
    assembleLine ("SETGAIN ".toList ++ d) = (gainOperand d).map setGainCommands :=
  (assembleLine_one (mnemonic := "SETGAIN".toList) (by decide) hd (by simp)).trans (by simp [assembleCommand])

end

/-! ### Operands that may not fit -/

section
variable {α β : Type} {P : Prop} [Decidable P] {line : List Char} {o : Option α} {o' : Option β} {a : α} {b : β}

theorem assemblesIf_one {mk : α → Instr} (hline : assembleLine line = o.map fun a => [mk a])
    (ho : o = if P then some a else none) : assemblesIf P line (mk a) := by
  rw [assemblesIf, hline, ho]
  by_cases h : P <;> simp [h]

theorem assemblesIf_first {mk : α → β → Instr} (hline : assembleLine line = o.bind fun a => o'.map fun b => [mk a b])
    (ho : o = if P then some a else none) (ho' : o' = some b) : assemblesIf P line (mk a b) := by
  rw [assemblesIf, hline, ho, ho']
  by_cases h : P <;> simp [h]

theorem assemblesIf_second {mk : α → β → Instr} (hline : assembleLine line = o.bind fun a => o'.map fun b => [mk a b])
    (ho : o = some a) (ho' : o' = if P then some b else none) : assemblesIf P line (mk a b) := by
  rw [assemblesIf, hline, ho, ho']
  by_cases h : P <;> simp [h]

end

section
variable {ds : List (Fin 10)} (h : ds ≠ [])
include h

theorem isToken_minus_digitsText : isToken ('-' :: digitsText ds) :=
  ⟨List.cons_ne_nil _ _, List.forall_mem_cons.2 ⟨by decide, (isToken_digitsText h).plain⟩⟩

theorem isToken_ch_digitsText : isToken ('c' :: 'h' :: digitsText ds) :=
  ⟨List.cons_ne_nil _ _,
    List.forall_mem_cons.2 ⟨by decide, List.forall_mem_cons.2 ⟨by decide, (isToken_digitsText h).plain⟩⟩⟩

/-- Decimal halves of the staging writes. -/
theorem assemblesIf_staging :
    assemblesIf (digitsValue ds < 65536) ("SETGL ".toList ++ digitsText ds) (.setgl (BitVec.ofNat 16 (digitsValue ds))) ∧
      assemblesIf (digitsValue ds < 65536) ("SETGH ".toList ++ digitsText ds) (.setgh (BitVec.ofNat 16 (digitsValue ds))) ∧
      assemblesIf (digitsValue ds < 65536) ("SETDLY ".toList ++ digitsText ds) (.setdly (BitVec.ofNat 16 (digitsValue ds))) := by
  have ht := isToken_digitsText h
  have hcount := countOperand_digitsText h 16
  exact ⟨assemblesIf_one (assembleLine_setgl ht) hcount, assemblesIf_one (assembleLine_setgh ht) hcount,
    assemblesIf_one (assembleLine_setdly ht) hcount⟩

theorem assemblesIf_cons (k : Kind) :
    assemblesIf (digitsValue ds < 65536) ("CONS ".toList ++ kindText k ++ ", ".toList ++ digitsText ds)
      (.cons k (BitVec.ofNat 16 (digitsValue ds))) :=
  assemblesIf_second (assembleLine_cons (isToken_kindText k) (isToken_digitsText h)) (kindOperand_kindText k)
    (countOperand_digitsText h 16)

theorem assemblesIf_blk_count (f : Half) :
    assemblesIf (digitsValue ds < 128) ("BLK ".toList ++ digitsText ds ++ ", ".toList ++ hexField f)
      (.blk (BitVec.ofNat 7 (digitsValue ds)) f) :=
  assemblesIf_first (assembleLine_blk (isToken_digitsText h) (isToken_hexField f)) (countOperand_digitsText h 7)
    (countOperand_hexField f)

theorem assemblesIf_blk_frames (n : BitVec 7) :
    assemblesIf (digitsValue ds < 65536) ("BLK ".toList ++ hexField (n.setWidth 16) ++ ", ".toList ++ digitsText ds)
      (.blk n (BitVec.ofNat 16 (digitsValue ds))) :=
  assemblesIf_second (assembleLine_blk (isToken_hexField _) (isToken_digitsText h)) (countOperand_hexField_setWidth n)
    (countOperand_digitsText h 16)

/-- Decimal samples of SMP, with a sign or without. -/
theorem assemblesIf_smp :
    assemblesIf (digitsValue ds ≤ 32767) ("SMP ".toList ++ digitsText ds) (.smp (BitVec.ofNat 16 (digitsValue ds))) ∧
      assemblesIf (digitsValue ds ≤ 32768) ("SMP -".toList ++ digitsText ds) (.smp (BitVec.ofInt 16 (-digitsValue ds))) := by
  have hminus : "SMP -".toList ++ digitsText ds = "SMP ".toList ++ '-' :: digitsText ds := by simp
  rw [hminus]
  exact ⟨assemblesIf_one (assembleLine_smp (isToken_digitsText h)) (sampleOperand_digitsText h),
    assemblesIf_one (assembleLine_smp (isToken_minus_digitsText h)) (sampleOperand_minus_digitsText h)⟩

/-- A decimal channel of FILT. -/
theorem assemblesIf_filt_channel (x : Half) :
    assemblesIf (digitsValue ds < 16) ("FILT ch".toList ++ digitsText ds ++ ", ".toList ++ hexField x)
      (.filt (BitVec.ofNat 4 (digitsValue ds)) x) := by
  have hch : "FILT ch".toList ++ digitsText ds ++ ", ".toList ++ hexField x =
      "FILT ".toList ++ ('c' :: 'h' :: digitsText ds) ++ ", ".toList ++ hexField x := by simp
  rw [hch]
  exact assemblesIf_first (assembleLine_filt (isToken_ch_digitsText h) (isToken_hexField x)) (channelOperand_digitsText h)
    (sampleOperand_hexField x)

/-- Decimal samples of FILT, with a sign or without. -/
theorem assemblesIf_filt_sample (c : Channel) :
    assemblesIf (digitsValue ds ≤ 32767) ("FILT ".toList ++ channelText c ++ ", ".toList ++ digitsText ds)
        (.filt c (BitVec.ofNat 16 (digitsValue ds))) ∧
      assemblesIf (digitsValue ds ≤ 32768) ("FILT ".toList ++ channelText c ++ ", -".toList ++ digitsText ds)
        (.filt c (BitVec.ofInt 16 (-digitsValue ds))) := by
  have hminus : "FILT ".toList ++ channelText c ++ ", -".toList ++ digitsText ds =
      "FILT ".toList ++ channelText c ++ ", ".toList ++ '-' :: digitsText ds := by simp
  have hc := channelOperand_channelText c
  have htoken := isToken_channelText c
  rw [hminus]
  exact ⟨assemblesIf_second (assembleLine_filt htoken (isToken_digitsText h)) hc (sampleOperand_digitsText h),
    assemblesIf_second (assembleLine_filt htoken (isToken_minus_digitsText h)) hc (sampleOperand_minus_digitsText h)⟩

/-- A decimal channel of DLWR. -/
theorem assemblesIf_dlwr_channel (x : Half) :
    assemblesIf (digitsValue ds < 16) ("DLWR ch".toList ++ digitsText ds ++ ", ".toList ++ hexField x)
      (.dlwr (BitVec.ofNat 4 (digitsValue ds)) x) := by
  have hch : "DLWR ch".toList ++ digitsText ds ++ ", ".toList ++ hexField x =
      "DLWR ".toList ++ ('c' :: 'h' :: digitsText ds) ++ ", ".toList ++ hexField x := by simp
  rw [hch]
  exact assemblesIf_first (assembleLine_dlwr (isToken_ch_digitsText h) (isToken_hexField x)) (channelOperand_digitsText h)
    (sampleOperand_hexField x)

/-- Decimal samples of DLWR, with a sign or without. -/
theorem assemblesIf_dlwr_sample (c : Channel) :
    assemblesIf (digitsValue ds ≤ 32767) ("DLWR ".toList ++ channelText c ++ ", ".toList ++ digitsText ds)
        (.dlwr c (BitVec.ofNat 16 (digitsValue ds))) ∧
      assemblesIf (digitsValue ds ≤ 32768) ("DLWR ".toList ++ channelText c ++ ", -".toList ++ digitsText ds)
        (.dlwr c (BitVec.ofInt 16 (-digitsValue ds))) := by
  have hminus : "DLWR ".toList ++ channelText c ++ ", -".toList ++ digitsText ds =
      "DLWR ".toList ++ channelText c ++ ", ".toList ++ '-' :: digitsText ds := by simp
  have hc := channelOperand_channelText c
  have htoken := isToken_channelText c
  rw [hminus]
  exact ⟨assemblesIf_second (assembleLine_dlwr htoken (isToken_digitsText h)) hc (sampleOperand_digitsText h),
    assemblesIf_second (assembleLine_dlwr htoken (isToken_minus_digitsText h)) hc (sampleOperand_minus_digitsText h)⟩

/-- Decimal channels and selectors of the reads. -/
theorem assemblesIf_reads :
    assemblesIf (digitsValue ds < 16) ("DLRD ch".toList ++ digitsText ds) (.dlrd (BitVec.ofNat 4 (digitsValue ds))) ∧
      assemblesIf (digitsValue ds ≤ 13) ("RDST ".toList ++ digitsText ds) (.rdst (BitVec.ofNat 4 (digitsValue ds))) ∧
      assemblesIf (digitsValue ds < 16) ("RDCUR ch".toList ++ digitsText ds) (.rdcur (BitVec.ofNat 4 (digitsValue ds))) := by
  have hdlrd : "DLRD ch".toList ++ digitsText ds = "DLRD ".toList ++ 'c' :: 'h' :: digitsText ds := by simp
  have hrdcur : "RDCUR ch".toList ++ digitsText ds = "RDCUR ".toList ++ 'c' :: 'h' :: digitsText ds := by simp
  rw [hdlrd, hrdcur]
  exact ⟨assemblesIf_one (assembleLine_dlrd (isToken_ch_digitsText h)) (channelOperand_digitsText h),
    assemblesIf_one (assembleLine_rdst (isToken_digitsText h)) (selectorOperand_digitsText h),
    assemblesIf_one (assembleLine_rdcur (isToken_ch_digitsText h)) (channelOperand_digitsText h)⟩

end

/-! ### The line of each command, and the pseudo-commands -/

theorem assembleLine_lineOf {i : Instr} (hwf : i.wf = true) : assembleLine (lineOf i) = some [i] := by
  cases i with
  | nop => exact assembleLine_nop
  | dstr => exact assembleLine_dstr
  | setgl d => exact (assembleLine_setgl (isToken_hexField d)).trans (by rw [countOperand_hexField, Option.map_some])
  | setgh d => exact (assembleLine_setgh (isToken_hexField d)).trans (by rw [countOperand_hexField, Option.map_some])
  | setdly d => exact (assembleLine_setdly (isToken_hexField d)).trans (by rw [countOperand_hexField, Option.map_some])
  | cons k n =>
    exact (assembleLine_cons (isToken_kindText k) (isToken_hexField n)).trans
      (by rw [kindOperand_kindText, Option.bind_some, countOperand_hexField, Option.map_some])
  | blk n f =>
    exact (assembleLine_blk (isToken_hexField _) (isToken_hexField f)).trans
      (by rw [countOperand_hexField_setWidth, Option.bind_some, countOperand_hexField, Option.map_some])
  | smp x => exact (assembleLine_smp (isToken_hexField x)).trans (by rw [sampleOperand_hexField, Option.map_some])
  | filt c x =>
    exact (assembleLine_filt (isToken_channelText c) (isToken_hexField x)).trans
      (by rw [channelOperand_channelText, Option.bind_some, sampleOperand_hexField, Option.map_some])
  | dlrd c => exact (assembleLine_dlrd (isToken_channelText c)).trans (by rw [channelOperand_channelText, Option.map_some])
  | dlwr c v =>
    exact (assembleLine_dlwr (isToken_channelText c) (isToken_hexField v)).trans
      (by rw [channelOperand_channelText, Option.bind_some, sampleOperand_hexField, Option.map_some])
  | rdst sel =>
    have hsel : sel.toNat ≤ 13 := by simpa [Instr.wf] using hwf
    exact (assembleLine_rdst (isToken_hexField _)).trans (by rw [selectorOperand_hexField hsel, Option.map_some])
  | rdcur c => exact (assembleLine_rdcur (isToken_channelText c)).trans (by rw [channelOperand_channelText, Option.map_some])

theorem assembleLine_config (k : Kind) (n delay : Half) (g : Word) :
    assembleLine ("CONFIG ".toList ++ kindText k ++ ", ".toList ++ hexField n ++ ", ".toList ++ hexField delay ++ ", ".toList ++
        hexWord g) = some (configCommands k n delay g) := by
  have hline := assembleLine_lineWith (mnemonic := "CONFIG".toList) (isToken_of_all (by decide))
    (ops := [kindText k, hexField n, hexField delay, hexWord g])
    (by simp [isToken_kindText, isToken_hexField, isToken_hexWord])
  have hcommand : assembleCommand "CONFIG".toList [kindText k, hexField n, hexField delay, hexWord g] =
      some (configCommands k n delay g) := by
    simp [assembleCommand, kindOperand_kindText, countOperand_hexField, gainOperand_hexWord]
  rw [← hcommand, ← hline]
  simp [lineWith, moreOperands]

theorem moreOperands_map_hexField (xs : List Half) :
    (xs.map fun x => ", ".toList ++ hexField x).flatten = moreOperands (xs.map hexField) := by
  induction xs with
  | nil => rfl
  | cons x xs ih => simp [moreOperands, ← ih]

/-- With no frames there are no samples to send. -/
theorem blockCommands_of_length {n : BitVec 7} {f : Half} {xs : List Half} (h : xs.length = n.toNat * f.toNat) :
    blockCommands n f xs = .blk n f :: xs.map .smp := by
  by_cases hf : f.toNat = 0
  · rw [hf, Nat.mul_zero, List.length_eq_zero_iff] at h
    simp [blockCommands, h]
  · rw [blockCommands, if_neg hf]

theorem assembleLine_process (n : BitVec 7) (f : Half) (xs : List Half) :
    assembleLine ("PROCESS ".toList ++ hexField (n.setWidth 16) ++ ", ".toList ++ hexField f ++
        (xs.map fun x => ", ".toList ++ hexField x).flatten) =
      if xs.length = n.toNat * f.toNat then some (.blk n f :: xs.map .smp) else none := by
  have hline := assembleLine_lineWith (mnemonic := "PROCESS".toList) (isToken_of_all (by decide))
    (ops := hexField (n.setWidth 16) :: hexField f :: xs.map hexField) (by simp [isToken_hexField])
  have hcommand : assembleCommand "PROCESS".toList (hexField (n.setWidth 16) :: hexField f :: xs.map hexField) =
      if xs.length = n.toNat * f.toNat then some (blockCommands n f xs) else none := by
    simp [assembleCommand, countOperand_hexField, countOperand_hexField_setWidth, allOperands_map_hexField]
  have htext : "PROCESS ".toList ++ hexField (n.setWidth 16) ++ ", ".toList ++ hexField f ++
      (xs.map fun x => ", ".toList ++ hexField x).flatten =
      lineWith "PROCESS".toList (hexField (n.setWidth 16) :: hexField f :: xs.map hexField) := by
    rw [moreOperands_map_hexField]
    simp [lineWith, moreOperands]
  rw [htext, hline, hcommand]
  split_ifs with h
  · rw [blockCommands_of_length h]
  · rfl

/-- Settles O60: a line comes apart into its mnemonic and its operands, and each operand text reads as its value when it fits. -/
theorem assemblerReadsALineOfEachCommand : Obligations.AssemblerReadsALineOfEachCommand := by
  unfold Obligations.AssemblerReadsALineOfEachCommand
  refine ⟨fun i hwf => assembleLine_lineOf hwf, assembleLine_comment, ?decimal, ?gainWord, ?gainReal, assembleLine_config,
    assembleLine_process⟩
  case decimal =>
    intro ds h
    obtain ⟨hgl, hgh, hdly⟩ := assemblesIf_staging h
    obtain ⟨hsmp, hsmpMinus⟩ := assemblesIf_smp h
    obtain ⟨hdlrd, hrdst, hrdcur⟩ := assemblesIf_reads h
    exact ⟨hgl, hgh, hdly, assemblesIf_cons h, assemblesIf_blk_count h, assemblesIf_blk_frames h, hsmp, hsmpMinus,
      assemblesIf_filt_channel h, fun c => (assemblesIf_filt_sample h c).1, fun c => (assemblesIf_filt_sample h c).2, hdlrd,
      assemblesIf_dlwr_channel h, fun c => (assemblesIf_dlwr_sample h c).1, fun c => (assemblesIf_dlwr_sample h c).2,
      hrdst, hrdcur⟩
  case gainWord =>
    intro g
    rw [assembleLine_setgain (isToken_hexWord g), gainOperand_hexWord]
    rfl
  case gainReal =>
    intro negative whole fraction hw hf
    rw [assembleLine_setgain (isToken_realText negative hw hf), gainOperand_realText negative hw hf]
    rfl

end Sys2Proof.Machine
end
